-- ==== Sys2Proof/Word.lean ====
section
/-! DEFINITION. The two word types of the zagros execution unit. -/

namespace Sys2Proof

/-- One byte of memory or of an encoded instruction (20_memory.md R81). -/
abbrev Byte := BitVec 8

/-- The block's only value type: 32 bits without a type tag (40_cell_alu.md R160). -/
abbrev Cell := BitVec 32

end Sys2Proof
end

