-- ==== Sys2Proof/Config.lean ====
section
/-! DEFINITION. What a build of the block fixes: the sizes of 00_scope.md R8, the two core counts of R7, and the
free value FLOAT_NAN_RESULT of R9. The other free parameter of R9, HOST_CALLBACK, takes a snapshot as its argument and
therefore stands in Sys2Proof/Config/Callback.lean, after the types of the state. -/

namespace Sys2Proof.Config

/-- `DATA_STACK_SIZE`, cells of a core's data stack (R8). -/
abbrev dataStackSize : Nat := 32

/-- `ADDRESS_STACK_SIZE`, cells of a core's address stack (R8). -/
abbrev addressStackSize : Nat := 128

/-- `REGISTER_BANK_SIZE`, registers of a core (R8). -/
abbrev registerBankSize : Nat := 24

/-- `MEMORY_SIZE`: 65 535, not 65 536 (R8, D34). -/
abbrev memorySize : Nat := 65535

/-- `INTERRUPT_TABLE_SIZE` (R8). -/
abbrev interruptTableSize : Nat := 128

/-- `IO_TABLE_SIZE` (R8). -/
abbrev ioTableSize : Nat := 16

/-- `IO_BEGIN`, the first address of the host I/O window (R8, R93). -/
abbrev ioBegin : Nat := 0

/-- `IO_END`, the first address after the host I/O window (R8, R93). -/
abbrev ioEnd : Nat := 192

/-- The values the parameter `CORE_COUNT` may take (R7). -/
inductive CoreCount where
  | two
  | eight
  deriving DecidableEq, Repr

/-- The number a core count stands for. -/
def CoreCount.toNat : CoreCount → Nat
  | .two => 2
  | .eight => 8

/-- "where one value is needed, it is 2" (R7). Log 2. -/
def coreCount : CoreCount := .two

/-- The binary32 operations that can give a NaN (R174, R182). -/
inductive FloatOp where
  | add
  | subtract
  | multiply
  | divide
  | remainder
  deriving DecidableEq, Repr

/-- FREE VALUE. The pattern behind `FLOAT_NAN_RESULT(op, l, r)` (R176, D14): nothing is known of it. The machine
uses it through `floatNanResult` (Machine/Float.lean), which always gives a NaN encoding. Log 6. -/
opaque nanBits : FloatOp → Cell → Cell → Cell

end Sys2Proof.Config
end

