-- ==== Sys2Proof/Machine/Float.lean ====
section
/-! DEFINITION. IEEE 754 binary32 as 40_cell_alu.md uses it: the value of a pattern (R163), rounding to nearest even (R174,
R175), sum, difference, product, quotient and remainder (R174, R182), and the order (R177). A finite value is kept exactly, as a
sign and a whole number of units of 2^-149, the smallest positive binary32 value. -/

namespace Sys2Proof.Machine

/-- What a binary32 pattern stands for. `finite neg mag` is `mag * 2^-149`, negated when `neg`; both zeros are `mag = 0`. -/
inductive FloatVal where
  | nan
  | infinite (neg : Bool)
  | finite (neg : Bool) (mag : Nat)
  deriving DecidableEq, Repr

/-- `to_f32(c)`: bit 31 the sign, bits 30:23 the exponent with bias 127, bits 22:0 the fraction (R163). -/
def toF32 (c : Cell) : FloatVal :=
  let exponent := (c.extractLsb' 23 8).toNat
  let fraction := (c.extractLsb' 0 23).toNat
  if exponent = 255 then (if fraction = 0 then .infinite c.msb else .nan)
  else if exponent = 0 then .finite c.msb fraction
  else .finite c.msb ((2 ^ 23 + fraction) * 2 ^ (exponent - 1))

/-- The pattern is a NaN encoding: exponent 255, fraction not 0 (R163, R176). -/
def isNaN (c : Cell) : Bool := decide (toF32 c = .nan)

/-- The bits 30:0 of an infinity. -/
def infinityBits : Nat := 0x7F800000

/-- The cell with the given sign bit and bits 30:0. -/
def signedCell (neg : Bool) (magnitude : Nat) : Cell := BitVec.ofNat 32 ((if neg then 2 ^ 31 else 0) + magnitude)

/-- The bits 30:0 of `num / den` units of 2^-149, rounded to nearest, ties to even; infinity on overflow (R174). Bits 30:0 of a
finite value whose significand is `q` (`2^23 <= q < 2^24`, or any `q < 2^24` when `k = 0`) and whose unit is `2^k` read
`k * 2^23 + q`; a significand rounded up to `2^24` carries into the exponent by itself. -/
def roundBits (num den : Nat) : Nat :=
  let k := Nat.log2 (num / den) - 23
  let unit := den * 2 ^ k
  let q := num / unit
  let r := num % unit
  let rounded := if 2 * r > unit ∨ (2 * r = unit ∧ q % 2 = 1) then q + 1 else q
  min (k * 2 ^ 23 + rounded) infinityBits

/-- `Cell.f32` of `num / den` units of 2^-149 with the given sign, rounded (R166, R174). -/
def roundedCell (neg : Bool) (num den : Nat) : Cell := signedCell neg (roundBits num den)

/-- `FLOAT_NAN_RESULT(op, l, r)`: any NaN encoding; `Config.nanBits` decides which (R176). -/
def floatNanResult (op : Config.FloatOp) (l r : Cell) : Cell :=
  if isNaN (Config.nanBits op l r) then Config.nanBits op l r else 0x7FC00000#32

/-- A magnitude with its sign. -/
def signedMag (neg : Bool) (mag : Nat) : Int := if neg then -(mag : Int) else (mag : Int)

/-- The value with the opposite sign. -/
def FloatVal.negate : FloatVal → FloatVal
  | .nan => .nan
  | .infinite neg => .infinite (!neg)
  | .finite neg mag => .finite (!neg) mag

/-- The sum of two values (R174): infinities of opposite signs have none; an exact zero is +0 unless both operands carry a
minus sign. -/
def floatSum (nan : Cell) : FloatVal → FloatVal → Cell
  | .nan, _ => nan
  | _, .nan => nan
  | .infinite a, .infinite b => if a = b then signedCell a infinityBits else nan
  | .infinite a, .finite _ _ => signedCell a infinityBits
  | .finite _ _, .infinite b => signedCell b infinityBits
  | .finite a m, .finite b n =>
    let sum := signedMag a m + signedMag b n
    if sum = 0 then signedCell (a && b) 0 else roundedCell (decide (sum < 0)) sum.natAbs 1

/-- `to_f32(l) + to_f32(r)` (R174). -/
def floatAdd (l r : Cell) : Cell := floatSum (floatNanResult .add l r) (toF32 l) (toF32 r)

/-- `to_f32(l) - to_f32(r)` (R174). -/
def floatSubtract (l r : Cell) : Cell := floatSum (floatNanResult .subtract l r) (toF32 l) (toF32 r).negate

/-- The product of two values (R174): 0 times an infinity has none. -/
def floatProduct (nan : Cell) : FloatVal → FloatVal → Cell
  | .nan, _ => nan
  | _, .nan => nan
  | .infinite a, .infinite b => signedCell (a ^^ b) infinityBits
  | .infinite a, .finite b n => if n = 0 then nan else signedCell (a ^^ b) infinityBits
  | .finite a m, .infinite b => if m = 0 then nan else signedCell (a ^^ b) infinityBits
  | .finite a m, .finite b n => roundedCell (a ^^ b) (m * n) (2 ^ 149)

/-- `to_f32(l) * to_f32(r)` (R174). -/
def floatMultiply (l r : Cell) : Cell := floatProduct (floatNanResult .multiply l r) (toF32 l) (toF32 r)

/-- The quotient of two values (R182): two infinities or two zeros have none; a zero divisor never comes here (R179). -/
def floatQuotient (nan : Cell) : FloatVal → FloatVal → Cell
  | .nan, _ => nan
  | _, .nan => nan
  | .infinite _, .infinite _ => nan
  | .infinite a, .finite b _ => signedCell (a ^^ b) infinityBits
  | .finite a _, .infinite b => signedCell (a ^^ b) 0
  | .finite a m, .finite b n =>
    if n = 0 then (if m = 0 then nan else signedCell (a ^^ b) infinityBits)
    else roundedCell (a ^^ b) (m * 2 ^ 149) n

/-- `to_f32(l) / to_f32(r)` (R182). -/
def floatDivide (l r : Cell) : Cell := floatQuotient (floatNanResult .divide l r) (toF32 l) (toF32 r)

/-- The whole number nearest to `m / n`, ties to even: the `n` of the IEEE remainder (R182). -/
def nearestQuotient (m n : Nat) : Nat :=
  if 2 * (m % n) > n ∨ (2 * (m % n) = n ∧ m / n % 2 = 1) then m / n + 1 else m / n

/-- The IEEE remainder `x - n*y` of two values, computed exactly (R182): the dividend `l` itself when the divisor is
infinite; the sign of `x` on a zero; none for an infinite dividend. A zero divisor never comes here (R179). -/
def floatRemOf (nan l : Cell) : FloatVal → FloatVal → Cell
  | .nan, _ => nan
  | _, .nan => nan
  | .infinite _, .infinite _ => nan
  | .infinite _, .finite _ _ => nan
  | .finite _ _, .infinite _ => l
  | .finite a m, .finite _ n =>
    if n = 0 then nan
    else
      let exact := (m : Int) - (nearestQuotient m n * n : Nat)
      if 0 ≤ exact then roundedCell a exact.natAbs 1 else roundedCell (!a) exact.natAbs 1

/-- The IEEE remainder of `to_f32(l)` by `to_f32(r)` (R182). -/
def floatRemainder (l r : Cell) : Cell := floatRemOf (floatNanResult .remainder l r) l (toF32 l) (toF32 r)

/-- `x < y`: false with a NaN operand, and the two zeros are equal (R177, D32). -/
def floatLess : FloatVal → FloatVal → Bool
  | .nan, _ => false
  | _, .nan => false
  | .infinite a, .infinite b => a && !b
  | .infinite a, .finite _ _ => a
  | .finite _ _, .infinite b => !b
  | .finite a m, .finite b n => decide (signedMag a m < signedMag b n)

/-- The value is +0.0 or -0.0 (R179). -/
def isFloatZero (c : Cell) : Bool := decide (toF32 c = .finite false 0) || decide (toF32 c = .finite true 0)

end Sys2Proof.Machine
end

