-- ==== Sys2Proof/Syntax.lean ====
section
/-! DEFINITION. The instructions: one constructor per row of spec/opcode_table.json (30_encoding.md R125). Only LW, LH
and LB carry an immediate; every other operand is on a stack or in the core (R120). -/

namespace Sys2Proof

/-- The 55 instructions of the zagros bytecode, in the order of their opcode bytes (R125). -/
inductive Instr where
  /-- NO, 0x00: no operation (R260). -/
  | no
  /-- LW, 0x01: push the 32-bit immediate (R261). -/
  | lw (imm : BitVec 32)
  /-- LH, 0x02: push the zero-extended 16-bit immediate (R262). -/
  | lh (imm : BitVec 16)
  /-- LB, 0x03: push the zero-extended 8-bit immediate (R263). -/
  | lb (imm : BitVec 8)
  /-- FW, 0x04: load a word (R264). -/
  | fw
  /-- FH, 0x05: load a half, zero-extended (R265). -/
  | fh
  /-- FB, 0x06: load a byte, zero-extended (R266). -/
  | fb
  /-- SW, 0x07: store a word (R267). -/
  | sw
  /-- SH, 0x08: store the low half (R268). -/
  | sh
  /-- SB, 0x09: store the low byte (R269). -/
  | sb
  /-- DU, 0x0a: duplicate (R290). -/
  | du
  /-- DR, 0x0b: drop (R291). -/
  | dr
  /-- SP, 0x0c: swap (R292). -/
  | sp
  /-- PU, 0x0d: move the top cell to the address stack (R293). -/
  | pu
  /-- PO, 0x0e: move the top of the address stack to the data stack (R294). -/
  | po
  /-- EQ, 0x0f: equal (R310). -/
  | eq
  /-- NE, 0x10: not equal (R311). -/
  | ne
  /-- LT, 0x11: less than (R312). -/
  | lt
  /-- GT, 0x12: greater than (R313). -/
  | gt
  /-- AD, 0x13: add (R314). -/
  | ad
  /-- SU, 0x14: subtract (R315). -/
  | su
  /-- MU, 0x15: multiply (R316). -/
  | mu
  /-- DM, 0x16: divide with remainder (R317). -/
  | dm
  /-- MD, 0x17: multiply, then divide with remainder (R318). -/
  | md
  /-- AN, 0x18: bitwise and (R340). -/
  | an
  /-- OR, 0x19: bitwise or (R341). -/
  | or
  /-- XO, 0x1a: bitwise exclusive or (R342). -/
  | xo
  /-- NT, 0x1b: bitwise not (R343). -/
  | nt
  /-- SL, 0x1c: shift left (R344). -/
  | sl
  /-- SR, 0x1d: shift right (R345). -/
  | sr
  /-- PA, 0x1e: pack four bytes (R346). -/
  | pa
  /-- UN, 0x1f: unpack four bytes (R347). -/
  | un
  /-- RL, 0x20: relative address mode (R370). -/
  | rl
  /-- CA, 0x21: call (R371). -/
  | ca
  /-- CC, 0x22: conditional call (R372). -/
  | cc
  /-- JU, 0x23: jump (R373). -/
  | ju
  /-- CJ, 0x24: conditional jump (R374). -/
  | cj
  /-- RE, 0x25: return (R375). -/
  | re
  /-- CR, 0x26: conditional return (R376). -/
  | cr
  /-- SV, 0x27: set interrupt vector (R400). -/
  | sv
  /-- HI, 0x28: hold interrupts (R401). -/
  | hi
  /-- SI, 0x29: set interrupts (R402). -/
  | si
  /-- TI, 0x2a: trigger interrupt (R403). -/
  | ti
  /-- II, 0x2b: invoke I/O slot (R404). -/
  | ii
  /-- HS, 0x2c: halt system (R420). -/
  | hs
  /-- IC, 0x2d: initialise core (R421). -/
  | ic
  /-- AC, 0x2e: activate core (R422). -/
  | ac
  /-- PC, 0x2f: pause core (R423). -/
  | pc
  /-- SC, 0x30: stop current core (R424). -/
  | sc
  /-- RR, 0x31: read register (R440). -/
  | rr
  /-- WR, 0x32: write register (R441). -/
  | wr
  /-- CP, 0x33: copy block (R442). -/
  | cp
  /-- BC, 0x34: compare block (R443). -/
  | bc
  /-- UU, 0x35: unsigned mode (R444). -/
  | uu
  /-- FF, 0x36: float mode (R445). -/
  | ff
  deriving DecidableEq, Repr

/-- The encoded length in bytes (R121, R123): 8 for LW, 3 for LH, 2 for LB, 1 for every other instruction. -/
def Instr.length : Instr → Nat
  | .lw _ => 8
  | .lh _ => 3
  | .lb _ => 2
  | .no | .fw | .fh | .fb | .sw | .sh | .sb | .du | .dr | .sp | .pu | .po | .eq | .ne | .lt | .gt | .ad | .su
  | .mu | .dm | .md | .an | .or | .xo | .nt | .sl | .sr | .pa | .un | .rl | .ca | .cc | .ju | .cj | .re | .cr
  | .sv | .hi | .si | .ti | .ii | .hs | .ic | .ac | .pc | .sc | .rr | .wr | .cp | .bc | .uu | .ff => 1

end Sys2Proof
end

