-- ==== Sys2Proof/Decode.lean ====
section
/-! DEFINITION. From bytes to instructions and back: the formats of 30_encoding.md R121, the immediate assembly of R122
and the opcode map of R125. The decoder is total and rejects by name; the encoder is written from the same tables. -/

namespace Sys2Proof

/-- The cell whose bytes are `b0` (least significant) to `b3`, little-endian (R82, R160, R167). -/
def ofBytes (b0 b1 b2 b3 : Byte) : Cell := b3 ++ b2 ++ b1 ++ b0

/-- Byte `i` of a cell, byte 0 least significant (R10, R160). -/
def byteOf (c : Cell) (i : Nat) : Byte := c.extractLsb' (8 * i) 8

/-- Why bytes are no instruction. -/
inductive DecodeError where
  /-- An opcode byte 0x37 .. 0xFF, which encodes no instruction (R126). -/
  | illegalOpcode (op : Byte)
  /-- The list ends inside the instruction. The machine always hands the decoder eight bytes, so a step never meets it. -/
  | truncated
  deriving DecidableEq, Repr

/-- The format O rows of 42_literal_memory.md (R125). -/
def memoryRows : List (Byte × Instr) :=
  [(0x00, .no), (0x04, .fw), (0x05, .fh), (0x06, .fb), (0x07, .sw), (0x08, .sh), (0x09, .sb)]

/-- The format O rows of 43_stack.md (R125). -/
def stackRows : List (Byte × Instr) :=
  [(0x0A, .du), (0x0B, .dr), (0x0C, .sp), (0x0D, .pu), (0x0E, .po)]

/-- The format O rows of 44_compare_arith.md (R125). -/
def compareRows : List (Byte × Instr) :=
  [(0x0F, .eq), (0x10, .ne), (0x11, .lt), (0x12, .gt), (0x13, .ad), (0x14, .su), (0x15, .mu), (0x16, .dm), (0x17, .md)]

/-- The format O rows of 45_bitwise_pack.md (R125). -/
def bitwiseRows : List (Byte × Instr) :=
  [(0x18, .an), (0x19, .or), (0x1A, .xo), (0x1B, .nt), (0x1C, .sl), (0x1D, .sr), (0x1E, .pa), (0x1F, .un)]

/-- The format O rows of 46_control.md (R125). -/
def controlRows : List (Byte × Instr) :=
  [(0x20, .rl), (0x21, .ca), (0x22, .cc), (0x23, .ju), (0x24, .cj), (0x25, .re), (0x26, .cr)]

/-- The format O rows of 47_interrupt_io.md (R125). -/
def interruptRows : List (Byte × Instr) :=
  [(0x27, .sv), (0x28, .hi), (0x29, .si), (0x2A, .ti), (0x2B, .ii)]

/-- The format O rows of 48_core_control.md (R125). -/
def coreControlRows : List (Byte × Instr) :=
  [(0x2C, .hs), (0x2D, .ic), (0x2E, .ac), (0x2F, .pc), (0x30, .sc)]

/-- The format O rows of 49_register_block_mode.md (R125). -/
def registerRows : List (Byte × Instr) :=
  [(0x31, .rr), (0x32, .wr), (0x33, .cp), (0x34, .bc), (0x35, .uu), (0x36, .ff)]

/-- The rows of the opcode map (R125) with format O: one byte, no immediate (R121). -/
def opcodeRows : List (Byte × Instr) :=
  memoryRows ++ stackRows ++ compareRows ++ bitwiseRows
  ++ controlRows ++ interruptRows ++ coreControlRows ++ registerRows

/-- Reads one instruction from the front of a list of bytes and answers it with the bytes after it. The opcode byte
alone decides the length (R123); the three pad bytes of LW are not read (R122); a byte above 0x36 is refused (R126). -/
def decode : List Byte → Except DecodeError (Instr × List Byte)
  | [] => .error .truncated
  | op :: rest =>
    if op = 0x01 then
      match rest with
      | _ :: _ :: _ :: b0 :: b1 :: b2 :: b3 :: rest' => .ok (.lw (ofBytes b0 b1 b2 b3), rest')
      | _ => .error .truncated
    else if op = 0x02 then
      match rest with
      | b0 :: b1 :: rest' => .ok (.lh (b1 ++ b0), rest')
      | _ => .error .truncated
    else if op = 0x03 then
      match rest with
      | b0 :: rest' => .ok (.lb b0, rest')
      | _ => .error .truncated
    else
      match opcodeRows.lookup op with
      | some i => .ok (i, rest)
      | none => .error (.illegalOpcode op)

/-- The bytes of an instruction, lowest address first (R121, R125); LW's pad bytes are written as NO (R122). -/
def encode : Instr → List Byte
  | .no => [0x00]
  | .lw imm => [0x01, 0x00, 0x00, 0x00, byteOf imm 0, byteOf imm 1, byteOf imm 2, byteOf imm 3]
  | .lh imm => [0x02, imm.extractLsb' 0 8, imm.extractLsb' 8 8]
  | .lb imm => [0x03, imm]
  | .fw => [0x04]
  | .fh => [0x05]
  | .fb => [0x06]
  | .sw => [0x07]
  | .sh => [0x08]
  | .sb => [0x09]
  | .du => [0x0A]
  | .dr => [0x0B]
  | .sp => [0x0C]
  | .pu => [0x0D]
  | .po => [0x0E]
  | .eq => [0x0F]
  | .ne => [0x10]
  | .lt => [0x11]
  | .gt => [0x12]
  | .ad => [0x13]
  | .su => [0x14]
  | .mu => [0x15]
  | .dm => [0x16]
  | .md => [0x17]
  | .an => [0x18]
  | .or => [0x19]
  | .xo => [0x1A]
  | .nt => [0x1B]
  | .sl => [0x1C]
  | .sr => [0x1D]
  | .pa => [0x1E]
  | .un => [0x1F]
  | .rl => [0x20]
  | .ca => [0x21]
  | .cc => [0x22]
  | .ju => [0x23]
  | .cj => [0x24]
  | .re => [0x25]
  | .cr => [0x26]
  | .sv => [0x27]
  | .hi => [0x28]
  | .si => [0x29]
  | .ti => [0x2A]
  | .ii => [0x2B]
  | .hs => [0x2C]
  | .ic => [0x2D]
  | .ac => [0x2E]
  | .pc => [0x2F]
  | .sc => [0x30]
  | .rr => [0x31]
  | .wr => [0x32]
  | .cp => [0x33]
  | .bc => [0x34]
  | .uu => [0x35]
  | .ff => [0x36]

/-- The longest instruction, LW, in bytes (R121). -/
def maxLength : Nat := 8

/-- An instruction given as a number whose bits [8k+7 : 8k] are the byte at offset `k` (R121), cut to `nbits` bits, as
the eight bytes the memory holds. -/
def tableBytes (nbits w : Nat) : List Byte :=
  (List.range maxLength).map fun k => BitVec.ofNat 8 ((w % 2 ^ nbits) >>> (8 * k))

/-- The instruction the decoder reads from the `nbits` low bits of `w`, every bit above them zero. -/
def decodeTableWord (nbits w : Nat) : Option Instr :=
  match decode (tableBytes nbits w) with
  | .ok (i, _) => some i
  | .error _ => none

end Sys2Proof
end

