-- ==== Sys2Proof/Machine/State.lean ====
section
/-! DEFINITION. The state of the block as plain data (10_state.md R30), the statuses (60_exceptions.md R470), the ways a
step can stop, the host's operations as data, and the state after `construct` (70_reset_and_hazards.md R520). -/

namespace Sys2Proof.Machine

/-- The operation mode of a core, which selects the reading of its cells (10_state.md R42, 40_cell_alu.md R172). -/
inductive OpMode where
  | signed
  | unsigned
  | float
  deriving DecidableEq, Repr

/-- The address mode of a core, which selects the reading of a jump target (10_state.md R43). -/
inductive AddrMode where
  | direct
  | relative
  deriving DecidableEq, Repr

/-- The statuses, "the full set an implementer must reproduce", in the order of their codes (60_exceptions.md R470). -/
inductive Status where
  /-- 0: success. -/
  | none
  /-- 1: normal termination (HS, or an opcode fetch past the end of memory). -/
  | systemHalt
  /-- 2: the guard found too little room. -/
  | dataStackOverflow
  /-- 3: the guard found too few cells. -/
  | dataStackUnderflow
  /-- 4: a push on a full address stack. -/
  | addressStackOverflow
  /-- 5: a pop of an empty address stack. -/
  | addressStackUnderflow
  /-- 6: a register id of 24 or more. -/
  | illegalRegisterId
  /-- 7: a memory range that leaves memory, or a host address outside the I/O window. -/
  | illegalMemoryAddress
  /-- 8: an interrupt id of 128 or more. -/
  | illegalInterruptId
  /-- 9: DM or MD with a zero divisor. -/
  | divisionByZero
  /-- 10: SL or SR in FLOAT mode. -/
  | invalidFloatOperation
  /-- 11: reserved; nothing produces it. -/
  | outOfMemory
  deriving DecidableEq, Repr

/-- The memory (20_memory.md R80): the bytes that are not 0, as (address, byte) pairs in rising order. -/
structure Memory where
  cells : List Host.Cell
  deriving DecidableEq, Repr

/-- One core (10_state.md R35 to R50). The stacks hold their live cells only, the top first (R53, log 5): `top` is
`data.length` and `atop` is `addrs.length`. -/
structure CoreState where
  /-- The instruction pointer, the byte address of the current opcode (R39). -/
  ip : Cell
  /-- Whether the scheduler may select this core (R41). -/
  active : Bool
  opMode : OpMode
  addrMode : AddrMode
  /-- The data stack (R44). -/
  data : List Cell
  /-- The address stack (R47). -/
  addrs : List Cell
  /-- The register bank (R50). -/
  regs : Vector Cell Config.registerBankSize
  deriving DecidableEq, Repr

/-- The default state of a core (R38), with its IP at `ip`: what `init(ip)` leaves (R52). -/
def CoreState.default (ip : Cell) : CoreState where
  ip := ip
  active := false
  opMode := .signed
  addrMode := .direct
  data := []
  addrs := []
  regs := .replicate _ 0#32

/-- The operations of the block's interface that the host may call (00_scope.md R16), as data: a callback is a list of
them (60_exceptions.md R490). -/
inductive HostCall where
  /-- `io_read_byte(addr)` (20_memory.md R96). -/
  | ioReadByte (addr : Nat)
  /-- `io_write_byte(addr, b)` (20_memory.md R97). -/
  | ioWriteByte (addr : Nat) (b : Byte)
  /-- `snapshot()` (60_exceptions.md R505). -/
  | snapshot
  /-- `run()`, not allowed inside a callback (60_exceptions.md R490). -/
  | run
  /-- `load_program(bytes, n)`, not allowed inside a callback (R490). -/
  | loadProgram (bytes : List Byte) (n : Nat)
  /-- `construct(io_slots)`, not allowed inside a callback (R490). -/
  | construct (slots : Vector Bool Config.ioTableSize)
  deriving DecidableEq, Repr

/-- What one invocation of a callback does: a finite sequence of host operations and its return, or no return at all
(60_exceptions.md R490). -/
inductive CallbackRun where
  | returns (calls : List HostCall)
  /-- "A callback that never returns leaves `run()` waiting forever." -/
  | neverReturns
  deriving DecidableEq, Repr, Inhabited

/-- What stops the machine for good. -/
inductive Fault where
  /-- Raised by II when the invoked callback never returns: `run()` waits forever (60_exceptions.md R490, "stuck" in
  93_implementation_defined.md). Safe: no next state is claimed. -/
  | callbackNeverReturns
  /-- Raised by the tick and by every instruction that looks at its core when `curCoreId` is no core's id, which 10_state.md R36
  rules out and no run reaches. Safe: no next state is claimed. -/
  | noCurrentCore
  deriving DecidableEq, Repr

/-- The outcomes `Undefined(reason)` of 00_scope.md R14, on which "a model must not continue the run", and the rejection of an
instruction without a meaning. All are safe: no next state is claimed. -/
inductive Refusal where
  /-- An instruction the model gives no meaning; no arm of `exec` answers it. -/
  | notModelled (mnemonic : String)
  /-- `Undefined(IllegalOpcode)`, raised by the tick for an opcode byte above 0x36 (30_encoding.md R126). -/
  | undecodable (e : DecodeError)
  /-- `Undefined(IllegalCoreId)`, raised by IC, AC and PC for an id of CORE_COUNT or more (48_core_control.md R421 to R423). -/
  | illegalCoreId (id : Nat)
  /-- `Undefined(IllegalHostCall)`, raised by II when its callback calls `run`, `load_program` or `construct`
  (60_exceptions.md R490). -/
  | illegalHostCall (call : HostCall)
  /-- A data-stack push or pop outside a validated guard, whose behaviour "is undefined" (10_state.md R45). No instruction
  reaches it: each guards with its exact counts first (41_engine.md R231). -/
  | unguardedStack
  deriving DecidableEq, Repr

/-- How a handler can end other than by completing. -/
inductive Stop where
  /-- `raise S` (00_scope.md R13). -/
  | raise (st : Status)
  /-- `Undefined(reason)` (00_scope.md R14). -/
  | undefined (r : Refusal)
  /-- The machine is stuck. -/
  | stuck (f : Fault)
  deriving DecidableEq, Repr

/-- Everything the block holds (10_state.md R30), its status output, and one field of the model's own. -/
structure State where
  /-- The memory shared by all cores (20_memory.md R80). -/
  memory : Memory
  /-- The handler addresses, indexed by interrupt id (R32). -/
  interruptTable : Vector Cell Config.interruptTableSize
  /-- The shared interrupt-enable bit (R33). -/
  intEnabled : Bool
  /-- Which callback slots are present (R34, 60_exceptions.md R488). -/
  ioTable : Vector Bool Config.ioTableSize
  /-- The cores by id (R35); the length of the list is CORE_COUNT (00_scope.md R7). -/
  cores : List CoreState
  /-- The id of the core the scheduler selected last (R36). -/
  curCoreId : Nat
  /-- The status output of `run()` (41_engine.md R225, 60_exceptions.md R471): `.none` until a tick returns another status,
  then that status until the host calls `run()` again. Log 1. -/
  status : Status
  /-- THE MODEL'S OWN FIELD: the ids of the slots whose callbacks were invoked, newest first. Log 4. -/
  callbackLog : List Nat
  deriving DecidableEq, Repr

/-- `construct(io_slots)` (70_reset_and_hazards.md R520): the one reset, for either core count and any slots. -/
def State.construct (count : Config.CoreCount) (slots : Vector Bool Config.ioTableSize) : State where
  memory := ⟨[]⟩
  interruptTable := .replicate _ 0#32
  intEnabled := false
  ioTable := slots
  cores := { CoreState.default 0#32 with active := true } :: List.replicate (count.toNat - 1) (CoreState.default 0#32)
  curCoreId := count.toNat - 1
  status := .none
  callbackLog := []

/-- The machine right after reset, for the core count of `Config.coreCount` and without callbacks (R520 to R522; logs 2 and 3). -/
def State.reset : State := State.construct Config.coreCount (.replicate _ false)

/-- The core the tick executes on, `C` of 41_engine.md R221. -/
def State.current? (s : State) : Option CoreState := s.cores[s.curCoreId]?

/-- Writes core `id`. -/
def State.setCore (s : State) (id : Nat) (c : CoreState) : State := { s with cores := s.cores.set id c }

/-- Writes the current core. -/
def State.setCurrent (s : State) (c : CoreState) : State := s.setCore s.curCoreId c

/-- Writes the memory. -/
def State.setMemory (s : State) (m : Memory) : State := { s with memory := m }

/-- Writes the interrupt table. -/
def State.setTable (s : State) (t : Vector Cell Config.interruptTableSize) : State := { s with interruptTable := t }

/-- Writes the interrupt-enable bit. -/
def State.setIntEnabled (s : State) (b : Bool) : State := { s with intEnabled := b }

/-- Writes `cur_core_id`. -/
def State.select (s : State) (id : Nat) : State := { s with curCoreId := id }

/-- Writes the status output. -/
def State.setStatus (s : State) (st : Status) : State := { s with status := st }

/-- Records the invocation of a callback. -/
def State.logCallback (s : State) (id : Nat) : State := { s with callbackLog := id :: s.callbackLog }

/-- What `snapshot()` exports (60_exceptions.md R505): a copy of the whole state. -/
structure Snapshot where
  memory : Memory
  interruptTable : Vector Cell Config.interruptTableSize
  /-- For each slot its description, or nothing for an empty slot (D39). -/
  ioDescriptions : List (Option String)
  /-- Every core with its live stack cells only. -/
  cores : List CoreState
  curCoreId : Nat
  intEnabled : Bool
  deriving DecidableEq, Repr

end Sys2Proof.Machine
end

