-- ==== Sys2Proof/Machine/Operands.lean ====
section
/-! DEFINITION. The views of a cell as an operand (40_cell_alu.md R161 to R165), the constructors of a cell (R166 to R169), and
the reading of a popped jump target (46_control.md R377, R378). `toF32`, the remaining view, stands in Float.lean. -/

namespace Sys2Proof.Machine

/-- `to_u32(c)`, also `to_size(c)`: the view of every address, length and id (R161, D37). -/
abbrev toU32 (c : Cell) : Nat := c.toNat

/-- `to_i32(c)`: the two's-complement reading (R162). -/
abbrev toI32 (c : Cell) : Int := c.toInt

/-- `to_bool(c)`: true iff all four bytes are 0xFF (R164). -/
def cellToBool (c : Cell) : Bool := decide (c = 0xFFFFFFFF#32)

/-- `to_byte(c)`: the low byte (R165). -/
def toByte (c : Cell) : Byte := byteOf c 0

/-- `Cell.u32(u32(x))` (R166, 00_scope.md R11). -/
def cellU32 (x : Nat) : Cell := BitVec.ofNat 32 x

/-- `Cell.i32(x)`, wrapped to 32 bits (R166). -/
def cellI32 (x : Int) : Cell := BitVec.ofInt 32 x

/-- `Cell.bool(b)`: 0xFFFFFFFF or 0 (R168). -/
def cellBool (b : Bool) : Cell := if b then 0xFFFFFFFF#32 else 0#32

/-- `Cell.u8(b)`: the zero-extension of a byte (R169, D12). -/
def cellU8 (b : Byte) : Cell := ofBytes b 0#8 0#8 0#8

/-- `Target(t)`: the popped cell itself in DIRECT mode, relative to the address of the control-flow opcode in RELATIVE mode,
modulo 2^32 (46_control.md R377, D31). -/
def jumpTarget (c : CoreState) (t : Cell) : Cell :=
  match c.addrMode with
  | .direct => t
  | .relative => cellU32 (toU32 t + toU32 c.ip)

/-- The return address of a call: four past the call opcode, modulo 2^32 (46_control.md R378). -/
def returnAddress (c : CoreState) : Cell := cellU32 (toU32 c.ip + 4)

end Sys2Proof.Machine
end

