-- ==== Sys2Proof/Machine/Flags.lean ====
section
/-! DEFINITION. The block has no flags: conditions are cells (10_state.md R54). Here are the functions that compute one: the mode's
comparisons and the comparison of raw bits (40_cell_alu.md R177, R178). -/

namespace Sys2Proof.Machine

/-- `less_than(l, r, m)` (R177). -/
def lessThan (l r : Cell) (m : OpMode) : Cell :=
  match m with
  | .signed => cellBool (decide (toI32 l < toI32 r))
  | .unsigned => cellBool (decide (toU32 l < toU32 r))
  | .float => cellBool (floatLess (toF32 l) (toF32 r))

/-- `greater_than(l, r, m)` (R177). -/
def greaterThan (l r : Cell) (m : OpMode) : Cell :=
  match m with
  | .signed => cellBool (decide (toI32 l > toI32 r))
  | .unsigned => cellBool (decide (toU32 l > toU32 r))
  | .float => cellBool (floatLess (toF32 r) (toF32 l))

/-- `equal(l, r)`: the raw bits, in every mode (R178). -/
def equal (l r : Cell) : Cell := cellBool (decide (toU32 l = toU32 r))

/-- `not_equal(l, r)`: the raw bits, in every mode (R178). -/
def notEqual (l r : Cell) : Cell := cellBool (decide (toU32 l ≠ toU32 r))

end Sys2Proof.Machine
end

