-- ==== Sys2Proof/Machine/Alu.lean ====
section
/-! DEFINITION. The typed cell arithmetic unit (40_cell_alu.md R172 to R191), but for the comparisons (Flags.lean) and the binary32
operations (Float.lean). Functions that may end in a status answer it as an error. -/

namespace Sys2Proof.Machine

/-- `add(l, r, m)`: wraps in the integer modes, binary32 in FLOAT mode (R173, R174). -/
def add (l r : Cell) (m : OpMode) : Cell :=
  match m with
  | .signed => cellU32 (toU32 l + toU32 r)
  | .unsigned => cellU32 (toU32 l + toU32 r)
  | .float => floatAdd l r

/-- `subtract(l, r, m)` (R173, R174). -/
def subtract (l r : Cell) (m : OpMode) : Cell :=
  match m with
  | .signed => cellI32 ((toU32 l : Int) - toU32 r)
  | .unsigned => cellI32 ((toU32 l : Int) - toU32 r)
  | .float => floatSubtract l r

/-- `multiply(l, r, m)`: the low 32 bits of the product, or binary32 (R173, R174). -/
def multiply (l r : Cell) (m : OpMode) : Cell :=
  match m with
  | .signed => cellU32 (toU32 l * toU32 r)
  | .unsigned => cellU32 (toU32 l * toU32 r)
  | .float => floatMultiply l r

/-- The divisor is zero in the mode: all bits 0 in the integer modes, +0.0 or -0.0 in FLOAT mode (R179, D16). -/
def zeroDivisor (r : Cell) (m : OpMode) : Bool :=
  match m with
  | .signed => decide (toU32 r = 0)
  | .unsigned => decide (toU32 r = 0)
  | .float => isFloatZero r

/-- `divide_remainder(l, r, m)`: (modulo, quotient), or DivisionByZero (R179). Signed quotients are truncated toward zero and
wrap (R180), unsigned ones are floors (R181), binary32 ones are rounded beside the IEEE remainder (R182). The zero cells of
the error case are never visible (C12). -/
def divideRemainder (l r : Cell) (m : OpMode) : Except Status (Cell × Cell) :=
  if zeroDivisor r m then .error .divisionByZero
  else
    match m with
    | .signed =>
      let q := Int.tdiv (toI32 l) (toI32 r)
      .ok (cellI32 (toI32 l - q * toI32 r), cellI32 q)
    | .unsigned => .ok (cellU32 (toU32 l % toU32 r), cellU32 (toU32 l / toU32 r))
    | .float => .ok (floatRemainder l r, floatDivide l r)

/-- `multiply_divide_remainder(l, mul, r, m)`: the mode's 32-bit product, divided (R183, D18). -/
def multiplyDivideRemainder (l mul r : Cell) (m : OpMode) : Except Status (Cell × Cell) :=
  divideRemainder (multiply l mul m) r m

/-- The shift count: the low five bits of the operand (R184, D19). -/
def shiftCount (r : Cell) : Nat := toU32 r % 32

/-- `shift_left(l, r, m)` (R185), InvalidFloatOperation in FLOAT mode (R186). -/
def shiftLeft (l r : Cell) (m : OpMode) : Except Status Cell :=
  match m with
  | .signed => .ok (cellU32 (toU32 l * 2 ^ shiftCount r))
  | .unsigned => .ok (cellU32 (toU32 l * 2 ^ shiftCount r))
  | .float => .error .invalidFloatOperation

/-- `shift_right(l, r, m)`: arithmetic in SIGNED mode, logical in UNSIGNED mode (R185), InvalidFloatOperation in FLOAT mode (R187). -/
def shiftRight (l r : Cell) (m : OpMode) : Except Status Cell :=
  match m with
  | .signed => .ok (cellI32 (Int.fdiv (toI32 l) (2 ^ shiftCount r)))
  | .unsigned => .ok (cellU32 (toU32 l / 2 ^ shiftCount r))
  | .float => .error .invalidFloatOperation

/-- `bitwise_and(l, r)` (R188). -/
def bitwiseAnd (l r : Cell) : Cell := l &&& r

/-- `bitwise_or(l, r)` (R188). -/
def bitwiseOr (l r : Cell) : Cell := l ||| r

/-- `bitwise_xor(l, r)` (R188). -/
def bitwiseXor (l r : Cell) : Cell := l ^^^ r

/-- `bitwise_not(v)`: every bit inverted (R188). -/
def bitwiseNot (v : Cell) : Cell := cellU32 (0xFFFFFFFF - toU32 v)

/-- `pack(a, b, c, d)`: `d`'s low byte becomes the least significant byte (R190). -/
def pack (a b c d : Cell) : Cell := ofBytes (toByte d) (toByte c) (toByte b) (toByte a)

/-- One cell of `unpack(v)`: byte `i`, zero-extended (R191). -/
def unpackByte (v : Cell) (i : Nat) : Cell := cellU8 (byteOf v i)

end Sys2Proof.Machine
end

