-- ==== Sys2Proof/Config/Callback.lean ====
section
/-! DEFINITION. The free parameters of the host side (00_scope.md R9): what a present callback does, and what it says of
itself. They stand apart from Sys2Proof/Config.lean because they mention the state's types. -/

namespace Sys2Proof.Config

/-- FREE VALUE. `HOST_CALLBACK` (60_exceptions.md R490, D24): what an invocation of slot `slot` does, given the ids of the
slots invoked before it (newest first) and the state the callback can observe. Nothing is known of it. Log 4. -/
opaque hostCallback : (before : List Nat) → (slot : Nat) → Machine.Snapshot → Machine.CallbackRun

/-- FREE VALUE. The `description()` string of a slot's callback (60_exceptions.md R491), shown only by `snapshot()`. Log 4. -/
opaque ioDescription : (slot : Nat) → String

end Sys2Proof.Config
end

