-- ==== Sys2Proof/Machine/Memory.lean ====
section
/-! DEFINITION. The memory controller (20_memory.md): one byte, byte ranges, cells of 1, 2 and 4 bytes, block copy and
block compare, and the canonical form that makes equal memories equal data. Range checks that raise a status stand in Ops.lean. -/

namespace Sys2Proof.Machine

/-- The access widths of 20_memory.md R90. -/
inductive Width where
  | byte
  | half
  | word
  deriving DecidableEq, Repr

/-- The number of bytes of a width. -/
def Width.bytes : Width → Nat
  | .byte => 1
  | .half => 2
  | .word => 4

/-- The byte at address `a`; an address that is not listed reads 0, the contents after construction (R80). -/
def Memory.byteAt (m : Memory) (a : Nat) : Byte := (m.cells.lookup a).getD 0#8

/-- Puts byte `b` at address `a` into a rising list, or takes the entry out where `b` is 0. -/
def insertCell (a : Nat) (b : Byte) : List Host.Cell → List Host.Cell
  | [] => if b = 0#8 then [] else [(a, b)]
  | (x, y) :: rest =>
    if a < x then (if b = 0#8 then (x, y) :: rest else (a, b) :: (x, y) :: rest)
    else if a = x then (if b = 0#8 then rest else (a, b) :: rest)
    else (x, y) :: insertCell a b rest

/-- Stores one byte. An address that does not exist stores nothing (R99); the callers raise before it comes to that. -/
def Memory.writeByte (m : Memory) (a : Nat) (b : Byte) : Memory :=
  if a < Config.memorySize then ⟨insertCell a b m.cells⟩ else m

/-- The `n` bytes from address `a` up. -/
def Memory.readRange (m : Memory) (a : Nat) : Nat → List Byte
  | 0 => []
  | n + 1 => m.byteAt a :: m.readRange (a + 1) n

/-- Stores bytes from address `a` up. -/
def Memory.writeRange (m : Memory) (a : Nat) : List Byte → Memory
  | [] => m
  | b :: rest => (m.writeByte a b).writeRange (a + 1) rest

/-- The byte range of start `a` and length `n` is in range: the sum is never wrapped (R85). -/
def inRange (a n : Nat) : Bool := decide (a + n ≤ Config.memorySize)

/-- The value `MemRead` gives for a range in range: the bytes at `a`, little-endian, the high bytes zero (R86). -/
def Memory.readCell (m : Memory) (a : Nat) : Width → Cell
  | .byte => ofBytes (m.byteAt a) 0#8 0#8 0#8
  | .half => ofBytes (m.byteAt a) (m.byteAt (a + 1)) 0#8 0#8
  | .word => ofBytes (m.byteAt a) (m.byteAt (a + 1)) (m.byteAt (a + 2)) (m.byteAt (a + 3))

/-- The bytes `MemWrite` stores: the low bytes of the cell, the least significant first (R87). -/
def lowBytes (v : Cell) : Width → List Byte
  | .byte => [byteOf v 0]
  | .half => [byteOf v 0, byteOf v 1]
  | .word => [byteOf v 0, byteOf v 1, byteOf v 2, byteOf v 3]

/-- The memory after `MemWrite` on a range in range (R87). -/
def Memory.writeCell (m : Memory) (a : Nat) (w : Width) (v : Cell) : Memory := m.writeRange a (lowBytes v w)

/-- `copy_block` on ranges in range: as if every source byte were read before any byte was written (R92, D11). -/
def Memory.copyBlock (m : Memory) (len dst orig : Nat) : Memory := m.writeRange dst (m.readRange orig len)

/-- `compare_block` on ranges in range: the two ranges hold the same bytes (R91, C3). -/
def Memory.equalBlocks (m : Memory) (len dst orig : Nat) : Bool := decide (m.readRange dst len = m.readRange orig len)

/-- A list of entries is canonical from address `lo` up: rising addresses that exist, no byte 0. -/
def canonicalFrom (lo : Nat) : List Host.Cell → Bool
  | [] => true
  | (a, b) :: rest => decide (lo ≤ a) && decide (a < Config.memorySize) && decide (b ≠ 0#8) && canonicalFrom (a + 1) rest

/-- The canonical form of memory: addresses strictly rising, every address below `MEMORY_SIZE`, no entry equal to what an
unlisted address reads as. -/
def Memory.wf (m : Memory) : Bool := canonicalFrom 0 m.cells

end Sys2Proof.Machine
end

