-- ==== Sys2Proof/Machine/HostInterface.lean ====
section
/-! DEFINITION. The operations the host performs on the block (00_scope.md R16), but for `construct` (State.lean) and for
`run`, whose entry is `startRun` in Ops.lean and whose loop body is the step. -/

namespace Sys2Proof.Machine

/-- The number of a status where an encoding is needed (60_exceptions.md R470, D4). -/
def statusCode : Status → Nat
  | .none => 0
  | .systemHalt => 1
  | .dataStackOverflow => 2
  | .dataStackUnderflow => 3
  | .addressStackOverflow => 4
  | .addressStackUnderflow => 5
  | .illegalRegisterId => 6
  | .illegalMemoryAddress => 7
  | .illegalInterruptId => 8
  | .divisionByZero => 9
  | .invalidFloatOperation => 10
  | .outOfMemory => 11

/-- The address lies in the host I/O window `[IO_BEGIN, IO_END)` (20_memory.md R93). -/
def inWindow (addr : Nat) : Bool := decide (Config.ioBegin ≤ addr) && decide (addr < Config.ioEnd)

/-- `load_program(bytes, n)`: copies the first `min(n, MEMORY_SIZE)` bytes to address 0 up and changes nothing else
(20_memory.md R95, C8). The host may call it only while `run()` is not executing. -/
def loadProgram (bytes : List Byte) (n : Nat) (s : State) : State :=
  s.setMemory (s.memory.writeRange 0 (bytes.take (min n Config.memorySize)))

/-- `io_read_byte(addr)`: the byte of the window, or IllegalMemoryAddress; no state changes (R96). -/
def ioReadByte (addr : Nat) (s : State) : Except Status Byte :=
  if inWindow addr then .ok (s.memory.byteAt addr) else .error .illegalMemoryAddress

/-- `io_write_byte(addr, b)`: the status it returns and the state it leaves (R97). -/
def ioWriteByte (addr : Nat) (b : Byte) (s : State) : Status × State :=
  if inWindow addr then (.none, s.setMemory (s.memory.writeByte addr b)) else (.illegalMemoryAddress, s)

/-- `snapshot()`: a copy of the whole state; nothing changes (60_exceptions.md R505). -/
def snapshot (s : State) : Snapshot where
  memory := s.memory
  interruptTable := s.interruptTable
  ioDescriptions := (s.ioTable.toList.zipIdx).map fun slot => if slot.1 then some (Config.ioDescription slot.2) else none
  cores := s.cores
  curCoreId := s.curCoreId
  intEnabled := s.intEnabled

/-- The state one host operation of a callback leaves, or `Undefined(IllegalHostCall)` (60_exceptions.md R490). -/
def callbackStep (call : HostCall) (s : State) : Except Stop State :=
  match call with
  | .ioReadByte _ => .ok s
  | .ioWriteByte addr b => .ok (ioWriteByte addr b s).2
  | .snapshot => .ok s
  | .run => .error (.undefined (.illegalHostCall call))
  | .loadProgram _ _ => .error (.undefined (.illegalHostCall call))
  | .construct _ => .error (.undefined (.illegalHostCall call))

/-- The state a sequence of host operations leaves (60_exceptions.md R490). -/
def callbackSteps : List HostCall → State → Except Stop State
  | [], s => .ok s
  | call :: rest, s =>
    match callbackStep call s with
    | .ok s' => callbackSteps rest s'
    | .error e => .error e

/-- What a callback that behaves as `run` leaves: the state after its operations, or a machine stuck for good (R490). -/
def callbackResult (run : CallbackRun) (s : State) : Except Stop State :=
  match run with
  | .returns calls => callbackSteps calls s
  | .neverReturns => .error (.stuck .callbackNeverReturns)

/-- `invoke_callback(id)` (60_exceptions.md R489): the callback observes the state `s` as II left it after its pop, and
the writes it makes stay. -/
def invokeCallback (id : Nat) (s : State) : Except Stop State :=
  callbackResult (Config.hostCallback s.callbackLog id (snapshot s)) (s.logCallback id)

end Sys2Proof.Machine
end

