-- ==== Sys2Proof/Machine/Ops.lean ====
section
/-! DEFINITION. The named operations every handler is written in (00_scope.md R12): the transaction (R13), the executing core, the
guard and the stacks (10_state.md R45, R49, 41_engine.md R230), memory accesses with their range checks (20_memory.md R85 to R92),
the ends of a handler (41_engine.md R236 to R238), the one trap (60_exceptions.md R471) and the run after it (R474). -/

namespace Sys2Proof.Machine

/-- A handler's pseudocode: it reads the state as its earlier statements left it, and an error discards every write it made,
because the state is not part of an error (00_scope.md R13). -/
abbrev Handler (α : Type) := StateT State (Except Stop) α

/-- The block's one trap (60_exceptions.md R471): the state stays exactly as it was before the instruction, IP and modes included
(41_engine.md R241), and `run()` ends with the status on its output. There is no vector and no saved register. -/
def takeStatus (st : Status) (s : State) : State := s.setStatus st

/-- The host's `run()` after a status was returned (60_exceptions.md R474, 41_engine.md R225): `cur_core_id` becomes CORE_COUNT - 1
and ticks follow again; every core keeps its state, so the core that stopped resumes at its IP. -/
def startRun (s : State) : State := (s.select (s.cores.length - 1)).setStatus .none

/-- Runs a handler as one transaction (00_scope.md R13): all its writes, or the trap with none of them, or no next state. -/
def transact (h : Handler Unit) (s : State) : Host.Outcome State Fault Refusal :=
  match h s with
  | .ok (_, s') => .next s'
  | .error (.raise st) => .next (takeStatus st s)
  | .error (.undefined r) => .refused r
  | .error (.stuck f) => .fault f

/-- `raise S` (00_scope.md R13). -/
def raise {α : Type} (st : Status) : Handler α := fun _ => .error (.raise st)

/-- `Undefined(reason)` (00_scope.md R14). -/
def undefinedStop {α : Type} (r : Refusal) : Handler α := fun _ => .error (.undefined r)

/-- The result of an ALU function, its status raised. -/
def orRaise {α : Type} (x : Except Status α) : Handler α := fun s =>
  match x with
  | .ok a => .ok (a, s)
  | .error st => .error (.raise st)

/-- Applies a change of the whole state. -/
def update (f : State → State) : Handler Unit := fun s => .ok ((), f s)

/-- `C`, the executing core (41_engine.md R221). -/
def getCore : Handler CoreState := fun s =>
  match s.current? with
  | some c => .ok (c, s)
  | none => .error (.stuck .noCurrentCore)

/-- Writes the executing core. -/
def setCurrentCore (c : CoreState) : Handler Unit := update (·.setCurrent c)

/-- `Guard(p, q)`: the pushes are counted without removing the pops first (41_engine.md R230). -/
def guardStack (p q : Nat) : Handler Unit := do
  let c ← getCore
  if c.data.length < p then raise .dataStackUnderflow
  else if c.data.length + q > Config.dataStackSize then raise .dataStackOverflow
  else pure ()

/-- `Pop()` (10_state.md R45). -/
def pop : Handler Cell := do
  let c ← getCore
  match c.data with
  | v :: rest => do
    setCurrentCore { c with data := rest }
    pure v
  | [] => undefinedStop .unguardedStack

/-- `Push(v)` (10_state.md R45). -/
def push (v : Cell) : Handler Unit := do
  let c ← getCore
  if c.data.length < Config.dataStackSize then setCurrentCore { c with data := v :: c.data }
  else undefinedStop .unguardedStack

/-- `APush(v)` (10_state.md R49). -/
def apush (v : Cell) : Handler Unit := do
  let c ← getCore
  if c.addrs.length ≥ Config.addressStackSize then raise .addressStackOverflow
  else setCurrentCore { c with addrs := v :: c.addrs }

/-- `APop()` (10_state.md R49). -/
def apop : Handler Cell := do
  let c ← getCore
  match c.addrs with
  | v :: rest => do
    setCurrentCore { c with addrs := rest }
    pure v
  | [] => raise .addressStackUnderflow

/-- The range check of every memory access but the opcode fetch (20_memory.md R85). -/
def checkRange (addr len : Nat) : Handler Unit :=
  if inRange addr len then pure () else raise .illegalMemoryAddress

/-- `MemRead(addr, n)` (20_memory.md R86). -/
def memRead (addr : Nat) (w : Width) : Handler Cell := do
  checkRange addr w.bytes
  fun s => .ok (s.memory.readCell addr w, s)

/-- `MemWrite(addr, n, v)` (20_memory.md R87). -/
def memWrite (addr : Nat) (w : Width) (v : Cell) : Handler Unit := do
  checkRange addr w.bytes
  update fun s => s.setMemory (s.memory.writeCell addr w v)

/-- An immediate of LW, LH or LB: `MemRead` at `offset` from the opcode (42_literal_memory.md R261 to R263). The decoder has read
its bytes; what is left is the range check, after the guard (log 7). -/
def immediate (offset len : Nat) (value : Cell) : Handler Cell := do
  let c ← getCore
  checkRange (toU32 c.ip + offset) len
  pure value

/-- `copy_block(len, dst, orig)` (20_memory.md R92). -/
def copyBlock (len dst orig : Nat) : Handler Unit := do
  checkRange dst len
  checkRange orig len
  update fun s => s.setMemory (s.memory.copyBlock len dst orig)

/-- `compare_block(len, dst, orig)` (20_memory.md R91). -/
def compareBlock (len dst orig : Nat) : Handler Cell := do
  checkRange dst len
  checkRange orig len
  fun s => .ok (cellBool (s.memory.equalBlocks len dst orig), s)

/-- A register's value, IllegalRegisterId for an id of 24 or more (10_state.md R50). -/
def readRegister (id : Nat) : Handler Cell := do
  let c ← getCore
  match c.regs[id]? with
  | some v => pure v
  | none => raise .illegalRegisterId

/-- Writes a register, IllegalRegisterId for an id of 24 or more (10_state.md R50). -/
def writeRegister (id : Nat) (v : Cell) : Handler Unit := do
  let c ← getCore
  if id < Config.registerBankSize then setCurrentCore { c with regs := c.regs.setIfInBounds id v }
  else raise .illegalRegisterId

/-- `cores[id]`, `Undefined(IllegalCoreId)` for an id of CORE_COUNT or more (48_core_control.md R421 to R423). -/
def coreAt (id : Nat) : Handler CoreState := fun s =>
  match s.cores[id]? with
  | some c => .ok (c, s)
  | none => .error (.undefined (.illegalCoreId id))

/-- Reads the shared interrupt-enable bit (10_state.md R33). -/
def getIntEnabled : Handler Bool := fun s => .ok (s.intEnabled, s)

/-- `interrupt(id)` is a placeholder without effect (60_exceptions.md R480). -/
def interrupt (_id : Nat) : Handler Unit := pure ()

/-- The call II makes: the callback of slot `id`, if the slot exists and is present, else nothing (47_interrupt_io.md R404). -/
def callSlot (id : Nat) : Handler Unit := fun s =>
  if s.ioTable[id]? = some true then
    match invokeCallback id s with
    | .ok s' => .ok ((), s')
    | .error e => .error e
  else .ok ((), s)

/-- What the mode epilogue asks of an opcode (41_engine.md R238). -/
inductive OpcodeClass where
  /-- UU and FF, which keep `op_mode` as the handler set it. -/
  | modeSetter
  /-- CA, CC, JU and CJ, which reset `addr_mode` too. -/
  | addressed
  /-- Every other opcode. -/
  | ordinary
  deriving DecidableEq, Repr

/-- `ModeEpilogue()` (41_engine.md R238). -/
def modeEpilogue (op : OpcodeClass) (c : CoreState) : CoreState :=
  match op with
  | .modeSetter => c
  | .addressed => { c with opMode := .signed, addrMode := .direct }
  | .ordinary => { c with opMode := .signed }

/-- `Finish(len)`: IP advances modulo 2^32, then the epilogue (41_engine.md R236, 10_state.md R40). It acts on the core as the
handler left it (R239). -/
def finish (op : OpcodeClass) (len : Nat) : Handler Unit := do
  let c ← getCore
  setCurrentCore (modeEpilogue op { c with ip := cellU32 (toU32 c.ip + len) })

/-- `FinishJump(target)`: the target is not checked (41_engine.md R237). -/
def finishJump (op : OpcodeClass) (target : Cell) : Handler Unit := do
  let c ← getCore
  setCurrentCore (modeEpilogue op { c with ip := target })

end Sys2Proof.Machine
end

