-- ==== Sys2Proof/Machine/BitwisePack.lean ====
section
/-! DEFINITION. The meanings of 45_bitwise_pack.md: AN, OR, XO, NT, SL, SR, PA and UN. -/

namespace Sys2Proof.Machine

/-- AN: bitwise and (R340). -/
def execAn (s : State) : Host.Outcome State Fault Refusal :=
  transact (do
    guardStack 2 1
    let r ← pop
    let l ← pop
    push (bitwiseAnd l r)
    finish .ordinary 1) s

/-- OR: bitwise or (R341). -/
def execOr (s : State) : Host.Outcome State Fault Refusal :=
  transact (do
    guardStack 2 1
    let r ← pop
    let l ← pop
    push (bitwiseOr l r)
    finish .ordinary 1) s

/-- XO: bitwise exclusive or (R342). -/
def execXo (s : State) : Host.Outcome State Fault Refusal :=
  transact (do
    guardStack 2 1
    let r ← pop
    let l ← pop
    push (bitwiseXor l r)
    finish .ordinary 1) s

/-- NT: bitwise complement; its guard counts the push (R343). -/
def execNt (s : State) : Host.Outcome State Fault Refusal :=
  transact (do
    guardStack 1 1
    let v ← pop
    push (bitwiseNot v)
    finish .ordinary 1) s

/-- SL: shifts `l` left by `r` modulo 32; InvalidFloatOperation in FLOAT mode (R344). -/
def execSl (s : State) : Host.Outcome State Fault Refusal :=
  transact (do
    guardStack 2 1
    let r ← pop
    let l ← pop
    let c ← getCore
    let v ← orRaise (shiftLeft l r c.opMode)
    push v
    finish .ordinary 1) s

/-- SR: shifts `l` right by `r` modulo 32, arithmetic or logical by the mode; InvalidFloatOperation in FLOAT mode (R345). -/
def execSr (s : State) : Host.Outcome State Fault Refusal :=
  transact (do
    guardStack 2 1
    let r ← pop
    let l ← pop
    let c ← getCore
    let v ← orRaise (shiftRight l r c.opMode)
    push v
    finish .ordinary 1) s

/-- PA: packs the low bytes of four cells, the last popped most significant (R346). -/
def execPa (s : State) : Host.Outcome State Fault Refusal :=
  transact (do
    guardStack 4 1
    let d ← pop
    let c ← pop
    let b ← pop
    let a ← pop
    push (pack a b c d)
    finish .ordinary 1) s

/-- UN: pushes the four bytes of a cell, byte 3 first, so byte 0 ends on top (R347). -/
def execUn (s : State) : Host.Outcome State Fault Refusal :=
  transact (do
    guardStack 1 4
    let v ← pop
    push (unpackByte v 3)
    push (unpackByte v 2)
    push (unpackByte v 1)
    push (unpackByte v 0)
    finish .ordinary 1) s

end Sys2Proof.Machine
end

