-- ==== Sys2Proof/Machine/CompareArith.lean ====
section
/-! DEFINITION. The meanings of 44_compare_arith.md: EQ, NE, LT, GT, AD, SU, MU, DM and MD. `r` is popped first, then `l`. -/

namespace Sys2Proof.Machine

/-- EQ: true iff the two cells hold the same bits; the mode is not read (R310). -/
def execEq (s : State) : Host.Outcome State Fault Refusal :=
  transact (do
    guardStack 2 1
    let r ← pop
    let l ← pop
    push (equal l r)
    finish .ordinary 1) s

/-- NE: true iff the two cells differ in a bit; the mode is not read (R311). -/
def execNe (s : State) : Host.Outcome State Fault Refusal :=
  transact (do
    guardStack 2 1
    let r ← pop
    let l ← pop
    push (notEqual l r)
    finish .ordinary 1) s

/-- LT: `l < r` under the operation mode (R312). -/
def execLt (s : State) : Host.Outcome State Fault Refusal :=
  transact (do
    guardStack 2 1
    let r ← pop
    let l ← pop
    let c ← getCore
    push (lessThan l r c.opMode)
    finish .ordinary 1) s

/-- GT: `l > r` under the operation mode (R313). -/
def execGt (s : State) : Host.Outcome State Fault Refusal :=
  transact (do
    guardStack 2 1
    let r ← pop
    let l ← pop
    let c ← getCore
    push (greaterThan l r c.opMode)
    finish .ordinary 1) s

/-- AD: `l + r` under the operation mode (R314). -/
def execAd (s : State) : Host.Outcome State Fault Refusal :=
  transact (do
    guardStack 2 1
    let r ← pop
    let l ← pop
    let c ← getCore
    push (add l r c.opMode)
    finish .ordinary 1) s

/-- SU: `l - r` under the operation mode (R315). -/
def execSu (s : State) : Host.Outcome State Fault Refusal :=
  transact (do
    guardStack 2 1
    let r ← pop
    let l ← pop
    let c ← getCore
    push (subtract l r c.opMode)
    finish .ordinary 1) s

/-- MU: `l * r` under the operation mode (R316). -/
def execMu (s : State) : Host.Outcome State Fault Refusal :=
  transact (do
    guardStack 2 1
    let r ← pop
    let l ← pop
    let c ← getCore
    push (multiply l r c.opMode)
    finish .ordinary 1) s

/-- DM: divides `l` by `r` and pushes the modulo, then the quotient; DivisionByZero changes nothing (R317). -/
def execDm (s : State) : Host.Outcome State Fault Refusal :=
  transact (do
    guardStack 2 2
    let r ← pop
    let l ← pop
    let c ← getCore
    let (mo, q) ← orRaise (divideRemainder l r c.opMode)
    push mo
    push q
    finish .ordinary 1) s

/-- MD: divides the 32-bit product `l * m` by `r` and pushes the modulo, then the quotient (R318). -/
def execMd (s : State) : Host.Outcome State Fault Refusal :=
  transact (do
    guardStack 3 2
    let r ← pop
    let m ← pop
    let l ← pop
    let c ← getCore
    let (mo, q) ← orRaise (multiplyDivideRemainder l m r c.opMode)
    push mo
    push q
    finish .ordinary 1) s

end Sys2Proof.Machine
end

