-- ==== Sys2Proof/Machine/Control.lean ====
section
/-! DEFINITION. The meanings of 46_control.md: RL, the calls CA and CC, the jumps JU and CJ, the returns RE and CR. -/

namespace Sys2Proof.Machine

/-- RL: the next CA, CC, JU or CJ of this core is relative (R370). -/
def execRl (s : State) : Host.Outcome State Fault Refusal :=
  transact (do
    let c ← getCore
    setCurrentCore { c with addrMode := .relative }
    finish .ordinary 1) s

/-- CA: pushes the return address and jumps (R371). -/
def execCa (s : State) : Host.Outcome State Fault Refusal :=
  transact (do
    guardStack 1 0
    let t ← pop
    let c ← getCore
    apush (returnAddress c)
    finishJump .addressed (jumpTarget c t)) s

/-- CC: calls if the condition is true, else advances by 1, resetting the address mode on both paths (R372, C2). -/
def execCc (s : State) : Host.Outcome State Fault Refusal :=
  transact (do
    guardStack 2 0
    let t ← pop
    let c ← pop
    let core ← getCore
    if cellToBool c then
      apush (returnAddress core)
      finishJump .addressed (jumpTarget core t)
    else
      finish .addressed 1) s

/-- JU: jumps (R373). -/
def execJu (s : State) : Host.Outcome State Fault Refusal :=
  transact (do
    guardStack 1 0
    let t ← pop
    let c ← getCore
    finishJump .addressed (jumpTarget c t)) s

/-- CJ: jumps if the condition is true, else advances by 4 (R374). -/
def execCj (s : State) : Host.Outcome State Fault Refusal :=
  transact (do
    guardStack 2 0
    let t ← pop
    let c ← pop
    let core ← getCore
    if cellToBool c then
      finishJump .addressed (jumpTarget core t)
    else
      finish .addressed 4) s

/-- RE: jumps to the top of the address stack, absolute in either address mode (R375). -/
def execRe (s : State) : Host.Outcome State Fault Refusal :=
  transact (do
    let v ← apop
    finishJump .ordinary v) s

/-- CR: returns if the condition is true, else advances by 4 without reading the address stack (R376). -/
def execCr (s : State) : Host.Outcome State Fault Refusal :=
  transact (do
    guardStack 1 0
    let c ← pop
    if cellToBool c then
      let v ← apop
      finishJump .ordinary v
    else
      finish .ordinary 4) s

end Sys2Proof.Machine
end

