-- ==== Sys2Proof/Machine/CoreControl.lean ====
section
/-! DEFINITION. The meanings of 48_core_control.md: HS, IC, AC, PC and SC. -/

namespace Sys2Proof.Machine

/-- HS: ends the run with SystemHalt; IP and modes stay (R420). -/
def execHs (s : State) : Host.Outcome State Fault Refusal :=
  transact (do
    raise .systemHalt) s

/-- IC: re-initialises core `id` with IP at `addr`, inactive; the executing core's own id included (R421, R239). -/
def execIc (s : State) : Host.Outcome State Fault Refusal :=
  transact (do
    guardStack 2 0
    let id ← pop
    let addr ← pop
    let _ ← coreAt (toU32 id)
    update fun s => s.setCore (toU32 id) (CoreState.default addr)
    finish .ordinary 1) s

/-- AC: marks core `id` active (R422). -/
def execAc (s : State) : Host.Outcome State Fault Refusal :=
  transact (do
    guardStack 1 0
    let id ← pop
    let c ← coreAt (toU32 id)
    update fun s => s.setCore (toU32 id) { c with active := true }
    finish .ordinary 1) s

/-- PC: marks core `id` inactive (R423). -/
def execPc (s : State) : Host.Outcome State Fault Refusal :=
  transact (do
    guardStack 1 0
    let id ← pop
    let c ← coreAt (toU32 id)
    update fun s => s.setCore (toU32 id) { c with active := false }
    finish .ordinary 1) s

/-- SC: marks the executing core inactive; IP still advances (R424). -/
def execSc (s : State) : Host.Outcome State Fault Refusal :=
  transact (do
    let c ← getCore
    setCurrentCore { c with active := false }
    finish .ordinary 1) s

end Sys2Proof.Machine
end

