-- ==== Sys2Proof/Machine/InterruptIo.lean ====
section
/-! DEFINITION. The meanings of 47_interrupt_io.md: SV, HI, SI, TI and II. -/

namespace Sys2Proof.Machine

/-- SV: stores a handler address in the interrupt table; IllegalInterruptId for an id of 128 or more (R400). -/
def execSv (s : State) : Host.Outcome State Fault Refusal :=
  transact (do
    guardStack 2 0
    let id ← pop
    let addr ← pop
    if toU32 id ≥ Config.interruptTableSize then raise .illegalInterruptId
    else
      update fun s => s.setTable (s.interruptTable.setIfInBounds (toU32 id) addr)
      finish .ordinary 1) s

/-- HI: clears the shared interrupt-enable bit (R401). -/
def execHi (s : State) : Host.Outcome State Fault Refusal :=
  transact (do
    update fun s => s.setIntEnabled false
    finish .ordinary 1) s

/-- SI: sets the shared interrupt-enable bit (R402). -/
def execSi (s : State) : Host.Outcome State Fault Refusal :=
  transact (do
    update fun s => s.setIntEnabled true
    finish .ordinary 1) s

/-- TI: pops an id; the interrupt it would trigger is a placeholder without effect, and the id is not checked (R403). -/
def execTi (s : State) : Host.Outcome State Fault Refusal :=
  transact (do
    guardStack 1 0
    let id ← pop
    let enabled ← getIntEnabled
    if enabled then interrupt (toU32 id)
    finish .ordinary 1) s

/-- II: pops a slot id and calls the slot's callback, if there is one, before IP advances (R404). -/
def execIi (s : State) : Host.Outcome State Fault Refusal :=
  transact (do
    guardStack 1 0
    let id ← pop
    callSlot (toU32 id)
    finish .ordinary 1) s

end Sys2Proof.Machine
end

