-- ==== Sys2Proof/Machine/LiteralMemory.lean ====
section
/-! DEFINITION. The meanings of 42_literal_memory.md: NO, the literals LW, LH, LB, the loads FW, FH, FB and the stores SW, SH, SB. -/

namespace Sys2Proof.Machine

/-- NO: only IP advances, and a pending UU or FF is consumed (R260). -/
def execNo (s : State) : Host.Outcome State Fault Refusal :=
  transact (do
    finish .ordinary 1) s

/-- LW: pushes the word four bytes after the opcode; the pad bytes are not read (R261). -/
def execLw (imm : BitVec 32) (s : State) : Host.Outcome State Fault Refusal :=
  transact (do
    guardStack 0 1
    let v ← immediate 4 4 imm
    push v
    finish .ordinary 8) s

/-- LH: pushes the zero-extended half after the opcode (R262). -/
def execLh (imm : BitVec 16) (s : State) : Host.Outcome State Fault Refusal :=
  transact (do
    guardStack 0 1
    let v ← immediate 1 2 (imm.setWidth 32)
    push v
    finish .ordinary 3) s

/-- LB: pushes the zero-extended byte after the opcode (R263). -/
def execLb (imm : BitVec 8) (s : State) : Host.Outcome State Fault Refusal :=
  transact (do
    guardStack 0 1
    let v ← immediate 1 1 (imm.setWidth 32)
    push v
    finish .ordinary 2) s

/-- FW: pops an address and pushes the word there (R264). -/
def execFw (s : State) : Host.Outcome State Fault Refusal :=
  transact (do
    guardStack 1 1
    let a ← pop
    let v ← memRead (toU32 a) .word
    push v
    finish .ordinary 1) s

/-- FH: pops an address and pushes the zero-extended half there (R265). -/
def execFh (s : State) : Host.Outcome State Fault Refusal :=
  transact (do
    guardStack 1 1
    let a ← pop
    let v ← memRead (toU32 a) .half
    push v
    finish .ordinary 1) s

/-- FB: pops an address and pushes the zero-extended byte there (R266). -/
def execFb (s : State) : Host.Outcome State Fault Refusal :=
  transact (do
    guardStack 1 1
    let a ← pop
    let v ← memRead (toU32 a) .byte
    push v
    finish .ordinary 1) s

/-- SW: pops an address, then a value, and stores its four bytes (R267). -/
def execSw (s : State) : Host.Outcome State Fault Refusal :=
  transact (do
    guardStack 2 0
    let a ← pop
    let v ← pop
    memWrite (toU32 a) .word v
    finish .ordinary 1) s

/-- SH: pops an address, then a value, and stores its low two bytes (R268). -/
def execSh (s : State) : Host.Outcome State Fault Refusal :=
  transact (do
    guardStack 2 0
    let a ← pop
    let v ← pop
    memWrite (toU32 a) .half v
    finish .ordinary 1) s

/-- SB: pops an address, then a value, and stores its low byte, one byte only (R269, C5). -/
def execSb (s : State) : Host.Outcome State Fault Refusal :=
  transact (do
    guardStack 2 0
    let a ← pop
    let v ← pop
    memWrite (toU32 a) .byte v
    finish .ordinary 1) s

end Sys2Proof.Machine
end

