-- ==== Sys2Proof/Machine/RegisterBlockMode.lean ====
section
/-! DEFINITION. The meanings of 49_register_block_mode.md: RR, WR, CP, BC, UU and FF. -/

namespace Sys2Proof.Machine

/-- RR: pops a register id and pushes that register (R440). -/
def execRr (s : State) : Host.Outcome State Fault Refusal :=
  transact (do
    guardStack 1 1
    let id ← pop
    let v ← readRegister (toU32 id)
    push v
    finish .ordinary 1) s

/-- WR: pops a register id, then a value, and writes the register (R441). -/
def execWr (s : State) : Host.Outcome State Fault Refusal :=
  transact (do
    guardStack 2 0
    let id ← pop
    let v ← pop
    writeRegister (toU32 id) v
    finish .ordinary 1) s

/-- CP: pops a length, a destination and an origin and copies the block (R442). -/
def execCp (s : State) : Host.Outcome State Fault Refusal :=
  transact (do
    guardStack 3 0
    let len ← pop
    let dst ← pop
    let orig ← pop
    copyBlock (toU32 len) (toU32 dst) (toU32 orig)
    finish .ordinary 1) s

/-- BC: pops a length, a destination and an origin and pushes whether the blocks are equal (R443). -/
def execBc (s : State) : Host.Outcome State Fault Refusal :=
  transact (do
    guardStack 3 1
    let len ← pop
    let dst ← pop
    let orig ← pop
    let r ← compareBlock (toU32 len) (toU32 dst) (toU32 orig)
    push r
    finish .ordinary 1) s

/-- UU: UNSIGNED mode for the next instruction of this core (R444). -/
def execUu (s : State) : Host.Outcome State Fault Refusal :=
  transact (do
    let c ← getCore
    setCurrentCore { c with opMode := .unsigned }
    finish .modeSetter 1) s

/-- FF: FLOAT mode for the next instruction of this core (R445). -/
def execFf (s : State) : Host.Outcome State Fault Refusal :=
  transact (do
    let c ← getCore
    setCurrentCore { c with opMode := .float }
    finish .modeSetter 1) s

end Sys2Proof.Machine
end

