-- ==== Sys2Proof/Machine/Stack.lean ====
section
/-! DEFINITION. The meanings of 43_stack.md: DU, DR, SP, PU and PO. -/

namespace Sys2Proof.Machine

/-- DU: duplicates the top cell; its guard counts two pushes (R290). -/
def execDu (s : State) : Host.Outcome State Fault Refusal :=
  transact (do
    guardStack 1 2
    let v ← pop
    push v
    push v
    finish .ordinary 1) s

/-- DR: discards the top cell (R291). -/
def execDr (s : State) : Host.Outcome State Fault Refusal :=
  transact (do
    guardStack 1 0
    let _ ← pop
    finish .ordinary 1) s

/-- SP: exchanges the top two cells (R292). -/
def execSp (s : State) : Host.Outcome State Fault Refusal :=
  transact (do
    guardStack 2 2
    let y ← pop
    let x ← pop
    push y
    push x
    finish .ordinary 1) s

/-- PU: moves the top cell to the address stack (R293). -/
def execPu (s : State) : Host.Outcome State Fault Refusal :=
  transact (do
    guardStack 1 0
    let v ← pop
    apush v
    finish .ordinary 1) s

/-- PO: moves the top of the address stack to the data stack; the guard comes first (R294). -/
def execPo (s : State) : Host.Outcome State Fault Refusal :=
  transact (do
    guardStack 0 1
    let v ← apop
    push v
    finish .ordinary 1) s

end Sys2Proof.Machine
end

