-- ==== Sys2Proof/Machine/Dispatch.lean ====
section
/-! DEFINITION. Dispatch through the 55-entry table (41_engine.md R224): one arm per instruction. -/

namespace Sys2Proof.Machine

def exec (i : Instr) (s : State) : Host.Outcome State Fault Refusal :=
  match i with
  | .no => Sys2Proof.Machine.execNo s
  | .lw imm => Sys2Proof.Machine.execLw imm s
  | .lh imm => Sys2Proof.Machine.execLh imm s
  | .lb imm => Sys2Proof.Machine.execLb imm s
  | .fw => Sys2Proof.Machine.execFw s
  | .fh => Sys2Proof.Machine.execFh s
  | .fb => Sys2Proof.Machine.execFb s
  | .sw => Sys2Proof.Machine.execSw s
  | .sh => Sys2Proof.Machine.execSh s
  | .sb => Sys2Proof.Machine.execSb s
  | .du => Sys2Proof.Machine.execDu s
  | .dr => Sys2Proof.Machine.execDr s
  | .sp => Sys2Proof.Machine.execSp s
  | .pu => Sys2Proof.Machine.execPu s
  | .po => Sys2Proof.Machine.execPo s
  | .eq => Sys2Proof.Machine.execEq s
  | .ne => Sys2Proof.Machine.execNe s
  | .lt => Sys2Proof.Machine.execLt s
  | .gt => Sys2Proof.Machine.execGt s
  | .ad => Sys2Proof.Machine.execAd s
  | .su => Sys2Proof.Machine.execSu s
  | .mu => Sys2Proof.Machine.execMu s
  | .dm => Sys2Proof.Machine.execDm s
  | .md => Sys2Proof.Machine.execMd s
  | .an => Sys2Proof.Machine.execAn s
  | .or => Sys2Proof.Machine.execOr s
  | .xo => Sys2Proof.Machine.execXo s
  | .nt => Sys2Proof.Machine.execNt s
  | .sl => Sys2Proof.Machine.execSl s
  | .sr => Sys2Proof.Machine.execSr s
  | .pa => Sys2Proof.Machine.execPa s
  | .un => Sys2Proof.Machine.execUn s
  | .rl => Sys2Proof.Machine.execRl s
  | .ca => Sys2Proof.Machine.execCa s
  | .cc => Sys2Proof.Machine.execCc s
  | .ju => Sys2Proof.Machine.execJu s
  | .cj => Sys2Proof.Machine.execCj s
  | .re => Sys2Proof.Machine.execRe s
  | .cr => Sys2Proof.Machine.execCr s
  | .sv => Sys2Proof.Machine.execSv s
  | .hi => Sys2Proof.Machine.execHi s
  | .si => Sys2Proof.Machine.execSi s
  | .ti => Sys2Proof.Machine.execTi s
  | .ii => Sys2Proof.Machine.execIi s
  | .hs => Sys2Proof.Machine.execHs s
  | .ic => Sys2Proof.Machine.execIc s
  | .ac => Sys2Proof.Machine.execAc s
  | .pc => Sys2Proof.Machine.execPc s
  | .sc => Sys2Proof.Machine.execSc s
  | .rr => Sys2Proof.Machine.execRr s
  | .wr => Sys2Proof.Machine.execWr s
  | .cp => Sys2Proof.Machine.execCp s
  | .bc => Sys2Proof.Machine.execBc s
  | .uu => Sys2Proof.Machine.execUu s
  | .ff => Sys2Proof.Machine.execFf s

end Sys2Proof.Machine
end

