-- ==== Sys2Proof/Machine/Fetch.lean ====
section
/-! DEFINITION. The scheduler's choice (41_engine.md R222), the opcode fetch (20_memory.md R89) and the bytes handed to the
decoder (30_encoding.md R122). -/

namespace Sys2Proof.Machine

/-- Core `id` exists and is active. -/
def isActive (s : State) (id : Nat) : Bool :=
  match s.cores[id]? with
  | some c => c.active
  | none => false

/-- The ids the scan visits, in order: from the one after the current core around to the current core itself (R222). -/
def scanOrder (s : State) : List Nat :=
  (List.range s.cores.length).map fun k => (s.curCoreId + k + 1) % s.cores.length

/-- The id `sel_next_core()` leaves in `cur_core_id`: the first active core of the scan, or no change (R222). -/
def nextCoreId (s : State) : Nat := ((scanOrder s).find? (isActive s)).getD s.curCoreId

/-- The state after `sel_next_core()`. -/
def selectNextCore (s : State) : State := s.select (nextCoreId s)

/-- `fetch_opcode(addr)`: the byte, or SystemHalt at or above `MEMORY_SIZE` (20_memory.md R89). -/
def fetchOpcode (m : Memory) (addr : Nat) : Except Status Byte :=
  if addr ≥ Config.memorySize then .error .systemHalt else .ok (m.byteAt addr)

/-- The opcode byte at `addr` and the seven bytes after it, as many as the longest instruction has. A byte beyond memory stands
in for an immediate byte that does not exist and reads 0; LW, LH and LB raise before they use it (log 7). -/
def fetchBytes (m : Memory) (addr : Nat) : List Byte := m.readRange addr maxLength

/-- The address from which `State.withFetchWord` makes the selected core fetch: where it stands, if the longest instruction
fits there, else 0. -/
def fetchHome (ip : Cell) : Cell := if toU32 ip + maxLength ≤ Config.memorySize then ip else 0#32

end Sys2Proof.Machine
end

