-- ==== Sys2Proof/Machine/Step.lean ====
section
/-! DEFINITION. One tick (41_engine.md R220 to R225), and the state in which the next tick runs a given instruction. -/

namespace Sys2Proof.Machine

/-- A tick of the core that the scheduler has selected: fetch, decode, execute (R223, R224). -/
def tick (s : State) : Host.Outcome State Fault Refusal :=
  match s.current? with
  | none => .fault .noCurrentCore
  | some c =>
    match fetchOpcode s.memory (toU32 c.ip) with
    | .error st => .next (takeStatus st s)
    | .ok _ =>
      match decode (fetchBytes s.memory (toU32 c.ip)) with
      | .ok (i, _) => exec i s
      | .error e => .refused (.undecodable e)

/-- One pass through the loop of `run()` (R225): select a core and tick. Once a status other than None has been returned "no
later tick runs" until the host acts (60_exceptions.md R471, R474), and the state stays as it is. Log 1. -/
def step (s : State) : Host.Outcome State Fault Refusal :=
  match s.status with
  | .none => tick (selectNextCore s)
  | _ => .next s

/-- `s` with the instruction of `nbits` bits `w` stored where the core that the next tick selects fetches, and with a run in
progress. The core's IP moves to 0 only where an instruction of the longest length would not fit. Log 8. -/
def State.withFetchWord (s : State) (nbits w : Nat) : State :=
  match (selectNextCore s).current? with
  | none => s
  | some c =>
    ((s.setMemory (s.memory.writeRange (toU32 (fetchHome c.ip)) (tableBytes nbits w))).setCore (nextCoreId s)
      { c with ip := fetchHome c.ip }).setStatus .none

end Sys2Proof.Machine
end

