-- ==== Sys2Proof/WellFormed.lean ====
section
/-! DEFINITION. Well-formedness. An immediate has exactly the width its encoding gives it, so every term of `Instr` is
an instruction. What is left to check is WHERE it stands: all its bytes lie inside memory (20_memory.md R85, 30_encoding.md R122). -/

namespace Sys2Proof

/-- The instruction placed at address `ip` lies wholly inside memory: `ip + length <= MEMORY_SIZE` (R85, R122). LW, LH and
LB raise IllegalMemoryAddress where this fails (42_literal_memory.md R261 to R263). -/
def Instr.fitsAt (i : Instr) (ip : Cell) : Bool := decide (ip.toNat + i.length ≤ Config.memorySize)

end Sys2Proof
end

