-- ==== Sys2Proof/Safety.lean ====
section
/-! DEFINITION. What a legal state is, and the tables of the spec that claims are stated with: the guard counts of every instruction
(41_engine.md R231) and the statuses each may raise (60_exceptions.md R470). No definition of the machine uses this file. -/

namespace Sys2Proof.Machine

/-- The stacks of a core are within their capacities (10_state.md R44, R47). -/
abbrev CoreState.Legal (c : CoreState) : Prop :=
  c.data.length ≤ Config.dataStackSize ∧ c.addrs.length ≤ Config.addressStackSize

/-- The states the spec allows: CORE_COUNT is 2 or 8 (00_scope.md R7), `cur_core_id` is a core's id (10_state.md R36), every stack is
within its capacity, and memory is in its canonical form. -/
abbrev State.Legal (s : State) : Prop :=
  (s.cores.length = 2 ∨ s.cores.length = 8) ∧ s.curCoreId < s.cores.length ∧
  (∀ c ∈ s.cores, c.Legal) ∧ s.memory.wf = true

/-- Core `id` is active, as the scheduler reads it (10_state.md R41). -/
abbrev State.coreActive (s : State) (id : Nat) : Prop := ∃ c, s.cores[id]? = some c ∧ c.active = true

/-- The pops and pushes of each instruction as the table of 41_engine.md R231 lists them. -/
def guardCounts : Instr → Nat × Nat
  | .no | .rl | .re | .hi | .si | .hs | .sc | .uu | .ff => (0, 0)
  | .lw _ | .lh _ | .lb _ | .po => (0, 1)
  | .dr | .pu | .ca | .ju | .cr | .ti | .ii | .ac | .pc => (1, 0)
  | .fw | .fh | .fb | .nt | .rr => (1, 1)
  | .du => (1, 2)
  | .un => (1, 4)
  | .sw | .sh | .sb | .cc | .cj | .sv | .ic | .wr => (2, 0)
  | .eq | .ne | .lt | .gt | .ad | .su | .mu | .an | .or | .xo | .sl | .sr => (2, 1)
  | .sp | .dm => (2, 2)
  | .cp => (3, 0)
  | .bc => (3, 1)
  | .md => (3, 2)
  | .pa => (4, 1)

/-- The statuses of 60_exceptions.md R470 other than the guard's, by the instructions its table names for them. -/
def ownStatuses : Instr → List Status
  | .hs => [.systemHalt]
  | .pu | .ca | .cc => [.addressStackOverflow]
  | .po | .re | .cr => [.addressStackUnderflow]
  | .rr | .wr => [.illegalRegisterId]
  | .lw _ | .lh _ | .lb _ | .fw | .fh | .fb | .sw | .sh | .sb | .cp | .bc => [.illegalMemoryAddress]
  | .sv => [.illegalInterruptId]
  | .dm | .md => [.divisionByZero]
  | .sl | .sr => [.invalidFloatOperation]
  | .no | .du | .dr | .sp | .eq | .ne | .lt | .gt | .ad | .su | .mu | .an | .or | .xo | .nt | .pa | .un | .rl | .ju | .cj
  | .hi | .si | .ti | .ii | .ic | .ac | .pc | .sc | .uu | .ff => []

/-- Every status an instruction may raise: the guard's underflow if it pops, the guard's overflow if it pushes, and its own
(60_exceptions.md R470). -/
def raisable (i : Instr) : List Status :=
  (if (guardCounts i).1 ≥ 1 then [.dataStackUnderflow] else []) ++
  (if (guardCounts i).2 ≥ 1 then [.dataStackOverflow] else []) ++ ownStatuses i

/-- The guard of an instruction that pops `p` cells and pushes `q` ends it with its status, nothing else happening
(41_engine.md R230, R241), in state `s` with executing core `c`. -/
def TrapsByGuard (i : Instr) (p q : Nat) (s : State) (c : CoreState) : Prop :=
  (c.data.length < p → exec i s = .next (s.setStatus .dataStackUnderflow)) ∧
  (p ≤ c.data.length → 32 < c.data.length + q → exec i s = .next (s.setStatus .dataStackOverflow))

/-- `q` is the truncated signed quotient of `l` by `r` and `mo` its remainder with the sign of `l`, in whole numbers, but for the one
overflowing case (40_cell_alu.md R180). -/
def TruncatedDivision (l r q mo : Cell) : Prop :=
  if l = 0x80000000#32 ∧ r = 0xFFFFFFFF#32 then q = 0x80000000#32 ∧ mo = 0#32
  else l.toInt = q.toInt * r.toInt + mo.toInt ∧ mo.toInt.natAbs < r.toInt.natAbs ∧
    (mo.toInt = 0 ∨ mo.toInt.sign = l.toInt.sign)

/-- The magnitude that bits 30:0 of a finite binary32 pattern stand for, in units of 2^-149 (40_cell_alu.md R163). -/
def magnitudeOf (bits : Nat) : Nat :=
  if bits < 2 ^ 23 then bits else (2 ^ 23 + bits % 2 ^ 23) * 2 ^ (bits / 2 ^ 23 - 1)

/-- How far the magnitude of a pattern lies from `num / den` units, times `den`. -/
def distanceTo (num den bits : Nat) : Nat := ((num : Int) - (magnitudeOf bits * den : Nat)).natAbs

/-- `bits` are bits 30:0 of `num / den` units of 2^-149 rounded to nearest, ties to even: no finite pattern is nearer, another one
as near leaves the even one, and infinity stands exactly for what lies half a step or more above the largest finite value (R174). -/
def NearestEven (num den bits : Nat) : Prop :=
  bits ≤ 0x7F800000 ∧ (bits = 0x7F800000 ↔ (2 ^ 25 - 1) * 2 ^ 252 * den ≤ num) ∧
  (bits < 0x7F800000 → ∀ other < 0x7F800000, distanceTo num den bits ≤ distanceTo num den other ∧
    (distanceTo num den bits = distanceTo num den other → other = bits ∨ bits % 2 = 0))

/-- The cell has sign bit `neg` and the rounding of `num / den` units in its other bits. -/
def RoundedTo (neg : Bool) (num den : Nat) (z : Cell) : Prop := z.msb = neg ∧ NearestEven num den (z.toNat % 2 ^ 31)

/-- A pattern that is no NaN, as a whole number that grows with the value it stands for: its magnitude bits with its sign. -/
def patternOrder (c : Cell) : Int := if c.msb then -((c.toNat % 2 ^ 31 : Nat) : Int) else ((c.toNat % 2 ^ 31 : Nat) : Int)

end Sys2Proof.Machine
end

