-- ==== Sys2Proof/Certificates/Slice0/Obligations.lean ====
section
/-! DEFINITION. The statements for the provers. Throughout, `c` is the executing core of `s` (41_engine.md R221); a conclusion
`exec i s = .next t` gives the whole next state, so it also says that everything not named in `t` is unchanged. -/

open Sys2Proof Sys2Proof.Machine

/-! ## Encoding -/

/-- 30_encoding.md R121, R122, R125: reading back what the encoder wrote gives the instruction, with every immediate at every value,
and leaves the bytes after it. -/
def Obligations.DecodeEncodeAgree : Prop :=
  ∀ (i : Instr) (rest : List Byte), decode (encode i ++ rest) = .ok (i, rest)

/-- 30_encoding.md R123, which the spec marks as its own inference from R120 and R121: the opcode byte alone tells the length. -/
def Obligations.OpcodeByteAloneTellsLength : Prop :=
  ∀ (op : Byte) (rest rest' : List Byte) (i : Instr), decode (op :: rest) = .ok (i, rest') →
    (op :: rest).length = i.length + rest'.length ∧
    i.length = if op = 0x01#8 then 8 else if op = 0x02#8 then 3 else if op = 0x03#8 then 2 else 1

/-- 30_encoding.md R121, R122: the immediates are little-endian, and LW's pad bytes may hold any value. -/
def Obligations.ImmediatesAreLittleEndian : Prop :=
  ∀ (p1 p2 p3 b0 b1 b2 b3 : Byte) (rest : List Byte),
    (∃ imm : BitVec 32, decode (0x01 :: p1 :: p2 :: p3 :: b0 :: b1 :: b2 :: b3 :: rest) = .ok (.lw imm, rest) ∧
      imm.toNat = b0.toNat + 2 ^ 8 * b1.toNat + 2 ^ 16 * b2.toNat + 2 ^ 24 * b3.toNat) ∧
    (∃ imm : BitVec 16, decode (0x02 :: b0 :: b1 :: rest) = .ok (.lh imm, rest) ∧
      imm.toNat = b0.toNat + 2 ^ 8 * b1.toNat) ∧
    decode (0x03 :: b0 :: rest) = .ok (.lb b0, rest)

/-- 30_encoding.md R125: a few words of the opcode map, with LW's pad bytes not zero. -/
def Obligations.SomeWordsDecode : Prop :=
  decode [0x01, 0xAA, 0xBB, 0xCC, 0x39, 0x05, 0x00, 0x00] = .ok (.lw 1337, []) ∧
  decode [0x02, 0x00, 0x02] = .ok (.lh 0x200, []) ∧ decode [0x03, 0x89] = .ok (.lb 137, []) ∧
  decode [0x09] = .ok (.sb, []) ∧ decode [0x0E] = .ok (.po, []) ∧ decode [0x13] = .ok (.ad, []) ∧
  decode [0x1E] = .ok (.pa, []) ∧ decode [0x21] = .ok (.ca, []) ∧ decode [0x27] = .ok (.sv, []) ∧
  decode [0x2C] = .ok (.hs, []) ∧ decode [0x36] = .ok (.ff, [])

/-- 30_encoding.md R126: a byte 0x37 .. 0xFF is no instruction; the decoder rejects it by name, and a tick that fetches one is
refused, which is neither a status nor a no-op. -/
def Obligations.IllegalOpcodeIsRefused : Prop :=
  ∀ (op : Byte), 0x36 < op.toNat →
    (∀ rest : List Byte, decode (op :: rest) = .error (.illegalOpcode op)) ∧
    (∀ (s : State) (c : CoreState), s.status = .none → (selectNextCore s).current? = some c → c.ip.toNat < 65535 →
      s.memory.byteAt c.ip.toNat = op → step s = .refused (.undecodable (.illegalOpcode op)))

/-! ## Reset, scheduler and tick -/

/-- 70_reset_and_hazards.md R520 to R522: what `construct` leaves, for either core count and any callback slots; core 0 is the only active core
and the first tick selects it, at IP 0. (That the interrupt table starts at 0 is in R520 and R522 by the spec's decision D23.) -/
def Obligations.ConstructLeavesResetValues : Prop :=
  ∀ (count : Config.CoreCount) (slots : Vector Bool 16),
    let s := State.construct count slots
    (∀ a, s.memory.byteAt a = 0#8) ∧ (∀ id, id < 128 → s.interruptTable[id]? = some 0#32) ∧
    s.ioTable = slots ∧ s.intEnabled = false ∧ s.curCoreId = count.toNat - 1 ∧ s.cores.length = count.toNat ∧
    (∀ id c, s.cores[id]? = some c →
      c.ip = 0#32 ∧ c.active = decide (id = 0) ∧ c.opMode = .signed ∧ c.addrMode = .direct ∧ c.data = [] ∧ c.addrs = [] ∧
      ∀ r, r < 24 → c.regs[r]? = some 0#32) ∧
    (selectNextCore s).curCoreId = 0 ∧ ∃ c, (selectNextCore s).current? = some c ∧ c.ip = 0#32

/-- The state after `construct` is legal. -/
def Obligations.ConstructIsLegal : Prop :=
  ∀ (count : Config.CoreCount) (slots : Vector Bool 16), (State.construct count slots).Legal

/-- Every step of the machine keeps a state legal: CORE_COUNT stays 2 or 8, `cur_core_id` stays a core's id, both stacks of every core
stay within their capacities, and memory stays in canonical form. -/
def Obligations.EveryStepKeepsLegality : Prop :=
  ∀ s t : State, s.Legal → step s = .next t → t.Legal

/-- 41_engine.md R222: `sel_next_core()` takes the first active core of the circular scan from `cur_core_id + 1`, which visits the
current core last, and changes nothing when no core is active. -/
def Obligations.SchedulerTakesNextActiveCore : Prop :=
  ∀ s : State, s.curCoreId < s.cores.length →
    (∀ k, 1 ≤ k → k ≤ s.cores.length → s.coreActive ((s.curCoreId + k) % s.cores.length) →
      (∀ j, 1 ≤ j → j < k → ¬ s.coreActive ((s.curCoreId + j) % s.cores.length)) →
      selectNextCore s = s.select ((s.curCoreId + k) % s.cores.length)) ∧
    ((∀ id, ¬ s.coreActive id) → selectNextCore s = s)

/-- 41_engine.md R223, R224: while a run is in progress, a step selects a core and then executes, with `exec`, the instruction its
bytes decode to; nothing else happens in the step (every instruction moves IP itself). -/
def Obligations.StepRunsDecodedInstruction : Prop :=
  ∀ (s : State) (c : CoreState) (i : Instr) (rest : List Byte),
    s.status = .none → (selectNextCore s).current? = some c → c.ip.toNat < 65535 →
    decode (s.memory.readRange c.ip.toNat 8) = .ok (i, rest) → step s = exec i (selectNextCore s)

/-- 41_engine.md R223: a fetch at or above MEMORY_SIZE ends the run with SystemHalt and changes nothing else, but for the `cur_core_id`
that the scheduler wrote. -/
def Obligations.FetchPastMemoryHalts : Prop :=
  ∀ (s : State) (c : CoreState), s.status = .none → (selectNextCore s).current? = some c → 65535 ≤ c.ip.toNat →
    step s = .next ((selectNextCore s).setStatus .systemHalt)

/-- 41_engine.md R227: two active cores alternate. With memory all zero (NO everywhere), `n` ticks from `cur_core_id = 1` execute
`n / 2` rounded up on core 0 and `n / 2` rounded down on core 1. -/
def Obligations.TwoActiveCoresAlternate : Prop :=
  ∀ (n : Nat) (s : State) (c0 c1 : CoreState),
    s.status = .none → s.cores = [c0, c1] → c0.active = true → c1.active = true → s.curCoreId = 1 →
    (∀ a, s.memory.byteAt a = 0#8) → c0.ip.toNat + (n + 1) / 2 ≤ 65535 → c1.ip.toNat + n / 2 ≤ 65535 →
    ∃ (t : State) (d0 d1 : CoreState), Host.Core.run Sys2Proof.core n s = .next t ∧ t.cores = [d0, d1] ∧
      d0.ip.toNat = c0.ip.toNat + (n + 1) / 2 ∧ d1.ip.toNat = c1.ip.toNat + n / 2

/-! ## Statuses -/

/-- 00_scope.md R13, 41_engine.md R241: an instruction that raises a status leaves the whole state exactly as it was; only the status
output of the run holds the status. -/
def Obligations.RaisedStatusDiscardsEveryWrite : Prop :=
  ∀ (i : Instr) (s t : State), s.status = .none → exec i s = .next t → t.status ≠ .none → t = s.setStatus t.status

/-- 60_exceptions.md R471, R474 (the spec's own inference); that an ended run stays as it is under `step` is the model's choice, log 1.
After a run has returned a status no tick changes the state; the host's next `run()` sets `cur_core_id`
to CORE_COUNT - 1, keeps everything else, and from there a tick follows again. -/
def Obligations.EndedRunWaitsForTheHost : Prop :=
  ∀ s : State, (s.status ≠ .none → step s = .next s) ∧
    startRun s = (s.select (s.cores.length - 1)).setStatus .none ∧ step (startRun s) = tick (selectNextCore (startRun s))

/-- 41_engine.md R230, R231: every instruction with guard counts checks exactly them first, underflow before overflow, whatever else
it could raise; where its counts hold, and for an instruction without a guard, it raises neither of the two statuses. -/
def Obligations.GuardComesFirst : Prop :=
  ∀ (i : Instr) (s : State) (c : CoreState), s.current? = some c →
    (guardCounts i ≠ (0, 0) → TrapsByGuard i (guardCounts i).1 (guardCounts i).2 s c) ∧
    (s.status = .none → (guardCounts i).1 ≤ c.data.length → c.data.length + (guardCounts i).2 ≤ 32 →
      ∀ t, exec i s = .next t → t.status ≠ .dataStackUnderflow ∧ t.status ≠ .dataStackOverflow)

/-- 60_exceptions.md R470: an instruction raises only the statuses that the table names for it, OutOfMemory never. The data stack is
within its capacity, which every step keeps (`EveryStepKeepsLegality`). -/
def Obligations.OnlyItsOwnStatuses : Prop :=
  ∀ (i : Instr) (s t : State), s.status = .none → (∀ c, s.current? = some c → c.data.length ≤ 32) → exec i s = .next t → t.status = .none ∨ t.status ∈ raisable i

/-- Every stop without a next state has its ground. The refusals are the spec's (00_scope.md R14): a core id of CORE_COUNT or more in IC, AC
or PC (48_core_control.md R421 to R423), and a host call that II's callback may not make (60_exceptions.md R490). The two faults are the
model's: where `cur_core_id` is no core's id, its choice, log 9; and for a callback that never returns, its reading of R490, log 10. -/
def Obligations.EveryStopHasItsGround : Prop :=
  ∀ (i : Instr) (s : State),
    (∀ r, exec i s = .refused r →
      (∃ id, r = .illegalCoreId id ∧ s.cores.length ≤ id ∧ (i = .ic ∨ i = .ac ∨ i = .pc)) ∨
      (∃ call, r = .illegalHostCall call ∧ i = .ii)) ∧
    (∀ f, exec i s = .fault f → (f = .noCurrentCore ∧ s.current? = none) ∨ (f = .callbackNeverReturns ∧ i = .ii))

/-! ## What instructions leave unchanged -/

/-- 20_memory.md R90, 10_state.md R32 to R36: every byte of memory is unchanged by every instruction but SW, SH, SB, CP and II; only SV writes the interrupt table, only HI and SI the enable bit, only II invokes callbacks, and no instruction
writes the I/O table, `cur_core_id` or the number of cores. -/
def Obligations.SharedStateFrame : Prop :=
  ∀ (i : Instr) (s t : State), exec i s = .next t →
    (i ≠ .sw → i ≠ .sh → i ≠ .sb → i ≠ .cp → i ≠ .ii → ∀ a, t.memory.byteAt a = s.memory.byteAt a) ∧
    (i ≠ .sv → t.interruptTable = s.interruptTable) ∧ (i ≠ .hi → i ≠ .si → t.intEnabled = s.intEnabled) ∧
    (i ≠ .ii → t.callbackLog = s.callbackLog) ∧ t.ioTable = s.ioTable ∧ t.curCoreId = s.curCoreId ∧
    t.cores.length = s.cores.length

/-- 10_state.md R35, 60_exceptions.md R498: only IC, AC and PC change another core. -/
def Obligations.OnlyCoreControlReachesSiblings : Prop :=
  ∀ (i : Instr) (s t : State), exec i s = .next t → i ≠ .ic → i ≠ .ac → i ≠ .pc →
    ∀ id, id ≠ s.curCoreId → t.cores[id]? = s.cores[id]?

/-- 10_state.md R41 to R50: on the executing core, only WR and IC write registers; only PU, PO, CA, CC, RE, CR and IC the address stack; only
RL, CA, CC, JU, CJ and IC the address mode; only AC, PC, SC and IC the active bit; and only an instruction with stack operands, or IC, the
data stack. -/
def Obligations.ExecutingCoreFrame : Prop :=
  ∀ (i : Instr) (s t : State) (c d : CoreState), s.current? = some c → exec i s = .next t → t.current? = some d →
    (i ≠ .wr → i ≠ .ic → d.regs = c.regs) ∧
    (i ≠ .pu → i ≠ .po → i ≠ .ca → i ≠ .cc → i ≠ .re → i ≠ .cr → i ≠ .ic → d.addrs = c.addrs) ∧
    (i ≠ .rl → i ≠ .ca → i ≠ .cc → i ≠ .ju → i ≠ .cj → i ≠ .ic → d.addrMode = c.addrMode) ∧
    (i ≠ .ac → i ≠ .pc → i ≠ .sc → i ≠ .ic → d.active = c.active) ∧
    (guardCounts i = (0, 0) → d.data = c.data)

/-- 41_engine.md R238: a completing instruction other than UU and FF leaves SIGNED, and a completing CA, CC, JU or CJ leaves DIRECT, jump
taken or not. -/
def Obligations.ModesDecay : Prop :=
  ∀ (i : Instr) (s t : State) (d : CoreState), s.status = .none → exec i s = .next t → t.status = .none → t.current? = some d →
    (i ≠ .uu → i ≠ .ff → d.opMode = .signed) ∧ (i = .uu → d.opMode = .unsigned) ∧ (i = .ff → d.opMode = .float) ∧
    (i = .ca ∨ i = .cc ∨ i = .ju ∨ i = .cj → d.addrMode = .direct)

/-- 60_exceptions.md R498: cores own their IP, modes, stacks and registers. An instruction other than IC, AC, PC and II does the same to the
executing core and to the shared state whatever the other cores hold. -/
def Obligations.SiblingsPrivateStateIsNotRead : Prop :=
  ∀ (i : Instr) (s s' t : State), i ≠ .ic → i ≠ .ac → i ≠ .pc → i ≠ .ii →
    s'.current? = s.current? → s'.memory = s.memory → s'.interruptTable = s.interruptTable → s'.intEnabled = s.intEnabled →
    s'.status = s.status → exec i s = .next t →
    ∃ t', exec i s' = .next t' ∧ t'.current? = t.current? ∧ t'.memory = t.memory ∧ t'.interruptTable = t.interruptTable ∧
      t'.intEnabled = t.intEnabled ∧ t'.status = t.status

/-! ## 42_literal_memory.md -/

/-- R261 to R263: LW, LH and LB take their immediate from the bytes four, one and one after the opcode, least significant first, push it
zero-extended and advance by 8, 3 and 2; an immediate that runs past the end of memory raises IllegalMemoryAddress, after the guard. -/
def Obligations.LiteralsPushTheirImmediate : Prop :=
  ∀ (s : State) (c : CoreState) (w : BitVec 32) (h : BitVec 16) (b : BitVec 8), s.current? = some c →
    (s.memory.byteAt c.ip.toNat = 0x01 → ∃ (imm : BitVec 32) (rest : List Byte),
      decode (s.memory.readRange c.ip.toNat 8) = .ok (.lw imm, rest) ∧
      imm.toNat = (s.memory.byteAt (c.ip.toNat + 4)).toNat + 2 ^ 8 * (s.memory.byteAt (c.ip.toNat + 5)).toNat +
        2 ^ 16 * (s.memory.byteAt (c.ip.toNat + 6)).toNat + 2 ^ 24 * (s.memory.byteAt (c.ip.toNat + 7)).toNat) ∧
    (s.memory.byteAt c.ip.toNat = 0x02 → ∃ (imm : BitVec 16) (rest : List Byte),
      decode (s.memory.readRange c.ip.toNat 8) = .ok (.lh imm, rest) ∧
      imm.toNat = (s.memory.byteAt (c.ip.toNat + 1)).toNat + 2 ^ 8 * (s.memory.byteAt (c.ip.toNat + 2)).toNat) ∧
    (s.memory.byteAt c.ip.toNat = 0x03 → ∃ rest : List Byte,
      decode (s.memory.readRange c.ip.toNat 8) = .ok (.lb (s.memory.byteAt (c.ip.toNat + 1)), rest)) ∧
    TrapsByGuard (.lw w) 0 1 s c ∧ TrapsByGuard (.lh h) 0 1 s c ∧ TrapsByGuard (.lb b) 0 1 s c ∧
    (c.data.length ≤ 31 →
      exec (.lw w) s = (if c.ip.toNat + 8 ≤ 65535 then
          .next (s.setCurrent { c with data := w :: c.data, ip := c.ip + 8, opMode := .signed })
        else .next (s.setStatus .illegalMemoryAddress)) ∧
      exec (.lh h) s = (if c.ip.toNat + 3 ≤ 65535 then
          .next (s.setCurrent { c with data := BitVec.ofNat 32 h.toNat :: c.data, ip := c.ip + 3, opMode := .signed })
        else .next (s.setStatus .illegalMemoryAddress)) ∧
      exec (.lb b) s = (if c.ip.toNat + 2 ≤ 65535 then
          .next (s.setCurrent { c with data := BitVec.ofNat 32 b.toNat :: c.data, ip := c.ip + 2, opMode := .signed })
        else .next (s.setStatus .illegalMemoryAddress)))

/-- R264 to R266: FW, FH and FB pop an address and push the 4, 2 or 1 bytes there, little-endian and zero-extended; a range that leaves memory
raises IllegalMemoryAddress. -/
def Obligations.LoadsPushTheBytesAtTheAddress : Prop :=
  encode .fw = [0x04] ∧ encode .fh = [0x05] ∧ encode .fb = [0x06] ∧
  ∀ (s : State) (c : CoreState), s.current? = some c →
    TrapsByGuard .fw 1 1 s c ∧ TrapsByGuard .fh 1 1 s c ∧ TrapsByGuard .fb 1 1 s c ∧
    ∀ (a : Cell) (rest : List Cell), c.data = a :: rest → c.data.length ≤ 31 →
      (∀ v : Cell, v.toNat = (s.memory.byteAt a.toNat).toNat + 2 ^ 8 * (s.memory.byteAt (a.toNat + 1)).toNat +
          2 ^ 16 * (s.memory.byteAt (a.toNat + 2)).toNat + 2 ^ 24 * (s.memory.byteAt (a.toNat + 3)).toNat →
        exec .fw s = if a.toNat + 4 ≤ 65535 then
            .next (s.setCurrent { c with data := v :: rest, ip := c.ip + 1, opMode := .signed })
          else .next (s.setStatus .illegalMemoryAddress)) ∧
      (∀ v : Cell, v.toNat = (s.memory.byteAt a.toNat).toNat + 2 ^ 8 * (s.memory.byteAt (a.toNat + 1)).toNat →
        exec .fh s = if a.toNat + 2 ≤ 65535 then
            .next (s.setCurrent { c with data := v :: rest, ip := c.ip + 1, opMode := .signed })
          else .next (s.setStatus .illegalMemoryAddress)) ∧
      (∀ v : Cell, v.toNat = (s.memory.byteAt a.toNat).toNat →
        exec .fb s = if a.toNat + 1 ≤ 65535 then
            .next (s.setCurrent { c with data := v :: rest, ip := c.ip + 1, opMode := .signed })
          else .next (s.setStatus .illegalMemoryAddress))

/-- R267 to R269: SW, SH and SB pop an address, then a value, and store its low 4, 2 or 1 bytes there, least significant first; every other byte
and everything else is unchanged; a range that leaves memory raises IllegalMemoryAddress. -/
def Obligations.StoresWriteTheLowBytes : Prop :=
  encode .sw = [0x07] ∧ encode .sh = [0x08] ∧ encode .sb = [0x09] ∧
  ∀ (s : State) (c : CoreState), s.memory.wf = true → s.current? = some c →
    TrapsByGuard .sw 2 0 s c ∧ TrapsByGuard .sh 2 0 s c ∧ TrapsByGuard .sb 2 0 s c ∧
    ∀ (a v : Cell) (rest : List Cell), c.data = a :: v :: rest → c.data.length ≤ 32 →
      ∀ i n, (i = Instr.sw ∧ n = 4) ∨ (i = Instr.sh ∧ n = 2) ∨ (i = Instr.sb ∧ n = 1) →
        (a.toNat + n ≤ 65535 → ∃ m : Memory,
          exec i s = .next ((s.setCurrent { c with data := rest, ip := c.ip + 1, opMode := .signed }).setMemory m) ∧
          ∀ x, m.byteAt x = if a.toNat ≤ x ∧ x < a.toNat + n then v.extractLsb' (8 * (x - a.toNat)) 8 else s.memory.byteAt x) ∧
        (65535 < a.toNat + n → exec i s = .next (s.setStatus .illegalMemoryAddress))

/-- 20_memory.md R87: a store of 4, 2 or 1 bytes followed by a load of as many at the same address gives the low bytes of the value,
zero-extended. -/
def Obligations.LoadAfterStoreGivesTheLowBytes : Prop :=
  ∀ (m : Memory) (a : Nat) (w : Width) (v : Cell), m.wf = true → a + w.bytes ≤ 65535 →
    ((m.writeCell a w v).readCell a w).toNat = v.toNat % 2 ^ (8 * w.bytes)

/-- 20_memory.md R80: two memories in canonical form that hold the same bytes at every address are the same data. -/
def Obligations.EqualContentsAreEqualData : Prop :=
  ∀ m m' : Memory, m.wf = true → m'.wf = true → (∀ a, a < 65535 → m.byteAt a = m'.byteAt a) → m = m'

/-! ## 43_stack.md -/

/-- R290 to R292: DU duplicates, DR drops, SP swaps; DU and SP need room for two pushes. -/
def Obligations.StackRearrangement : Prop :=
  encode .du = [0x0A] ∧ encode .dr = [0x0B] ∧ encode .sp = [0x0C] ∧
  ∀ (s : State) (c : CoreState), s.current? = some c →
    TrapsByGuard .du 1 2 s c ∧ TrapsByGuard .dr 1 0 s c ∧ TrapsByGuard .sp 2 2 s c ∧
    (∀ v rest, c.data = v :: rest → c.data.length ≤ 30 →
      exec .du s = .next (s.setCurrent { c with data := v :: v :: rest, ip := c.ip + 1, opMode := .signed })) ∧
    (∀ v rest, c.data = v :: rest → c.data.length ≤ 32 →
      exec .dr s = .next (s.setCurrent { c with data := rest, ip := c.ip + 1, opMode := .signed })) ∧
    (∀ y x rest, c.data = y :: x :: rest → c.data.length ≤ 30 →
      exec .sp s = .next (s.setCurrent { c with data := x :: y :: rest, ip := c.ip + 1, opMode := .signed }))

/-- R293, R294: PU and PO move a cell between the stacks; a full or empty address stack raises its status after the guard. -/
def Obligations.AddressStackMoves : Prop :=
  encode .pu = [0x0D] ∧ encode .po = [0x0E] ∧
  ∀ (s : State) (c : CoreState), s.current? = some c →
    TrapsByGuard .pu 1 0 s c ∧ TrapsByGuard .po 0 1 s c ∧
    (∀ v rest, c.data = v :: rest → c.data.length ≤ 32 →
      exec .pu s = if c.addrs.length < 128 then
          .next (s.setCurrent { c with data := rest, addrs := v :: c.addrs, ip := c.ip + 1, opMode := .signed })
        else .next (s.setStatus .addressStackOverflow)) ∧
    (∀ v rest, c.addrs = v :: rest → c.data.length ≤ 31 →
      exec .po s = .next (s.setCurrent { c with data := v :: c.data, addrs := rest, ip := c.ip + 1, opMode := .signed })) ∧
    (c.addrs = [] → c.data.length ≤ 31 → exec .po s = .next (s.setStatus .addressStackUnderflow))

/-! ## 44_compare_arith.md -/

/-- R310, R311: EQ and NE compare the raw bits in every mode and push all ones or zero. -/
def Obligations.EqualityComparesBits : Prop :=
  encode .eq = [0x0F] ∧ encode .ne = [0x10] ∧
  ∀ (s : State) (c : CoreState), s.current? = some c → TrapsByGuard .eq 2 1 s c ∧ TrapsByGuard .ne 2 1 s c ∧
    ∀ r l rest, c.data = r :: l :: rest → c.data.length ≤ 31 →
      exec .eq s = .next (s.setCurrent
        { c with data := (if l = r then 0xFFFFFFFF#32 else 0#32) :: rest, ip := c.ip + 1, opMode := .signed }) ∧
      exec .ne s = .next (s.setCurrent
        { c with data := (if l = r then 0#32 else 0xFFFFFFFF#32) :: rest, ip := c.ip + 1, opMode := .signed })

/-- R312, R313 in the integer modes: LT and GT compare two's-complement numbers in SIGNED mode and unsigned ones in UNSIGNED mode. Their
opcode bytes are 0x11 and 0x12 (30_encoding.md R125). -/
def Obligations.IntegerOrderComparisons : Prop :=
  encode .lt = [0x11] ∧ encode .gt = [0x12] ∧
  ∀ (s : State) (c : CoreState) (r l : Cell) (rest : List Cell), s.current? = some c → c.data = r :: l :: rest → c.data.length ≤ 31 →
    (c.opMode = .signed →
      exec .lt s = .next (s.setCurrent
        { c with data := (if l.toInt < r.toInt then 0xFFFFFFFF#32 else 0#32) :: rest, ip := c.ip + 1, opMode := .signed }) ∧
      exec .gt s = .next (s.setCurrent
        { c with data := (if l.toInt > r.toInt then 0xFFFFFFFF#32 else 0#32) :: rest, ip := c.ip + 1, opMode := .signed })) ∧
    (c.opMode = .unsigned →
      exec .lt s = .next (s.setCurrent
        { c with data := (if l.toNat < r.toNat then 0xFFFFFFFF#32 else 0#32) :: rest, ip := c.ip + 1, opMode := .signed }) ∧
      exec .gt s = .next (s.setCurrent
        { c with data := (if l.toNat > r.toNat then 0xFFFFFFFF#32 else 0#32) :: rest, ip := c.ip + 1, opMode := .signed }))

/-- R312, R313, 40_cell_alu.md R177 in FLOAT mode: a NaN operand gives false, the two zeros are equal, and otherwise the patterns are ordered by
sign and magnitude. -/
def Obligations.FloatOrderComparisons : Prop :=
  ∀ (s : State) (c : CoreState) (r l : Cell) (rest : List Cell), s.current? = some c → c.data = r :: l :: rest → c.data.length ≤ 31 →
    c.opMode = .float →
      exec .lt s = .next (s.setCurrent
        { c with data := (if isNaN l = false ∧ isNaN r = false ∧ patternOrder l < patternOrder r then 0xFFFFFFFF#32 else 0#32) :: rest,
                 ip := c.ip + 1, opMode := .signed }) ∧
      exec .gt s = .next (s.setCurrent
        { c with data := (if isNaN l = false ∧ isNaN r = false ∧ patternOrder l > patternOrder r then 0xFFFFFFFF#32 else 0#32) :: rest,
                 ip := c.ip + 1, opMode := .signed })

/-- R314 to R316, 40_cell_alu.md R173 in the integer modes: AD, SU and MU wrap modulo 2^32, the same bits in both modes, and raise nothing.
Their opcode bytes are 0x13, 0x14 and 0x15 (30_encoding.md R125). -/
def Obligations.IntegerArithmeticWraps : Prop :=
  encode .ad = [0x13] ∧ encode .su = [0x14] ∧ encode .mu = [0x15] ∧
  ∀ (s : State) (c : CoreState) (r l : Cell) (rest : List Cell), s.current? = some c → c.data = r :: l :: rest → c.data.length ≤ 31 →
    c.opMode = .signed ∨ c.opMode = .unsigned →
      exec .ad s = .next (s.setCurrent { c with data := (l + r) :: rest, ip := c.ip + 1, opMode := .signed }) ∧
      exec .su s = .next (s.setCurrent { c with data := (l - r) :: rest, ip := c.ip + 1, opMode := .signed }) ∧
      exec .mu s = .next (s.setCurrent { c with data := (l * r) :: rest, ip := c.ip + 1, opMode := .signed })

/-- R314 to R316, 40_cell_alu.md R174 in FLOAT mode, finite operands: the sum, difference or product that is pushed is the exact one rounded to
nearest even; a sum or difference that is exactly zero is -0.0 only where both addends are negative. No status is raised. -/
def Obligations.FloatArithmeticIsCorrectlyRounded : Prop :=
  ∀ (s : State) (c : CoreState) (r l : Cell) (rest : List Cell) (a b : Bool) (m n : Nat),
    s.current? = some c → c.data = r :: l :: rest → c.data.length ≤ 31 → c.opMode = .float →
    toF32 l = .finite a m → toF32 r = .finite b n →
    ∃ sum difference product : Cell,
      exec .ad s = .next (s.setCurrent { c with data := sum :: rest, ip := c.ip + 1, opMode := .signed }) ∧
      exec .su s = .next (s.setCurrent { c with data := difference :: rest, ip := c.ip + 1, opMode := .signed }) ∧
      exec .mu s = .next (s.setCurrent { c with data := product :: rest, ip := c.ip + 1, opMode := .signed }) ∧
      (let exact := signedMag a m + signedMag b n
       if exact = 0 then sum = (if a && b then 0x80000000#32 else 0#32)
       else RoundedTo (decide (exact < 0)) exact.natAbs 1 sum) ∧
      (let exact := signedMag a m - signedMag b n
       if exact = 0 then difference = (if a && !b then 0x80000000#32 else 0#32)
       else RoundedTo (decide (exact < 0)) exact.natAbs 1 difference) ∧
      RoundedTo (a ^^ b) (m * n) (2 ^ 149) product

/-- 40_cell_alu.md R174, R176: with a NaN operand, or where the operation has no value, AD, SU and MU push some NaN encoding, and they complete
all the same; with one infinite operand the sum and the product are that infinity with its sign. -/
def Obligations.FloatArithmeticOnNaNAndInfinity : Prop :=
  ∀ (s : State) (c : CoreState) (r l : Cell) (rest : List Cell),
    s.current? = some c → c.data = r :: l :: rest → c.data.length ≤ 31 → c.opMode = .float →
    ∃ sum difference product : Cell,
      exec .ad s = .next (s.setCurrent { c with data := sum :: rest, ip := c.ip + 1, opMode := .signed }) ∧
      exec .su s = .next (s.setCurrent { c with data := difference :: rest, ip := c.ip + 1, opMode := .signed }) ∧
      exec .mu s = .next (s.setCurrent { c with data := product :: rest, ip := c.ip + 1, opMode := .signed }) ∧
      (isNaN l = true ∨ isNaN r = true → isNaN sum = true ∧ isNaN difference = true ∧ isNaN product = true) ∧
      (∀ a b, toF32 l = .infinite a → toF32 r = .infinite b →
        (if a = b then toF32 sum = .infinite a ∧ isNaN difference = true else isNaN sum = true ∧ toF32 difference = .infinite a) ∧
        toF32 product = .infinite (a ^^ b)) ∧
      (∀ a b n, toF32 l = .infinite a → toF32 r = .finite b n →
        toF32 sum = .infinite a ∧ toF32 difference = .infinite a ∧
        (if n = 0 then isNaN product = true else toF32 product = .infinite (a ^^ b))) ∧
      (∀ a m b, toF32 l = .finite a m → toF32 r = .infinite b →
        toF32 sum = .infinite b ∧ toF32 difference = .infinite (!b) ∧
        (if m = 0 then isNaN product = true else toF32 product = .infinite (a ^^ b)))

/-- 40_cell_alu.md R170: rounding the value of a finite pattern gives the pattern back. -/
def Obligations.FinitePatternsRoundToThemselves : Prop :=
  ∀ (x : Cell) (neg : Bool) (mag : Nat), toF32 x = .finite neg mag → roundedCell neg mag 1 = x

/-- R317, R318, 40_cell_alu.md R179: DM and MD with a divisor that is zero in the mode raise DivisionByZero and change nothing; in FLOAT mode both
zeros are zero, in the integer modes only the pattern 0. -/
def Obligations.ZeroDivisorRaises : Prop :=
  ∀ (s : State) (c : CoreState) (r x : Cell) (rest : List Cell), s.current? = some c → c.data = r :: x :: rest → c.data.length ≤ 30 →
    (r = 0#32 ∨ (c.opMode = .float ∧ r = 0x80000000#32)) →
      exec .dm s = .next (s.setStatus .divisionByZero) ∧ (rest ≠ [] → exec .md s = .next (s.setStatus .divisionByZero))

/-- R317, R318, 40_cell_alu.md R180, R181, R183: DM in the integer modes leaves the quotient on top of the modulo, truncated in SIGNED mode and
floored in UNSIGNED mode; MD does so with the product that has wrapped to 32 bits as the dividend. Their
opcode bytes are 0x16 and 0x17 (30_encoding.md R125). -/
def Obligations.IntegerDivision : Prop :=
  encode .dm = [0x16] ∧ encode .md = [0x17] ∧
  (∀ (s : State) (c : CoreState) (r l : Cell) (rest : List Cell), s.current? = some c → c.data = r :: l :: rest → c.data.length ≤ 30 →
    r ≠ 0#32 →
    (c.opMode = .signed → ∃ q mo, TruncatedDivision l r q mo ∧
      exec .dm s = .next (s.setCurrent { c with data := q :: mo :: rest, ip := c.ip + 1, opMode := .signed })) ∧
    (c.opMode = .unsigned → ∃ q mo : Cell, q.toNat = l.toNat / r.toNat ∧ mo.toNat = l.toNat % r.toNat ∧
      exec .dm s = .next (s.setCurrent { c with data := q :: mo :: rest, ip := c.ip + 1, opMode := .signed }))) ∧
  (∀ (s : State) (c : CoreState) (r m l : Cell) (rest : List Cell), s.current? = some c → c.data = r :: m :: l :: rest →
    c.data.length ≤ 30 → r ≠ 0#32 →
    (c.opMode = .signed → ∃ q mo, TruncatedDivision (l * m) r q mo ∧
      exec .md s = .next (s.setCurrent { c with data := q :: mo :: rest, ip := c.ip + 1, opMode := .signed })) ∧
    (c.opMode = .unsigned → ∃ q mo : Cell, q.toNat = (l * m).toNat / r.toNat ∧ mo.toNat = (l * m).toNat % r.toNat ∧
      exec .md s = .next (s.setCurrent { c with data := q :: mo :: rest, ip := c.ip + 1, opMode := .signed })))

/-- R317, 40_cell_alu.md R182 in FLOAT mode, finite operands, divisor not a zero: the quotient is the exact one rounded to nearest even, and the
modulo is exactly `x - k*y` for the whole number `k` nearest to `x / y`, the even one of two, a zero having the sign of `x`. -/
def Obligations.FloatDivisionRoundsAndRemainderIsExact : Prop :=
  ∀ (s : State) (c : CoreState) (r l : Cell) (rest : List Cell) (a b : Bool) (m n : Nat),
    s.current? = some c → c.data = r :: l :: rest → c.data.length ≤ 30 → c.opMode = .float →
    toF32 l = .finite a m → toF32 r = .finite b n → n ≠ 0 →
    ∃ (q mo : Cell) (k : Nat) (neg : Bool) (mag : Nat),
      exec .dm s = .next (s.setCurrent { c with data := q :: mo :: rest, ip := c.ip + 1, opMode := .signed }) ∧
      RoundedTo (a ^^ b) (m * 2 ^ 149) n q ∧
      toF32 mo = .finite neg mag ∧ mag = ((m : Int) - (k * n : Nat)).natAbs ∧ 2 * mag ≤ n ∧ (2 * mag = n → k % 2 = 0) ∧
      (neg = if (k * n : Nat) ≤ m then a else !a)

/-- 40_cell_alu.md R182 in FLOAT mode at the other operands, divisor not a zero: NaN operands and an infinite dividend give NaNs where the spec
says so, and an infinite divisor leaves a finite dividend as the modulo and a zero with the product of the signs as the quotient. -/
def Obligations.FloatDivisionOnNaNAndInfinity : Prop :=
  ∀ (s : State) (c : CoreState) (r l : Cell) (rest : List Cell),
    s.current? = some c → c.data = r :: l :: rest → c.data.length ≤ 30 → c.opMode = .float → r ≠ 0#32 → r ≠ 0x80000000#32 →
    ∃ q mo : Cell,
      exec .dm s = .next (s.setCurrent { c with data := q :: mo :: rest, ip := c.ip + 1, opMode := .signed }) ∧
      (isNaN l = true ∨ isNaN r = true → isNaN q = true ∧ isNaN mo = true) ∧
      (∀ a b, toF32 l = .infinite a → toF32 r = .infinite b → isNaN q = true ∧ isNaN mo = true) ∧
      (∀ a b n, toF32 l = .infinite a → toF32 r = .finite b n → toF32 q = .infinite (a ^^ b) ∧ isNaN mo = true) ∧
      (∀ a m b, toF32 l = .finite a m → toF32 r = .infinite b → toF32 q = .finite (a ^^ b) 0 ∧ mo = l)

/-- R318, 40_cell_alu.md R183 in FLOAT mode: MD divides as DM does the product that MU gives. -/
def Obligations.FloatMultiplyDivide : Prop :=
  ∀ (s : State) (c : CoreState) (r m l : Cell) (rest : List Cell), s.current? = some c → c.data = r :: m :: l :: rest →
    c.data.length ≤ 30 → c.opMode = .float → r ≠ 0#32 → r ≠ 0x80000000#32 →
    ∃ p q mo : Cell,
      exec .mu (s.setCurrent { c with data := m :: l :: rest }) =
        .next (s.setCurrent { c with data := p :: rest, ip := c.ip + 1, opMode := .signed }) ∧
      exec .dm (s.setCurrent { c with data := r :: p :: rest }) =
        .next (s.setCurrent { c with data := q :: mo :: rest, ip := c.ip + 1, opMode := .signed }) ∧
      exec .md s = .next (s.setCurrent { c with data := q :: mo :: rest, ip := c.ip + 1, opMode := .signed })

/-! ## 45_bitwise_pack.md -/

/-- R340 to R343: AN, OR, XO and NT act on the raw bits in every mode. -/
def Obligations.BitwiseActOnRawBits : Prop :=
  encode .an = [0x18] ∧ encode .or = [0x19] ∧ encode .xo = [0x1A] ∧ encode .nt = [0x1B] ∧
  ∀ (s : State) (c : CoreState), s.current? = some c →
    TrapsByGuard .an 2 1 s c ∧ TrapsByGuard .or 2 1 s c ∧ TrapsByGuard .xo 2 1 s c ∧ TrapsByGuard .nt 1 1 s c ∧
    (∀ r l rest, c.data = r :: l :: rest → c.data.length ≤ 31 →
      exec .an s = .next (s.setCurrent { c with data := (l &&& r) :: rest, ip := c.ip + 1, opMode := .signed }) ∧
      exec .or s = .next (s.setCurrent { c with data := (l ||| r) :: rest, ip := c.ip + 1, opMode := .signed }) ∧
      exec .xo s = .next (s.setCurrent { c with data := (l ^^^ r) :: rest, ip := c.ip + 1, opMode := .signed })) ∧
    (∀ v rest, c.data = v :: rest → c.data.length ≤ 31 →
      exec .nt s = .next (s.setCurrent { c with data := (~~~v) :: rest, ip := c.ip + 1, opMode := .signed }))

/-- R344, R345, 40_cell_alu.md R184 to R187: SL and SR shift by the low five bits of the count, SR arithmetically in SIGNED mode and logically in
UNSIGNED mode; in FLOAT mode both raise InvalidFloatOperation and change nothing. -/
def Obligations.ShiftsByTheLowFiveBits : Prop :=
  encode .sl = [0x1C] ∧ encode .sr = [0x1D] ∧
  ∀ (s : State) (c : CoreState), s.current? = some c → TrapsByGuard .sl 2 1 s c ∧ TrapsByGuard .sr 2 1 s c ∧
    ∀ r l rest, c.data = r :: l :: rest → c.data.length ≤ 31 →
      (c.opMode = .signed →
        exec .sl s = .next (s.setCurrent { c with data := (l <<< (r.toNat % 32)) :: rest, ip := c.ip + 1, opMode := .signed }) ∧
        exec .sr s = .next (s.setCurrent
          { c with data := (l.sshiftRight (r.toNat % 32)) :: rest, ip := c.ip + 1, opMode := .signed })) ∧
      (c.opMode = .unsigned →
        exec .sl s = .next (s.setCurrent { c with data := (l <<< (r.toNat % 32)) :: rest, ip := c.ip + 1, opMode := .signed }) ∧
        exec .sr s = .next (s.setCurrent { c with data := (l >>> (r.toNat % 32)) :: rest, ip := c.ip + 1, opMode := .signed })) ∧
      (c.opMode = .float →
        exec .sl s = .next (s.setStatus .invalidFloatOperation) ∧ exec .sr s = .next (s.setStatus .invalidFloatOperation))

/-- R346, R347: PA packs the low bytes of four cells, the one pushed first most significant; UN pushes the four bytes of a cell so that byte 0 ends
on top. -/
def Obligations.PackAndUnpackBytes : Prop :=
  encode .pa = [0x1E] ∧ encode .un = [0x1F] ∧
  ∀ (s : State) (c : CoreState), s.current? = some c → TrapsByGuard .pa 4 1 s c ∧ TrapsByGuard .un 1 4 s c ∧
    (∀ x4 x3 x2 x1 rest, c.data = x4 :: x3 :: x2 :: x1 :: rest → c.data.length ≤ 31 → ∀ v : Cell,
      v.toNat = x4.toNat % 256 + 2 ^ 8 * (x3.toNat % 256) + 2 ^ 16 * (x2.toNat % 256) + 2 ^ 24 * (x1.toNat % 256) →
      exec .pa s = .next (s.setCurrent { c with data := v :: rest, ip := c.ip + 1, opMode := .signed })) ∧
    (∀ v rest, c.data = v :: rest → c.data.length ≤ 28 →
      exec .un s = .next (s.setCurrent
        { c with data := BitVec.ofNat 32 (v.toNat % 256) :: BitVec.ofNat 32 (v.toNat / 2 ^ 8 % 256) ::
                   BitVec.ofNat 32 (v.toNat / 2 ^ 16 % 256) :: BitVec.ofNat 32 (v.toNat / 2 ^ 24) :: rest,
                 ip := c.ip + 1, opMode := .signed }))

/-! ## 46_control.md -/

/-- R371, R372, R377, R378: CA and a CC whose condition is 0xFFFFFFFF push IP + 4 on the address stack and jump to the popped target, relative to the
opcode's own address in RELATIVE mode; any other condition makes CC advance by 1; both reset the address mode. A full address stack raises
AddressStackOverflow and changes nothing. -/
def Obligations.CallsPushTheReturnAddress : Prop :=
  encode .ca = [0x21] ∧ encode .cc = [0x22] ∧
  ∀ (s : State) (c : CoreState), s.current? = some c → TrapsByGuard .ca 1 0 s c ∧ TrapsByGuard .cc 2 0 s c ∧
    (∀ t rest, c.data = t :: rest → c.data.length ≤ 32 →
      exec .ca s = if c.addrs.length < 128 then
          .next (s.setCurrent
            { c with data := rest, addrs := (c.ip + 4) :: c.addrs, ip := (if c.addrMode = .direct then t else t + c.ip), opMode := .signed, addrMode := .direct })
        else .next (s.setStatus .addressStackOverflow)) ∧
    (∀ t rest, c.data = t :: 0xFFFFFFFF#32 :: rest → c.data.length ≤ 32 →
      exec .cc s = if c.addrs.length < 128 then
          .next (s.setCurrent
            { c with data := rest, addrs := (c.ip + 4) :: c.addrs, ip := (if c.addrMode = .direct then t else t + c.ip), opMode := .signed, addrMode := .direct })
        else .next (s.setStatus .addressStackOverflow)) ∧
    (∀ t cond rest, c.data = t :: cond :: rest → c.data.length ≤ 32 → cond ≠ 0xFFFFFFFF#32 →
      exec .cc s = .next (s.setCurrent { c with data := rest, ip := c.ip + 1, opMode := .signed, addrMode := .direct }))

/-- R373, R374, R377: JU jumps to the popped target; CJ does if the condition is 0xFFFFFFFF and advances by 4 otherwise; both reset the address mode.
The target is not checked. -/
def Obligations.JumpsGoToTheTarget : Prop :=
  encode .ju = [0x23] ∧ encode .cj = [0x24] ∧
  ∀ (s : State) (c : CoreState), s.current? = some c → TrapsByGuard .ju 1 0 s c ∧ TrapsByGuard .cj 2 0 s c ∧
    (∀ t rest, c.data = t :: rest → c.data.length ≤ 32 →
      exec .ju s = .next (s.setCurrent
        { c with data := rest, ip := (if c.addrMode = .direct then t else t + c.ip), opMode := .signed, addrMode := .direct })) ∧
    (∀ t rest, c.data = t :: 0xFFFFFFFF#32 :: rest → c.data.length ≤ 32 →
      exec .cj s = .next (s.setCurrent
        { c with data := rest, ip := (if c.addrMode = .direct then t else t + c.ip), opMode := .signed, addrMode := .direct })) ∧
    (∀ t cond rest, c.data = t :: cond :: rest → c.data.length ≤ 32 → cond ≠ 0xFFFFFFFF#32 →
      exec .cj s = .next (s.setCurrent { c with data := rest, ip := c.ip + 4, opMode := .signed, addrMode := .direct }))

/-- R375, R376: RE, and CR on the condition 0xFFFFFFFF, jump to the popped top of the address stack, absolute in either address mode, which they leave
alone; any other condition makes CR advance by 4 without the address stack; an empty address stack raises AddressStackUnderflow. RE has no guard. -/
def Obligations.ReturnsPopTheAddressStack : Prop :=
  encode .re = [0x25] ∧ encode .cr = [0x26] ∧
  ∀ (s : State) (c : CoreState), s.current? = some c → TrapsByGuard .cr 1 0 s c ∧
    (∀ v arest, c.addrs = v :: arest →
      exec .re s = .next (s.setCurrent { c with addrs := arest, ip := v, opMode := .signed })) ∧
    (c.addrs = [] → exec .re s = .next (s.setStatus .addressStackUnderflow)) ∧
    (∀ rest, c.data = 0xFFFFFFFF#32 :: rest → c.data.length ≤ 32 →
      (∀ v arest, c.addrs = v :: arest →
        exec .cr s = .next (s.setCurrent { c with data := rest, addrs := arest, ip := v, opMode := .signed })) ∧
      (c.addrs = [] → exec .cr s = .next (s.setStatus .addressStackUnderflow))) ∧
    (∀ cond rest, c.data = cond :: rest → c.data.length ≤ 32 → cond ≠ 0xFFFFFFFF#32 →
      exec .cr s = .next (s.setCurrent { c with data := rest, ip := c.ip + 4, opMode := .signed }))

/-! ## 47_interrupt_io.md -/

/-- R400: SV pops an id and an address and stores the address in the shared table; an id of 128 or more raises IllegalInterruptId. -/
def Obligations.SvStoresTheHandlerAddress : Prop :=
  encode .sv = [0x27] ∧
  ∀ (s : State) (c : CoreState), s.current? = some c → TrapsByGuard .sv 2 0 s c ∧
    ∀ id addr rest, c.data = id :: addr :: rest → c.data.length ≤ 32 →
      (id.toNat < 128 → ∃ table : Vector Cell 128,
        exec .sv s = .next ((s.setCurrent { c with data := rest, ip := c.ip + 1, opMode := .signed }).setTable table) ∧
        ∀ k, k < 128 → table[k]? = if k = id.toNat then some addr else s.interruptTable[k]?) ∧
      (128 ≤ id.toNat → exec .sv s = .next (s.setStatus .illegalInterruptId))

/-- R401 to R403: HI clears and SI sets the shared enable bit. TI pops an id and has no other effect, whatever the bit and the id (R403, whose
missing range check on the id the spec marks as its own inference). -/
def Obligations.InterruptEnableAndTrigger : Prop :=
  encode .hi = [0x28] ∧ encode .si = [0x29] ∧ encode .ti = [0x2A] ∧
  ∀ (s : State) (c : CoreState), s.current? = some c → TrapsByGuard .ti 1 0 s c ∧
    exec .hi s = .next ((s.setCurrent { c with ip := c.ip + 1, opMode := .signed }).setIntEnabled false) ∧
    exec .si s = .next ((s.setCurrent { c with ip := c.ip + 1, opMode := .signed }).setIntEnabled true) ∧
    ∀ id rest, c.data = id :: rest → c.data.length ≤ 32 →
      exec .ti s = .next (s.setCurrent { c with data := rest, ip := c.ip + 1, opMode := .signed })

/-- R404, 60_exceptions.md R489, R490: II on an id of 16 or more, or on an empty slot, only pops the id; on a present slot the callback
runs on the state with the id popped and IP and modes as before, and II then goes on from the state the callback leaves. That the callback
is a free function of the callback log, the slot and the snapshot is the model's choice, log 4; that a callback that never returns is a
fault is the model's reading, log 10. -/
def Obligations.IiInvokesAPresentSlot : Prop :=
  encode .ii = [0x2B] ∧
  ∀ (s : State) (c : CoreState), s.current? = some c → TrapsByGuard .ii 1 0 s c ∧
    ∀ id rest, c.data = id :: rest → c.data.length ≤ 32 →
      (s.ioTable[id.toNat]? ≠ some true →
        exec .ii s = .next (s.setCurrent { c with data := rest, ip := c.ip + 1, opMode := .signed })) ∧
      (16 ≤ id.toNat → s.ioTable[id.toNat]? ≠ some true) ∧
      (s.ioTable[id.toNat]? = some true →
        let popped := s.setCurrent { c with data := rest }
        exec .ii s = match callbackResult (Config.hostCallback s.callbackLog id.toNat (snapshot popped)) (popped.logCallback id.toNat) with
          | .ok t => .next (t.setCurrent { c with data := rest, ip := c.ip + 1, opMode := .signed })
          | .error (.undefined r) => .refused r
          | .error (.stuck f) => .fault f
          | .error (.raise st) => .next (s.setStatus st))

/-- 60_exceptions.md R490, 20_memory.md R97: whatever a callback does, it changes only bytes of the I/O window, and no other state. -/
def Obligations.CallbacksChangeOnlyTheWindow : Prop :=
  ∀ (run : CallbackRun) (s t : State), s.memory.wf = true → callbackResult run s = .ok t →
    t = s.setMemory t.memory ∧ ∀ a, 192 ≤ a → t.memory.byteAt a = s.memory.byteAt a

/-- 60_exceptions.md R489, R490, 20_memory.md R96, R97: what each host operation of a callback does, for any operations `rest` after it. No
operation left leaves the state as it is; a read and a snapshot change nothing; a write sets its byte of the I/O window `[0, 192)` and
nothing else, and does nothing at another address; `run`, `load_program` and `construct` are Undefined(IllegalHostCall). That a callback is
such a list is the model's form, log 4, and that one that never returns is a fault is its reading, log 10. -/
def Obligations.CallbackOperationsTakeEffect : Prop :=
  ∀ (s : State) (rest : List HostCall), s.memory.wf = true →
    callbackResult (.returns []) s = .ok s ∧
    (∀ a, callbackResult (.returns (.ioReadByte a :: rest)) s = callbackResult (.returns rest) s) ∧
    callbackResult (.returns (.snapshot :: rest)) s = callbackResult (.returns rest) s ∧
    (∀ a b, a < 192 → ∃ m : Memory,
      callbackResult (.returns (.ioWriteByte a b :: rest)) s = callbackResult (.returns rest) (s.setMemory m) ∧
      m.wf = true ∧ ∀ x, m.byteAt x = if x = a then b else s.memory.byteAt x) ∧
    (∀ a b, 192 ≤ a → callbackResult (.returns (.ioWriteByte a b :: rest)) s = callbackResult (.returns rest) s) ∧
    callbackResult (.returns (.run :: rest)) s = .error (.undefined (.illegalHostCall .run)) ∧
    (∀ bytes n, callbackResult (.returns (.loadProgram bytes n :: rest)) s =
      .error (.undefined (.illegalHostCall (.loadProgram bytes n)))) ∧
    (∀ slots, callbackResult (.returns (.construct slots :: rest)) s = .error (.undefined (.illegalHostCall (.construct slots)))) ∧
    callbackResult .neverReturns s = .error (.stuck .callbackNeverReturns)

/-! ## 48_core_control.md -/

/-- R420: HS ends the run with SystemHalt and changes nothing, in every state. -/
def Obligations.HsEndsTheRun : Prop :=
  encode .hs = [0x2C] ∧ ∀ s : State, exec .hs s = .next (s.setStatus .systemHalt)

/-- R421, 10_state.md R52: IC re-initialises the core it names, inactive with IP at the address; its own core ends at the address plus 1; an id of
CORE_COUNT or more has no defined behaviour. -/
def Obligations.IcInitialisesACore : Prop :=
  encode .ic = [0x2D] ∧
  ∀ (s : State) (c : CoreState), s.current? = some c → TrapsByGuard .ic 2 0 s c ∧
    ∀ id addr rest, c.data = id :: addr :: rest → c.data.length ≤ 32 →
      (s.cores.length ≤ id.toNat → exec .ic s = .refused (.illegalCoreId id.toNat)) ∧
      (id.toNat = s.curCoreId →
        exec .ic s = .next (s.setCurrent
          { ip := addr + 1, active := false, opMode := .signed, addrMode := .direct, data := [], addrs := [], regs := .replicate _ 0#32 })) ∧
      (id.toNat < s.cores.length → id.toNat ≠ s.curCoreId →
        exec .ic s = .next ((s.setCore id.toNat
          { ip := addr, active := false, opMode := .signed, addrMode := .direct, data := [], addrs := [], regs := .replicate _ 0#32 }).setCurrent
          { c with data := rest, ip := c.ip + 1, opMode := .signed }))

/-- R422 to R424: AC activates and PC deactivates the core it names, the executing core included, and SC deactivates the executing core; nothing else of
the named core changes; an id of CORE_COUNT or more has no defined behaviour. -/
def Obligations.ActivationInstructions : Prop :=
  encode .ac = [0x2E] ∧ encode .pc = [0x2F] ∧ encode .sc = [0x30] ∧
  ∀ (s : State) (c : CoreState), s.current? = some c → TrapsByGuard .ac 1 0 s c ∧ TrapsByGuard .pc 1 0 s c ∧
    exec .sc s = .next (s.setCurrent { c with active := false, ip := c.ip + 1, opMode := .signed }) ∧
    ∀ id rest, c.data = id :: rest → c.data.length ≤ 32 →
      (s.cores.length ≤ id.toNat →
        exec .ac s = .refused (.illegalCoreId id.toNat) ∧ exec .pc s = .refused (.illegalCoreId id.toNat)) ∧
      (id.toNat = s.curCoreId →
        exec .ac s = .next (s.setCurrent { c with data := rest, active := true, ip := c.ip + 1, opMode := .signed }) ∧
        exec .pc s = .next (s.setCurrent { c with data := rest, active := false, ip := c.ip + 1, opMode := .signed })) ∧
      (∀ d, id.toNat ≠ s.curCoreId → s.cores[id.toNat]? = some d →
        exec .ac s = .next ((s.setCore id.toNat { d with active := true }).setCurrent
          { c with data := rest, ip := c.ip + 1, opMode := .signed }) ∧
        exec .pc s = .next ((s.setCore id.toNat { d with active := false }).setCurrent
          { c with data := rest, ip := c.ip + 1, opMode := .signed }))

/-! ## 49_register_block_mode.md -/

/-- R440, R441: RR pushes and WR writes the register of the executing core whose id is popped; an id of 24 or more raises IllegalRegisterId. -/
def Obligations.RegisterReadAndWrite : Prop :=
  encode .rr = [0x31] ∧ encode .wr = [0x32] ∧
  ∀ (s : State) (c : CoreState), s.current? = some c → TrapsByGuard .rr 1 1 s c ∧ TrapsByGuard .wr 2 0 s c ∧
    (∀ id rest, c.data = id :: rest → c.data.length ≤ 31 →
      (∀ v, c.regs[id.toNat]? = some v →
        exec .rr s = .next (s.setCurrent { c with data := v :: rest, ip := c.ip + 1, opMode := .signed })) ∧
      (24 ≤ id.toNat → exec .rr s = .next (s.setStatus .illegalRegisterId))) ∧
    (∀ id v rest, c.data = id :: v :: rest → c.data.length ≤ 32 →
      (id.toNat < 24 → ∃ regs : Vector Cell 24,
        exec .wr s = .next (s.setCurrent { c with data := rest, regs := regs, ip := c.ip + 1, opMode := .signed }) ∧
        ∀ k, k < 24 → regs[k]? = if k = id.toNat then some v else c.regs[k]?) ∧
      (24 ≤ id.toNat → exec .wr s = .next (s.setStatus .illegalRegisterId)))

/-- R442, 20_memory.md R92: CP copies as if every source byte were read first, whatever the overlap; every other byte is unchanged; a range that leaves
memory raises IllegalMemoryAddress and copies nothing. -/
def Obligations.CpCopiesTheBlock : Prop :=
  encode .cp = [0x33] ∧
  ∀ (s : State) (c : CoreState), s.memory.wf = true → s.current? = some c → TrapsByGuard .cp 3 0 s c ∧
    ∀ len dst orig rest, c.data = len :: dst :: orig :: rest → c.data.length ≤ 32 →
      (dst.toNat + len.toNat ≤ 65535 → orig.toNat + len.toNat ≤ 65535 → ∃ m : Memory,
        exec .cp s = .next ((s.setCurrent { c with data := rest, ip := c.ip + 1, opMode := .signed }).setMemory m) ∧
        ∀ x, m.byteAt x = if dst.toNat ≤ x ∧ x < dst.toNat + len.toNat then s.memory.byteAt (orig.toNat + (x - dst.toNat))
          else s.memory.byteAt x) ∧
      (65535 < dst.toNat + len.toNat ∨ 65535 < orig.toNat + len.toNat → exec .cp s = .next (s.setStatus .illegalMemoryAddress))

/-- R443, 20_memory.md R91: BC pushes all ones exactly when the two ranges hold the same bytes, and zero otherwise; a range that leaves memory raises
IllegalMemoryAddress. -/
def Obligations.BcComparesTheBlocks : Prop :=
  encode .bc = [0x34] ∧
  ∀ (s : State) (c : CoreState), s.current? = some c → TrapsByGuard .bc 3 1 s c ∧
    ∀ len dst orig rest, c.data = len :: dst :: orig :: rest → c.data.length ≤ 31 →
      (dst.toNat + len.toNat ≤ 65535 → orig.toNat + len.toNat ≤ 65535 → ∃ v : Cell,
        exec .bc s = .next (s.setCurrent { c with data := v :: rest, ip := c.ip + 1, opMode := .signed }) ∧
        ((∀ k, k < len.toNat → s.memory.byteAt (dst.toNat + k) = s.memory.byteAt (orig.toNat + k)) → v = 0xFFFFFFFF#32) ∧
        ((∃ k, k < len.toNat ∧ s.memory.byteAt (dst.toNat + k) ≠ s.memory.byteAt (orig.toNat + k)) → v = 0#32)) ∧
      (65535 < dst.toNat + len.toNat ∨ 65535 < orig.toNat + len.toNat → exec .bc s = .next (s.setStatus .illegalMemoryAddress))

/-- R260, R370, R444, R445: NO only advances IP, RL, UU and FF set the executing core's mode, in every state; NO and RL consume a pending operation
mode, and UU and FF leave the address mode alone. -/
def Obligations.NoAndModeSetters : Prop :=
  encode .no = [0x00] ∧ encode .rl = [0x20] ∧ encode .uu = [0x35] ∧ encode .ff = [0x36] ∧
  ∀ (s : State) (c : CoreState), s.current? = some c →
    exec .no s = .next (s.setCurrent { c with ip := c.ip + 1, opMode := .signed }) ∧
    exec .rl s = .next (s.setCurrent { c with addrMode := .relative, ip := c.ip + 1, opMode := .signed }) ∧
    exec .uu s = .next (s.setCurrent { c with ip := c.ip + 1, opMode := .unsigned }) ∧
    exec .ff s = .next (s.setCurrent { c with ip := c.ip + 1, opMode := .float })

/-! ## Host interface -/

/-- 20_memory.md R95 to R97: `load_program` writes the first `min(n, MEMORY_SIZE)` bytes from address 0 up and changes nothing else; the host reads and
writes single bytes of the window `[0, 192)` and is turned away elsewhere. 60_exceptions.md R505: `snapshot()` reports the whole state, a description
for each present slot and none for an empty one. -/
def Obligations.HostOperations : Prop :=
  ∀ s : State, s.memory.wf = true →
    ((snapshot s).memory = s.memory ∧ (snapshot s).interruptTable = s.interruptTable ∧ (snapshot s).cores = s.cores ∧
      (snapshot s).curCoreId = s.curCoreId ∧ (snapshot s).intEnabled = s.intEnabled ∧
      ∀ k, k < 16 → (snapshot s).ioDescriptions[k]? =
        some (if s.ioTable[k]? = some true then some (Config.ioDescription k) else none)) ∧
    (∀ (bytes : List Byte) (n : Nat), n ≤ bytes.length → ∃ m : Memory, loadProgram bytes n s = s.setMemory m ∧
      ∀ x, m.byteAt x = if x < min n 65535 then bytes.getD x 0#8 else s.memory.byteAt x) ∧
    (∀ a, ioReadByte a s = if a < 192 then .ok (s.memory.byteAt a) else .error .illegalMemoryAddress) ∧
    (∀ a b, (a < 192 → ∃ m : Memory, ioWriteByte a b s = (.none, s.setMemory m) ∧
        ∀ x, m.byteAt x = if x = a then b else s.memory.byteAt x) ∧
      (192 ≤ a → ioWriteByte a b s = (.illegalMemoryAddress, s)))
end

