-- ==== Sys2Proof/Laws/Alu.lean ====
section
/-! SUPPORT. The integer modes of the arithmetic unit as bit-vector operations: what each function gives, once, so that no proof
about an instruction unfolds a view of a cell. -/

namespace Sys2Proof.Machine

theorem cellU32_toNat (c : Cell) : cellU32 c.toNat = c := by simp [cellU32]

theorem cellI32_toInt (c : Cell) : cellI32 c.toInt = c := by simp [cellI32]

/-- The number that four bytes make, the first least significant. -/
theorem ofBytes_toNat (b0 b1 b2 b3 : Byte) :
    (ofBytes b0 b1 b2 b3).toNat = b0.toNat + 2 ^ 8 * b1.toNat + 2 ^ 16 * b2.toNat + 2 ^ 24 * b3.toNat := by
  simp only [ofBytes, BitVec.toNat_append, ← Nat.shiftLeft_add_eq_or_of_lt b0.isLt, ← Nat.shiftLeft_add_eq_or_of_lt b1.isLt,
    ← Nat.shiftLeft_add_eq_or_of_lt b2.isLt]
  simp only [Nat.shiftLeft_eq]
  omega

theorem cellU8_toNat (b : Byte) : (cellU8 b).toNat = b.toNat := by
  have := b.isLt
  simp only [cellU8, ofBytes, BitVec.toNat_append, BitVec.toNat_ofNat]
  simp

/-- AD in both integer modes: the same bits (40_cell_alu.md R173). -/
theorem add_integer {m : OpMode} (l r : Cell) (h : m ≠ .float) : add l r m = l + r := by
  cases m <;> first | exact absurd rfl h | (apply BitVec.eq_of_toNat_eq; simp [add, cellU32, toU32])

/-- SU in both integer modes. -/
theorem subtract_integer {m : OpMode} (l r : Cell) (h : m ≠ .float) : subtract l r m = l - r := by
  cases m <;> first
    | exact absurd rfl h
    | (show BitVec.ofInt 32 ((l.toNat : Int) - r.toNat) = _
       apply BitVec.eq_of_toNat_eq
       have := l.isLt; have := r.isLt
       rw [BitVec.toNat_ofInt, BitVec.toNat_sub]
       omega)

/-- MU in both integer modes. -/
theorem multiply_integer {m : OpMode} (l r : Cell) (h : m ≠ .float) : multiply l r m = l * r := by
  cases m <;> first | exact absurd rfl h | (apply BitVec.eq_of_toNat_eq; simp [multiply, cellU32, toU32])

/-- The zero test of the integer modes is on the pattern (R179). -/
theorem zeroDivisor_integer {m : OpMode} (r : Cell) (h : m ≠ .float) : zeroDivisor r m = decide (r = 0#32) := by
  cases m <;> first | exact absurd rfl h | simp [zeroDivisor, toU32, ← BitVec.toNat_inj]

theorem equal_eq (l r : Cell) : equal l r = if l = r then 0xFFFFFFFF#32 else 0#32 := by
  by_cases h : l = r <;> simp [equal, cellBool, toU32, h]
  rw [BitVec.toNat_inj]; exact h

theorem notEqual_eq (l r : Cell) : notEqual l r = if l = r then 0#32 else 0xFFFFFFFF#32 := by
  by_cases h : l = r <;> simp [notEqual, cellBool, toU32, h]
  rw [BitVec.toNat_inj]; exact h

/-- SL in both integer modes (R185). -/
theorem shiftLeft_integer {m : OpMode} (l r : Cell) (h : m ≠ .float) : shiftLeft l r m = .ok (l <<< (r.toNat % 32)) := by
  cases m <;> first
    | exact absurd rfl h
    | (simp only [shiftLeft, shiftCount, cellU32, toU32]
       congr 1; apply BitVec.eq_of_toNat_eq; simp [Nat.shiftLeft_eq])

/-- SR in SIGNED mode is arithmetic (R185). -/
theorem shiftRight_signed (l r : Cell) : shiftRight l r .signed = .ok (l.sshiftRight (r.toNat % 32)) := by
  simp only [shiftRight, shiftCount, toU32, toI32, cellI32]
  congr 1
  have h : (l.sshiftRight (r.toNat % 32)).toInt = Int.fdiv l.toInt (2 ^ (r.toNat % 32)) := by
    rw [BitVec.toInt_sshiftRight, Int.shiftRight_eq_div_pow, Int.fdiv_eq_ediv_of_nonneg _ (by positivity)]
    norm_cast
  rw [← h, BitVec.ofInt_toInt]

/-- SR in UNSIGNED mode is logical (R185). -/
theorem shiftRight_unsigned (l r : Cell) : shiftRight l r .unsigned = .ok (l >>> (r.toNat % 32)) := by
  simp only [shiftRight, shiftCount, toU32, cellU32]
  congr 1
  apply BitVec.eq_of_toNat_eq
  simp [Nat.shiftRight_eq_div_pow]
  exact Nat.lt_of_le_of_lt (Nat.div_le_self _ _) l.isLt

theorem bitwiseNot_eq (v : Cell) : bitwiseNot v = ~~~v := by
  apply BitVec.eq_of_toNat_eq
  have := v.isLt
  simp [bitwiseNot, cellU32, toU32]
  omega

/-- PA, as a number (R190). -/
theorem pack_toNat (a b c d : Cell) : (pack a b c d).toNat =
    d.toNat % 256 + 2 ^ 8 * (c.toNat % 256) + 2 ^ 16 * (b.toNat % 256) + 2 ^ 24 * (a.toNat % 256) := by
  simp [pack, ofBytes_toNat, toByte, byteOf]

/-- One cell of UN, as a number (R191). -/
theorem unpackByte_toNat (v : Cell) (i : Nat) : (unpackByte v i).toNat = v.toNat / 2 ^ (8 * i) % 256 := by
  rw [unpackByte, cellU8_toNat]
  simp [byteOf, Nat.shiftRight_eq_div_pow]

/-- A jump target (46_control.md R377). -/
theorem jumpTarget_eq (c : CoreState) (t : Cell) : jumpTarget c t = if c.addrMode = .direct then t else t + c.ip := by
  cases h : c.addrMode <;> simp [jumpTarget, h]
  apply BitVec.eq_of_toNat_eq; simp [cellU32, toU32]

/-- A return address (46_control.md R378). -/
theorem returnAddress_eq (c : CoreState) : returnAddress c = c.ip + 4#32 := by
  apply BitVec.eq_of_toNat_eq; simp [returnAddress, cellU32, toU32]

/-- Both float zeros, and nothing else (R179). -/
theorem isFloatZero_iff (c : Cell) : isFloatZero c = true ↔ c = 0#32 ∨ c = 0x80000000#32 := by
  have e : (c.extractLsb' 23 8).toNat = c.toNat / 2 ^ 23 % 256 := by simp [Nat.shiftRight_eq_div_pow]
  have f : (c.extractLsb' 0 23).toNat = c.toNat % 2 ^ 23 := by simp
  constructor
  · simp only [isFloatZero, toF32, e, f, ← BitVec.toNat_inj, Bool.or_eq_true, decide_eq_true_eq]
    have := c.isLt
    intro h
    split at h
    · split at h <;> simp at h
    · split at h
      · simp at h; simp; omega
      · simp at h
  · rintro (rfl | rfl) <;> decide

end Sys2Proof.Machine
end

