-- ==== Sys2Proof/Laws/State.lean ====
section
/-! SUPPORT. One lemma per field and update of `State`, and what the current core is after each. -/

namespace Sys2Proof.Machine

@[simp] theorem State.setCore_memory (s : State) (id : Nat) (c : CoreState) : (s.setCore id c).memory = s.memory := rfl
@[simp] theorem State.setCore_interruptTable (s : State) (id : Nat) (c : CoreState) : (s.setCore id c).interruptTable = s.interruptTable := rfl
@[simp] theorem State.setCore_intEnabled (s : State) (id : Nat) (c : CoreState) : (s.setCore id c).intEnabled = s.intEnabled := rfl
@[simp] theorem State.setCore_ioTable (s : State) (id : Nat) (c : CoreState) : (s.setCore id c).ioTable = s.ioTable := rfl
@[simp] theorem State.setCore_cores (s : State) (id : Nat) (c : CoreState) : (s.setCore id c).cores = s.cores.set id c := rfl
@[simp] theorem State.setCore_curCoreId (s : State) (id : Nat) (c : CoreState) : (s.setCore id c).curCoreId = s.curCoreId := rfl
@[simp] theorem State.setCore_status (s : State) (id : Nat) (c : CoreState) : (s.setCore id c).status = s.status := rfl
@[simp] theorem State.setCore_callbackLog (s : State) (id : Nat) (c : CoreState) : (s.setCore id c).callbackLog = s.callbackLog := rfl

@[simp] theorem State.setCurrent_memory (s : State) (c : CoreState) : (s.setCurrent c).memory = s.memory := rfl
@[simp] theorem State.setCurrent_interruptTable (s : State) (c : CoreState) : (s.setCurrent c).interruptTable = s.interruptTable := rfl
@[simp] theorem State.setCurrent_intEnabled (s : State) (c : CoreState) : (s.setCurrent c).intEnabled = s.intEnabled := rfl
@[simp] theorem State.setCurrent_ioTable (s : State) (c : CoreState) : (s.setCurrent c).ioTable = s.ioTable := rfl
@[simp] theorem State.setCurrent_cores (s : State) (c : CoreState) : (s.setCurrent c).cores = s.cores.set s.curCoreId c := rfl
@[simp] theorem State.setCurrent_curCoreId (s : State) (c : CoreState) : (s.setCurrent c).curCoreId = s.curCoreId := rfl
@[simp] theorem State.setCurrent_status (s : State) (c : CoreState) : (s.setCurrent c).status = s.status := rfl
@[simp] theorem State.setCurrent_callbackLog (s : State) (c : CoreState) : (s.setCurrent c).callbackLog = s.callbackLog := rfl

@[simp] theorem State.setMemory_memory (s : State) (m : Memory) : (s.setMemory m).memory = m := rfl
@[simp] theorem State.setMemory_interruptTable (s : State) (m : Memory) : (s.setMemory m).interruptTable = s.interruptTable := rfl
@[simp] theorem State.setMemory_intEnabled (s : State) (m : Memory) : (s.setMemory m).intEnabled = s.intEnabled := rfl
@[simp] theorem State.setMemory_ioTable (s : State) (m : Memory) : (s.setMemory m).ioTable = s.ioTable := rfl
@[simp] theorem State.setMemory_cores (s : State) (m : Memory) : (s.setMemory m).cores = s.cores := rfl
@[simp] theorem State.setMemory_curCoreId (s : State) (m : Memory) : (s.setMemory m).curCoreId = s.curCoreId := rfl
@[simp] theorem State.setMemory_status (s : State) (m : Memory) : (s.setMemory m).status = s.status := rfl
@[simp] theorem State.setMemory_callbackLog (s : State) (m : Memory) : (s.setMemory m).callbackLog = s.callbackLog := rfl

@[simp] theorem State.setTable_memory (s : State) (t : Vector Cell Config.interruptTableSize) : (s.setTable t).memory = s.memory := rfl
@[simp] theorem State.setTable_interruptTable (s : State) (t : Vector Cell Config.interruptTableSize) : (s.setTable t).interruptTable = t := rfl
@[simp] theorem State.setTable_intEnabled (s : State) (t : Vector Cell Config.interruptTableSize) : (s.setTable t).intEnabled = s.intEnabled := rfl
@[simp] theorem State.setTable_ioTable (s : State) (t : Vector Cell Config.interruptTableSize) : (s.setTable t).ioTable = s.ioTable := rfl
@[simp] theorem State.setTable_cores (s : State) (t : Vector Cell Config.interruptTableSize) : (s.setTable t).cores = s.cores := rfl
@[simp] theorem State.setTable_curCoreId (s : State) (t : Vector Cell Config.interruptTableSize) : (s.setTable t).curCoreId = s.curCoreId := rfl
@[simp] theorem State.setTable_status (s : State) (t : Vector Cell Config.interruptTableSize) : (s.setTable t).status = s.status := rfl
@[simp] theorem State.setTable_callbackLog (s : State) (t : Vector Cell Config.interruptTableSize) : (s.setTable t).callbackLog = s.callbackLog := rfl

@[simp] theorem State.setIntEnabled_memory (s : State) (b : Bool) : (s.setIntEnabled b).memory = s.memory := rfl
@[simp] theorem State.setIntEnabled_interruptTable (s : State) (b : Bool) : (s.setIntEnabled b).interruptTable = s.interruptTable := rfl
@[simp] theorem State.setIntEnabled_intEnabled (s : State) (b : Bool) : (s.setIntEnabled b).intEnabled = b := rfl
@[simp] theorem State.setIntEnabled_ioTable (s : State) (b : Bool) : (s.setIntEnabled b).ioTable = s.ioTable := rfl
@[simp] theorem State.setIntEnabled_cores (s : State) (b : Bool) : (s.setIntEnabled b).cores = s.cores := rfl
@[simp] theorem State.setIntEnabled_curCoreId (s : State) (b : Bool) : (s.setIntEnabled b).curCoreId = s.curCoreId := rfl
@[simp] theorem State.setIntEnabled_status (s : State) (b : Bool) : (s.setIntEnabled b).status = s.status := rfl
@[simp] theorem State.setIntEnabled_callbackLog (s : State) (b : Bool) : (s.setIntEnabled b).callbackLog = s.callbackLog := rfl

@[simp] theorem State.select_memory (s : State) (id : Nat) : (s.select id).memory = s.memory := rfl
@[simp] theorem State.select_interruptTable (s : State) (id : Nat) : (s.select id).interruptTable = s.interruptTable := rfl
@[simp] theorem State.select_intEnabled (s : State) (id : Nat) : (s.select id).intEnabled = s.intEnabled := rfl
@[simp] theorem State.select_ioTable (s : State) (id : Nat) : (s.select id).ioTable = s.ioTable := rfl
@[simp] theorem State.select_cores (s : State) (id : Nat) : (s.select id).cores = s.cores := rfl
@[simp] theorem State.select_curCoreId (s : State) (id : Nat) : (s.select id).curCoreId = id := rfl
@[simp] theorem State.select_status (s : State) (id : Nat) : (s.select id).status = s.status := rfl
@[simp] theorem State.select_callbackLog (s : State) (id : Nat) : (s.select id).callbackLog = s.callbackLog := rfl

@[simp] theorem State.setStatus_memory (s : State) (st : Status) : (s.setStatus st).memory = s.memory := rfl
@[simp] theorem State.setStatus_interruptTable (s : State) (st : Status) : (s.setStatus st).interruptTable = s.interruptTable := rfl
@[simp] theorem State.setStatus_intEnabled (s : State) (st : Status) : (s.setStatus st).intEnabled = s.intEnabled := rfl
@[simp] theorem State.setStatus_ioTable (s : State) (st : Status) : (s.setStatus st).ioTable = s.ioTable := rfl
@[simp] theorem State.setStatus_cores (s : State) (st : Status) : (s.setStatus st).cores = s.cores := rfl
@[simp] theorem State.setStatus_curCoreId (s : State) (st : Status) : (s.setStatus st).curCoreId = s.curCoreId := rfl
@[simp] theorem State.setStatus_status (s : State) (st : Status) : (s.setStatus st).status = st := rfl
@[simp] theorem State.setStatus_callbackLog (s : State) (st : Status) : (s.setStatus st).callbackLog = s.callbackLog := rfl

@[simp] theorem State.logCallback_memory (s : State) (id : Nat) : (s.logCallback id).memory = s.memory := rfl
@[simp] theorem State.logCallback_interruptTable (s : State) (id : Nat) : (s.logCallback id).interruptTable = s.interruptTable := rfl
@[simp] theorem State.logCallback_intEnabled (s : State) (id : Nat) : (s.logCallback id).intEnabled = s.intEnabled := rfl
@[simp] theorem State.logCallback_ioTable (s : State) (id : Nat) : (s.logCallback id).ioTable = s.ioTable := rfl
@[simp] theorem State.logCallback_cores (s : State) (id : Nat) : (s.logCallback id).cores = s.cores := rfl
@[simp] theorem State.logCallback_curCoreId (s : State) (id : Nat) : (s.logCallback id).curCoreId = s.curCoreId := rfl
@[simp] theorem State.logCallback_status (s : State) (id : Nat) : (s.logCallback id).status = s.status := rfl
@[simp] theorem State.logCallback_callbackLog (s : State) (id : Nat) : (s.logCallback id).callbackLog = id :: s.callbackLog := rfl

@[simp] theorem State.setMemory_current (s : State) (m : Memory) : (s.setMemory m).current? = s.current? := rfl
@[simp] theorem State.setTable_current (s : State) (t : Vector Cell Config.interruptTableSize) :
    (s.setTable t).current? = s.current? := rfl
@[simp] theorem State.setIntEnabled_current (s : State) (b : Bool) : (s.setIntEnabled b).current? = s.current? := rfl
@[simp] theorem State.setStatus_current (s : State) (st : Status) : (s.setStatus st).current? = s.current? := rfl
@[simp] theorem State.logCallback_current (s : State) (id : Nat) : (s.logCallback id).current? = s.current? := rfl
@[simp] theorem State.select_current (s : State) (id : Nat) : (s.select id).current? = s.cores[id]? := rfl

/-- A current core stays one when it is written. -/
@[simp] theorem State.setCurrent_current (s : State) (c : CoreState) :
    (s.setCurrent c).current? = s.current?.map fun _ => c := by
  simp only [State.current?, setCurrent_cores, setCurrent_curCoreId, List.getElem?_set_self']
  rfl

/-- Writing core `id` changes the current core exactly when it is core `id`. -/
theorem State.setCore_current (s : State) (id : Nat) (c : CoreState) :
    (s.setCore id c).current? = if id = s.curCoreId then s.current?.map fun _ => c else s.current? := by
  by_cases h : id = s.curCoreId
  · subst h; rw [if_pos rfl]; exact s.setCurrent_current c
  · simp [State.current?, h]

/-- The last write of the current core wins. -/
@[simp] theorem State.setCurrent_setCurrent (s : State) (c d : CoreState) : (s.setCurrent c).setCurrent d = s.setCurrent d := by
  simp [State.setCurrent, State.setCore]

/-- Writing core `id` and the current core in either order is the same, where they are two cores. -/
theorem State.setCore_setCurrent_comm (s : State) (id : Nat) (c d : CoreState) (h : id ≠ s.curCoreId) :
    (s.setCurrent d).setCore id c = (s.setCore id c).setCurrent d := by
  simp [State.setCurrent, State.setCore, List.set_comm _ _ h]

/-- Writing the current core by its id is writing the current core. -/
theorem State.setCore_eq_setCurrent (s : State) (c : CoreState) : s.setCore s.curCoreId c = s.setCurrent c := rfl

/-- A write of the current core with what it holds changes nothing. -/
theorem State.setCurrent_self (s : State) (c : CoreState) (h : s.current? = some c) : s.setCurrent c = s := by
  have hc : s.cores.set s.curCoreId c = s.cores := by
    obtain ⟨hl, rfl⟩ := List.getElem?_eq_some_iff.1 h
    exact List.set_getElem_self hl
  simp [State.setCurrent, State.setCore, hc]

@[simp] theorem State.setMemory_setCurrent (s : State) (m : Memory) (c : CoreState) :
    (s.setMemory m).setCurrent c = (s.setCurrent c).setMemory m := rfl
@[simp] theorem State.setTable_setCurrent (s : State) (t : Vector Cell Config.interruptTableSize) (c : CoreState) :
    (s.setTable t).setCurrent c = (s.setCurrent c).setTable t := rfl
@[simp] theorem State.setIntEnabled_setCurrent (s : State) (b : Bool) (c : CoreState) :
    (s.setIntEnabled b).setCurrent c = (s.setCurrent c).setIntEnabled b := rfl


@[simp] theorem CoreState.default_ip (ip : Cell) : (CoreState.default ip).ip = ip := rfl
@[simp] theorem CoreState.default_active (ip : Cell) : (CoreState.default ip).active = false := rfl
@[simp] theorem CoreState.default_opMode (ip : Cell) : (CoreState.default ip).opMode = .signed := rfl
@[simp] theorem CoreState.default_addrMode (ip : Cell) : (CoreState.default ip).addrMode = .direct := rfl
@[simp] theorem CoreState.default_data (ip : Cell) : (CoreState.default ip).data = [] := rfl
@[simp] theorem CoreState.default_addrs (ip : Cell) : (CoreState.default ip).addrs = [] := rfl
@[simp] theorem CoreState.default_regs (ip : Cell) : (CoreState.default ip).regs = .replicate _ 0#32 := rfl

end Sys2Proof.Machine
end

