-- ==== Sys2Proof/Laws/Memory.lean ====
section
/-! SUPPORT. Memory: every operation keeps the canonical form, a read after a write gives the value written, a write leaves
every other address alone, and equal contents are equal data. -/

namespace Sys2Proof.Machine

/-- A canonical list lists nothing below where it starts. -/
theorem lookup_eq_none_of_canonical {lo : Nat} {l : List Host.Cell} (h : canonicalFrom lo l = true) {a : Nat} (ha : a < lo) :
    l.lookup a = none := by
  induction l generalizing lo with
  | nil => rfl
  | cons e rest ih =>
    obtain ⟨x, y⟩ := e
    simp only [canonicalFrom, Bool.and_eq_true, decide_eq_true_eq] at h
    have hx : (a == x) = false := by simp; omega
    simp [List.lookup, hx, ih h.2 (by omega)]

theorem canonicalFrom_mono {lo lo' : Nat} {l : List Host.Cell} (h : canonicalFrom lo l = true) (hl : lo' ≤ lo) :
    canonicalFrom lo' l = true := by
  cases l with
  | nil => rfl
  | cons e rest =>
    simp only [canonicalFrom, Bool.and_eq_true, decide_eq_true_eq] at h ⊢
    exact ⟨⟨⟨by omega, h.1.1.2⟩, h.1.2⟩, h.2⟩

theorem insertCell_canonical {lo a : Nat} {b : Byte} {l : List Host.Cell} (h : canonicalFrom lo l = true) (hlo : lo ≤ a)
    (ha : a < Config.memorySize) : canonicalFrom lo (insertCell a b l) = true := by
  induction l generalizing lo with
  | nil =>
    by_cases hb : b = 0#8
    · simp [insertCell, canonicalFrom, hb]
    · simp only [insertCell, hb, if_false, canonicalFrom, Bool.and_eq_true, decide_eq_true_eq]
      exact ⟨⟨⟨hlo, ha⟩, hb⟩, trivial⟩
  | cons e rest ih =>
    obtain ⟨x, y⟩ := e
    simp only [canonicalFrom, Bool.and_eq_true, decide_eq_true_eq] at h
    obtain ⟨⟨⟨h1, h2⟩, h3⟩, h4⟩ := h
    rcases Nat.lt_trichotomy a x with hax | hax | hax
    · by_cases hb : b = 0#8
      · simp only [insertCell, hax, if_true, hb, canonicalFrom, Bool.and_eq_true, decide_eq_true_eq]
        exact ⟨⟨⟨h1, h2⟩, h3⟩, h4⟩
      · simp only [insertCell, hax, if_true, hb, if_false, canonicalFrom, Bool.and_eq_true, decide_eq_true_eq]
        exact ⟨⟨⟨hlo, ha⟩, hb⟩, ⟨⟨⟨hax, h2⟩, h3⟩, h4⟩⟩
    · subst hax
      by_cases hb : b = 0#8
      · simp only [insertCell, lt_irrefl, if_false, if_true, hb]
        exact canonicalFrom_mono h4 (by omega)
      · simp only [insertCell, lt_irrefl, if_false, if_true, hb, canonicalFrom, Bool.and_eq_true, decide_eq_true_eq]
        exact ⟨⟨⟨h1, h2⟩, hb⟩, h4⟩
    · have h5 : ¬ a < x := by omega
      have h6 : a ≠ x := by omega
      simp only [insertCell, h5, h6, if_false, canonicalFrom, Bool.and_eq_true, decide_eq_true_eq]
      exact ⟨⟨⟨h1, h2⟩, h3⟩, ih h4 (by omega)⟩

theorem lookup_insertCell {lo a : Nat} {b : Byte} {l : List Host.Cell} (h : canonicalFrom lo l = true) (x : Nat) :
    ((insertCell a b l).lookup x).getD 0#8 = if x = a then b else (l.lookup x).getD 0#8 := by
  induction l generalizing lo with
  | nil =>
    by_cases hb : b = 0#8
    · simp [insertCell, hb]
    · by_cases hx : x = a
      · simp [insertCell, hb, hx]
      · simp [insertCell, hb, hx, List.lookup, beq_eq_false_iff_ne.2 hx]
  | cons e rest ih =>
    obtain ⟨u, y⟩ := e
    simp only [canonicalFrom, Bool.and_eq_true, decide_eq_true_eq] at h
    obtain ⟨⟨⟨h1, h2⟩, h3⟩, h4⟩ := h
    rcases Nat.lt_trichotomy a u with hau | hau | hau
    · have hnone : ((u, y) :: rest).lookup a = none := by
        have : (a == u) = false := by simp; omega
        simp [List.lookup, this, lookup_eq_none_of_canonical h4 (show a < u + 1 by omega)]
      by_cases hb : b = 0#8
      · simp only [insertCell, hau, if_true, hb]
        by_cases hx : x = a
        · subst hx; simp [hnone]
        · simp [hx]
      · simp only [insertCell, hau, if_true, hb, if_false]
        by_cases hx : x = a
        · subst hx; simp [List.lookup]
        · rw [List.lookup, beq_eq_false_iff_ne.2 hx]; simp [hx]
    · subst hau
      by_cases hb : b = 0#8
      · simp only [insertCell, lt_irrefl, if_false, if_true, hb]
        by_cases hx : x = a
        · subst hx; simp [lookup_eq_none_of_canonical h4 (show x < x + 1 by omega)]
        · simp [List.lookup, beq_eq_false_iff_ne.2 hx, hx]
      · simp only [insertCell, lt_irrefl, if_false, if_true, hb]
        by_cases hx : x = a
        · subst hx; simp [List.lookup]
        · simp [List.lookup, beq_eq_false_iff_ne.2 hx, hx]
    · have h5 : ¬ a < u := by omega
      have h6 : a ≠ u := by omega
      simp only [insertCell, h5, h6, if_false]
      by_cases hxu : x = u
      · subst hxu; simp [List.lookup, Ne.symm h6]
      · simp only [List.lookup, beq_eq_false_iff_ne.2 hxu]
        exact ih h4

/-- A store of one byte keeps the canonical form. -/
theorem Memory.writeByte_wf {m : Memory} (h : m.wf = true) (a : Nat) (b : Byte) : (m.writeByte a b).wf = true := by
  unfold Memory.writeByte
  split
  · exact insertCell_canonical h (Nat.zero_le _) ‹_›
  · exact h

/-- A store of a range keeps the canonical form. -/
theorem Memory.writeRange_wf {m : Memory} (h : m.wf = true) (a : Nat) (bs : List Byte) : (m.writeRange a bs).wf = true := by
  induction bs generalizing m a with
  | nil => exact h
  | cons b rest ih => exact ih (Memory.writeByte_wf h a b) (a + 1)

/-- A store of a cell keeps the canonical form. -/
theorem Memory.writeCell_wf {m : Memory} (h : m.wf = true) (a : Nat) (w : Width) (v : Cell) : (m.writeCell a w v).wf = true :=
  Memory.writeRange_wf h a _

/-- A block copy keeps the canonical form. -/
theorem Memory.copyBlock_wf {m : Memory} (h : m.wf = true) (len dst orig : Nat) : (m.copyBlock len dst orig).wf = true :=
  Memory.writeRange_wf h dst _

/-- The memory after reset is in canonical form. -/
theorem Memory.construct_wf (count : Config.CoreCount) (slots : Vector Bool Config.ioTableSize) :
    (State.construct count slots).memory.wf = true := rfl

/-- A store of one byte is seen at its address and nowhere else. -/
theorem Memory.byteAt_writeByte {m : Memory} (h : m.wf = true) {a : Nat} (ha : a < Config.memorySize) (b : Byte) (x : Nat) :
    (m.writeByte a b).byteAt x = if x = a then b else m.byteAt x := by
  simp only [Memory.writeByte, ha, if_true, Memory.byteAt]
  exact lookup_insertCell h x

/-- A store of a range is seen at its addresses and nowhere else. -/
theorem Memory.byteAt_writeRange {m : Memory} (h : m.wf = true) (a : Nat) (bs : List Byte) (hr : a + bs.length ≤ Config.memorySize)
    (x : Nat) : (m.writeRange a bs).byteAt x = if a ≤ x ∧ x < a + bs.length then bs.getD (x - a) 0#8 else m.byteAt x := by
  induction bs generalizing m a with
  | nil => rw [Memory.writeRange, if_neg (by simp only [List.length_nil]; omega)]
  | cons b rest ih =>
    simp only [List.length_cons] at hr
    rw [Memory.writeRange, ih (Memory.writeByte_wf h a b) (a + 1) (by omega), Memory.byteAt_writeByte h (by omega)]
    by_cases h1 : x = a
    · subst h1
      rw [if_neg (by omega), if_pos rfl, if_pos (by simp only [List.length_cons]; omega), Nat.sub_self]
      rfl
    · by_cases h2 : a + 1 ≤ x ∧ x < a + 1 + rest.length
      · rw [if_pos h2, if_pos (by rw [List.length_cons]; omega)]
        obtain ⟨k, hk⟩ : ∃ k, x - a = k + 1 := ⟨x - a - 1, by omega⟩
        rw [hk, List.getD_cons_succ, show x - (a + 1) = k by omega]
      · rw [if_neg h2, if_neg h1, if_neg (by rw [List.length_cons]; omega)]

@[simp] theorem Memory.readRange_length (m : Memory) (a n : Nat) : (m.readRange a n).length = n := by
  induction n generalizing a with
  | zero => rfl
  | succ n ih => simp [Memory.readRange, ih]

/-- Byte `k` of a range read from `a` is the byte at `a + k`. -/
theorem Memory.readRange_getElem? (m : Memory) (a n k : Nat) : (m.readRange a n)[k]? = if k < n then some (m.byteAt (a + k)) else none := by
  induction n generalizing a k with
  | zero => simp [Memory.readRange]
  | succ n ih =>
    cases k with
    | zero => simp [Memory.readRange]
    | succ k => simp [Memory.readRange, ih, Nat.add_assoc, Nat.add_comm 1 k]

/-- Memories in canonical form that read the same everywhere are the same data. -/
theorem canonical_ext {lo : Nat} {l l' : List Host.Cell} (h : canonicalFrom lo l = true) (h' : canonicalFrom lo l' = true)
    (he : ∀ a, (l.lookup a).getD 0#8 = (l'.lookup a).getD 0#8) : l = l' := by
  induction l generalizing lo l' with
  | nil =>
    cases l' with
    | nil => rfl
    | cons e rest =>
      obtain ⟨x, y⟩ := e
      simp only [canonicalFrom, Bool.and_eq_true, decide_eq_true_eq] at h'
      have := he x
      simp [List.lookup] at this
      exact absurd this.symm h'.1.2
  | cons e rest ih =>
    obtain ⟨x, y⟩ := e
    have hc := h
    simp only [canonicalFrom, Bool.and_eq_true, decide_eq_true_eq] at h
    cases l' with
    | nil =>
      have := he x
      simp [List.lookup] at this
      exact absurd this h.1.2
    | cons e' rest' =>
      obtain ⟨x', y'⟩ := e'
      have hc' := h'
      simp only [canonicalFrom, Bool.and_eq_true, decide_eq_true_eq] at h'
      have hxx : x = x' := by
        rcases Nat.lt_trichotomy x x' with hlt | heq | hgt
        · have := he x
          have hb : (x == x') = false := by simp; omega
          simp [List.lookup, hb, lookup_eq_none_of_canonical h'.2 (show x < x' + 1 by omega)] at this
          exact absurd this h.1.2
        · exact heq
        · have := he x'
          have hb : (x' == x) = false := by simp; omega
          simp [List.lookup, hb, lookup_eq_none_of_canonical h.2 (show x' < x + 1 by omega)] at this
          exact absurd this.symm h'.1.2
      subst hxx
      have hy : y = y' := by simpa [List.lookup] using he x
      subst hy
      rw [ih h.2 h'.2 fun a => by
        by_cases ha : a = x
        · subst ha
          rw [lookup_eq_none_of_canonical h.2 (Nat.lt_succ_self _), lookup_eq_none_of_canonical h'.2 (Nat.lt_succ_self _)]
        · simpa [List.lookup, beq_eq_false_iff_ne.2 ha] using he a]

end Sys2Proof.Machine
end

