-- ==== Sys2Proof/Laws/Ops.lean ====
section
/-! SUPPORT. Each named operation once: what it answers in every state (the `_apply` equations), so that no proof about an
instruction unfolds an operation, and the reading of a whole handler as a transaction. -/

namespace Sys2Proof.Machine

/-- One statement of a handler after another. -/
theorem handler_bind_apply {α β : Type} (x : Handler α) (f : α → Handler β) (s : State) :
    (x >>= f) s = match x s with
      | .ok (a, s') => f a s'
      | .error e => .error e := by
  show StateT.bind x f s = _
  unfold StateT.bind
  show Except.bind (x s) _ = _
  cases x s <;> rfl

theorem handler_pure_apply {α : Type} (a : α) (s : State) : (pure a : Handler α) s = .ok (a, s) := rfl

/-- A handler whose first statement completes goes on in the state that statement left. -/
theorem handler_bind_of_ok {α β : Type} {x : Handler α} {f : α → Handler β} {s s' : State} {a : α} (h : x s = .ok (a, s')) :
    (x >>= f) s = f a s' := by rw [handler_bind_apply, h]

/-- A handler ends as its first statement does when that does not complete. -/
theorem handler_bind_of_error {α β : Type} {x : Handler α} {f : α → Handler β} {s : State} {e : Stop} (h : x s = .error e) :
    (x >>= f) s = .error e := by rw [handler_bind_apply, h]

/-- A sequence completes exactly when both parts do. -/
theorem handler_bind_ok_iff {α β : Type} {x : Handler α} {f : α → Handler β} {s t : State} {b : β} :
    (x >>= f) s = .ok (b, t) ↔ ∃ a s', x s = .ok (a, s') ∧ f a s' = .ok (b, t) := by
  rw [handler_bind_apply]
  cases hx : x s with
  | error e => simp
  | ok p =>
    obtain ⟨a, s'⟩ := p
    constructor
    · exact fun h => ⟨a, s', rfl, h⟩
    · rintro ⟨a', s'', h, h'⟩
      cases h
      exact h'

/-- A sequence stops where its first part does, or where its second part does after the first. -/
theorem handler_bind_error_iff {α β : Type} {x : Handler α} {f : α → Handler β} {s : State} {e : Stop} :
    (x >>= f) s = .error e ↔ x s = .error e ∨ ∃ a s', x s = .ok (a, s') ∧ f a s' = .error e := by
  rw [handler_bind_apply]
  cases hx : x s with
  | error e' => simp
  | ok p =>
    obtain ⟨a, s'⟩ := p
    constructor
    · exact fun h => .inr ⟨a, s', rfl, h⟩
    · rintro (h | ⟨a', s'', h, h'⟩)
      · cases h
      · cases h
        exact h'

/-- A transaction answers a next state exactly when its handler completes there, or raises a status, which leaves the state before
the instruction with that status on the output (00_scope.md R13). -/
theorem transact_next_iff {h : Handler Unit} {s t : State} :
    transact h s = .next t ↔ h s = .ok ((), t) ∨ ∃ st, h s = .error (.raise st) ∧ t = takeStatus st s := by
  unfold transact
  cases hx : h s with
  | ok p =>
    obtain ⟨⟨⟩, s'⟩ := p
    constructor
    · intro e; cases e; exact .inl rfl
    · rintro (e | ⟨st, e, -⟩)
      · cases e; rfl
      · cases e
  | error e =>
    cases e <;> constructor <;> intro h' <;> first
      | (cases h'; done)
      | (cases h'; exact .inr ⟨_, rfl, rfl⟩)
      | (rcases h' with h' | ⟨st, h', e⟩
         · cases h'
         · cases h' <;> rw [e])

/-- A transaction is refused exactly when its handler reaches `Undefined(reason)`. -/
theorem transact_refused_iff {h : Handler Unit} {s : State} {r : Refusal} :
    transact h s = .refused r ↔ h s = .error (.undefined r) := by
  unfold transact
  cases hx : h s with
  | ok p => simp
  | error e => cases e <;> simp

/-- A transaction faults exactly when its handler is stuck. -/
theorem transact_fault_iff {h : Handler Unit} {s : State} {f : Fault} :
    transact h s = .fault f ↔ h s = .error (.stuck f) := by
  unfold transact
  cases hx : h s with
  | ok p => simp
  | error e => cases e <;> simp

theorem transact_of_ok {h : Handler Unit} {s t : State} (hx : h s = .ok ((), t)) : transact h s = .next t := by
  simp [transact, hx]

theorem transact_of_raise {h : Handler Unit} {s : State} {st : Status} (hx : h s = .error (.raise st)) :
    transact h s = .next (takeStatus st s) := by
  simp [transact, hx]

/-- The trap changes the status output and nothing else. -/
theorem takeStatus_eq (st : Status) (s : State) : takeStatus st s = s.setStatus st := rfl

theorem raise_apply {α : Type} (st : Status) (s : State) : (raise st : Handler α) s = .error (.raise st) := rfl

theorem undefinedStop_apply {α : Type} (r : Refusal) (s : State) : (undefinedStop r : Handler α) s = .error (.undefined r) := rfl

theorem orRaise_apply {α : Type} (x : Except Status α) (s : State) :
    orRaise x s = match x with
      | .ok a => .ok (a, s)
      | .error st => .error (.raise st) := rfl

theorem update_apply (f : State → State) (s : State) : update f s = .ok ((), f s) := rfl

theorem getCore_apply (s : State) :
    getCore s = match s.current? with
      | some c => .ok (c, s)
      | none => .error (.stuck .noCurrentCore) := rfl

theorem setCurrentCore_apply (c : CoreState) (s : State) : setCurrentCore c s = .ok ((), s.setCurrent c) := rfl

/-- The guard changes nothing: it completes or raises one of its two statuses (41_engine.md R230). -/
theorem guardStack_apply (p q : Nat) (s : State) :
    guardStack p q s = match s.current? with
      | some c =>
        if c.data.length < p then .error (.raise .dataStackUnderflow)
        else if c.data.length + q > 32 then .error (.raise .dataStackOverflow)
        else .ok ((), s)
      | none => .error (.stuck .noCurrentCore) := by
  simp only [guardStack, handler_bind_apply, getCore_apply]
  cases s.current? with
  | none => rfl
  | some c =>
    by_cases h : c.data.length < p
    · simp [h, raise_apply]
    · by_cases h' : c.data.length + q > 32
      · simp [h, raise_apply, h']
      · simp [h, h', handler_pure_apply]

/-- A handler that begins with a guard ends with the guard's status where the guard fails. -/
theorem transact_guardStack_traps {p q : Nat} {k : Unit → Handler Unit} {s : State} {c : CoreState} (hc : s.current? = some c) :
    (c.data.length < p → transact (guardStack p q >>= k) s = .next (s.setStatus .dataStackUnderflow)) ∧
    (p ≤ c.data.length → 32 < c.data.length + q → transact (guardStack p q >>= k) s = .next (s.setStatus .dataStackOverflow)) := by
  constructor
  · intro h
    exact transact_of_raise (handler_bind_of_error (by rw [guardStack_apply, hc]; simp [h]))
  · intro h h'
    exact transact_of_raise (handler_bind_of_error (by rw [guardStack_apply, hc]; simp [Nat.not_lt.2 h, h']))

/-- A handler goes on after its guard, in the same state, where the guard holds. -/
theorem transact_guardStack_of_le {p q : Nat} {k : Unit → Handler Unit} {s : State} {c : CoreState} (hc : s.current? = some c)
    (hp : p ≤ c.data.length) (hq : c.data.length + q ≤ 32) : transact (guardStack p q >>= k) s = transact (k ()) s := by
  have h : guardStack p q s = .ok ((), s) := by
    rw [guardStack_apply, hc]; simp [Nat.not_lt.2 hp, Nat.not_lt.2 hq]
  simp only [transact, handler_bind_of_ok h]

/-- A pop takes the top cell off the executing core's data stack (10_state.md R45). -/
theorem pop_apply (s : State) :
    pop s = match s.current? with
      | some c => match c.data with
        | v :: rest => .ok (v, s.setCurrent { c with data := rest })
        | [] => .error (.undefined .unguardedStack)
      | none => .error (.stuck .noCurrentCore) := by
  simp only [pop, handler_bind_apply, getCore_apply]
  cases s.current? with
  | none => rfl
  | some c => cases hd : c.data <;> simp [hd, undefinedStop_apply, setCurrentCore_apply, handler_bind_apply, handler_pure_apply]

/-- A push puts a cell on the executing core's data stack (10_state.md R45). -/
theorem push_apply (v : Cell) (s : State) :
    push v s = match s.current? with
      | some c =>
        if c.data.length < 32 then .ok ((), s.setCurrent { c with data := v :: c.data })
        else .error (.undefined .unguardedStack)
      | none => .error (.stuck .noCurrentCore) := by
  simp only [push, handler_bind_apply, getCore_apply]
  cases s.current? with
  | none => rfl
  | some c => by_cases h : c.data.length < 32 <;> simp [h, undefinedStop_apply, setCurrentCore_apply]

/-- An address-stack push (10_state.md R49). -/
theorem apush_apply (v : Cell) (s : State) :
    apush v s = match s.current? with
      | some c =>
        if c.addrs.length < 128 then .ok ((), s.setCurrent { c with addrs := v :: c.addrs })
        else .error (.raise .addressStackOverflow)
      | none => .error (.stuck .noCurrentCore) := by
  simp only [apush, handler_bind_apply, getCore_apply]
  cases s.current? with
  | none => rfl
  | some c =>
    by_cases h : c.addrs.length < 128
    · have h' : ¬ c.addrs.length ≥ 128 := by omega
      simp [h, h', setCurrentCore_apply]
    · have h' : c.addrs.length ≥ 128 := by omega
      simp [h, h', raise_apply]

/-- An address-stack pop (10_state.md R49). -/
theorem apop_apply (s : State) :
    apop s = match s.current? with
      | some c => match c.addrs with
        | v :: rest => .ok (v, s.setCurrent { c with addrs := rest })
        | [] => .error (.raise .addressStackUnderflow)
      | none => .error (.stuck .noCurrentCore) := by
  simp only [apop, handler_bind_apply, getCore_apply]
  cases s.current? with
  | none => rfl
  | some c => cases hd : c.addrs <;> simp [hd, raise_apply, setCurrentCore_apply, handler_bind_apply, handler_pure_apply]

/-- The range check changes nothing (20_memory.md R85). -/
theorem checkRange_apply (addr len : Nat) (s : State) :
    checkRange addr len s = if addr + len ≤ 65535 then .ok ((), s) else .error (.raise .illegalMemoryAddress) := by
  by_cases h : addr + len ≤ 65535 <;> simp [checkRange, inRange, h, handler_pure_apply, raise_apply]

theorem memRead_apply (addr : Nat) (w : Width) (s : State) :
    memRead addr w s =
      if addr + w.bytes ≤ 65535 then .ok (s.memory.readCell addr w, s) else .error (.raise .illegalMemoryAddress) := by
  by_cases h : addr + w.bytes ≤ 65535 <;> simp [memRead, handler_bind_apply, checkRange_apply, h]

theorem memWrite_apply (addr : Nat) (w : Width) (v : Cell) (s : State) :
    memWrite addr w v s =
      if addr + w.bytes ≤ 65535 then .ok ((), s.setMemory (s.memory.writeCell addr w v))
      else .error (.raise .illegalMemoryAddress) := by
  by_cases h : addr + w.bytes ≤ 65535 <;> simp [memWrite, handler_bind_apply, checkRange_apply, h, update_apply]

theorem immediate_apply (offset len : Nat) (v : Cell) (s : State) :
    immediate offset len v s = match s.current? with
      | some c =>
        if c.ip.toNat + offset + len ≤ 65535 then .ok (v, s) else .error (.raise .illegalMemoryAddress)
      | none => .error (.stuck .noCurrentCore) := by
  simp only [immediate, handler_bind_apply, getCore_apply, toU32]
  cases s.current? with
  | none => rfl
  | some c => by_cases h : c.ip.toNat + offset + len ≤ 65535 <;> simp [checkRange_apply, h, handler_pure_apply]

theorem copyBlock_apply (len dst orig : Nat) (s : State) :
    copyBlock len dst orig s =
      if dst + len ≤ 65535 ∧ orig + len ≤ 65535 then .ok ((), s.setMemory (s.memory.copyBlock len dst orig))
      else .error (.raise .illegalMemoryAddress) := by
  by_cases h : dst + len ≤ 65535 <;> by_cases h' : orig + len ≤ 65535 <;>
    simp [copyBlock, handler_bind_apply, checkRange_apply, h, h', update_apply]

theorem compareBlock_apply (len dst orig : Nat) (s : State) :
    compareBlock len dst orig s =
      if dst + len ≤ 65535 ∧ orig + len ≤ 65535 then .ok (cellBool (s.memory.equalBlocks len dst orig), s)
      else .error (.raise .illegalMemoryAddress) := by
  by_cases h : dst + len ≤ 65535 <;> by_cases h' : orig + len ≤ 65535 <;>
    simp [compareBlock, handler_bind_apply, checkRange_apply, h, h']

theorem readRegister_apply (id : Nat) (s : State) :
    readRegister id s = match s.current? with
      | some c => match c.regs[id]? with
        | some v => .ok (v, s)
        | none => .error (.raise .illegalRegisterId)
      | none => .error (.stuck .noCurrentCore) := by
  simp only [readRegister, handler_bind_apply, getCore_apply]
  cases s.current? with
  | none => rfl
  | some c => cases h : c.regs[id]? <;> simp [h, raise_apply, handler_pure_apply]

theorem writeRegister_apply (id : Nat) (v : Cell) (s : State) :
    writeRegister id v s = match s.current? with
      | some c =>
        if id < 24 then .ok ((), s.setCurrent { c with regs := c.regs.setIfInBounds id v })
        else .error (.raise .illegalRegisterId)
      | none => .error (.stuck .noCurrentCore) := by
  simp only [writeRegister, handler_bind_apply, getCore_apply]
  cases s.current? with
  | none => rfl
  | some c => by_cases h : id < 24 <;> simp [h, raise_apply, setCurrentCore_apply]

theorem coreAt_apply (id : Nat) (s : State) :
    coreAt id s = match s.cores[id]? with
      | some c => .ok (c, s)
      | none => .error (.undefined (.illegalCoreId id)) := rfl

theorem getIntEnabled_apply (s : State) : getIntEnabled s = .ok (s.intEnabled, s) := rfl

theorem interrupt_apply (id : Nat) (s : State) : interrupt id s = .ok ((), s) := rfl

/-- A slot that is absent or does not exist is not called (47_interrupt_io.md R404). -/
theorem callSlot_apply (id : Nat) (s : State) :
    callSlot id s =
      if s.ioTable[id]? = some true then
        match invokeCallback id s with
        | .ok s' => .ok ((), s')
        | .error e => .error e
      else .ok ((), s) := rfl

@[simp] theorem modeEpilogue_data (op : OpcodeClass) (c : CoreState) : (modeEpilogue op c).data = c.data := by cases op <;> rfl
@[simp] theorem modeEpilogue_addrs (op : OpcodeClass) (c : CoreState) : (modeEpilogue op c).addrs = c.addrs := by cases op <;> rfl
@[simp] theorem modeEpilogue_regs (op : OpcodeClass) (c : CoreState) : (modeEpilogue op c).regs = c.regs := by cases op <;> rfl
@[simp] theorem modeEpilogue_ip (op : OpcodeClass) (c : CoreState) : (modeEpilogue op c).ip = c.ip := by cases op <;> rfl
@[simp] theorem modeEpilogue_active (op : OpcodeClass) (c : CoreState) : (modeEpilogue op c).active = c.active := by cases op <;> rfl

/-- The IP after an advance, as bit-vector arithmetic. -/
theorem cellU32_add (ip : Cell) (len : Nat) : cellU32 (toU32 ip + len) = ip + BitVec.ofNat 32 len := by
  apply BitVec.eq_of_toNat_eq
  simp [cellU32, toU32]

theorem finish_apply (op : OpcodeClass) (len : Nat) (s : State) :
    finish op len s = match s.current? with
      | some c => .ok ((), s.setCurrent (modeEpilogue op { c with ip := c.ip + BitVec.ofNat 32 len }))
      | none => .error (.stuck .noCurrentCore) := by
  simp only [finish, handler_bind_apply, getCore_apply, cellU32_add]
  cases s.current? <;> rfl

theorem finishJump_apply (op : OpcodeClass) (target : Cell) (s : State) :
    finishJump op target s = match s.current? with
      | some c => .ok ((), s.setCurrent (modeEpilogue op { c with ip := target }))
      | none => .error (.stuck .noCurrentCore) := by
  simp only [finishJump, handler_bind_apply, getCore_apply]
  cases s.current? <;> rfl

/-- A callback changes the memory and nothing else, and memory only by `io_write_byte` (60_exceptions.md R490). -/
theorem callbackSteps_ok {calls : List HostCall} {s t : State} (h : callbackSteps calls s = .ok t) : t = s.setMemory t.memory := by
  induction calls generalizing s with
  | nil => cases h; rfl
  | cons call rest ih =>
    cases call <;> simp only [callbackSteps, callbackStep] at h
    · exact ih h
    · have := ih h
      rw [ioWriteByte] at this
      split at this <;> simpa [State.setMemory] using this
    · exact ih h
    · cases h
    · cases h
    · cases h

theorem callbackResult_ok {run : CallbackRun} {s t : State} (h : callbackResult run s = .ok t) : t = s.setMemory t.memory := by
  cases run with
  | returns calls => exact callbackSteps_ok h
  | neverReturns => cases h

theorem invokeCallback_ok {id : Nat} {s t : State} (h : invokeCallback id s = .ok t) :
    t = (s.logCallback id).setMemory t.memory := callbackResult_ok h

end Sys2Proof.Machine
end

