-- ==== Sys2Proof/Laws/PerInstr.lean ====
section
/-! SUPPORT. The statement made of every instruction as syntax: its encoding starts with its own opcode byte and has its length. -/

namespace Sys2Proof.Laws

/-- The opcode byte of an instruction: the position of its row in the opcode map (30_encoding.md R125). -/
def opcodeByte : Instr → Byte
  | .no => 0x00#8
  | .lw _ => 0x01#8
  | .lh _ => 0x02#8
  | .lb _ => 0x03#8
  | .fw => 0x04#8
  | .fh => 0x05#8
  | .fb => 0x06#8
  | .sw => 0x07#8
  | .sh => 0x08#8
  | .sb => 0x09#8
  | .du => 0x0A#8
  | .dr => 0x0B#8
  | .sp => 0x0C#8
  | .pu => 0x0D#8
  | .po => 0x0E#8
  | .eq => 0x0F#8
  | .ne => 0x10#8
  | .lt => 0x11#8
  | .gt => 0x12#8
  | .ad => 0x13#8
  | .su => 0x14#8
  | .mu => 0x15#8
  | .dm => 0x16#8
  | .md => 0x17#8
  | .an => 0x18#8
  | .or => 0x19#8
  | .xo => 0x1A#8
  | .nt => 0x1B#8
  | .sl => 0x1C#8
  | .sr => 0x1D#8
  | .pa => 0x1E#8
  | .un => 0x1F#8
  | .rl => 0x20#8
  | .ca => 0x21#8
  | .cc => 0x22#8
  | .ju => 0x23#8
  | .cj => 0x24#8
  | .re => 0x25#8
  | .cr => 0x26#8
  | .sv => 0x27#8
  | .hi => 0x28#8
  | .si => 0x29#8
  | .ti => 0x2A#8
  | .ii => 0x2B#8
  | .hs => 0x2C#8
  | .ic => 0x2D#8
  | .ac => 0x2E#8
  | .pc => 0x2F#8
  | .sc => 0x30#8
  | .rr => 0x31#8
  | .wr => 0x32#8
  | .cp => 0x33#8
  | .bc => 0x34#8
  | .uu => 0x35#8
  | .ff => 0x36#8

/-- The encoding starts with the instruction's opcode byte, has the length of its format (R121), which the opcode byte
alone decides (R123), and is not refused. -/
def EncodedShape.Statement (i : Instr) : Prop :=
  (encode i).head? = some (opcodeByte i) ∧ (encode i).length = i.length ∧
  i.length = (if opcodeByte i = 0x01#8 then 8 else if opcodeByte i = 0x02#8 then 3 else if opcodeByte i = 0x03#8 then 2 else 1) ∧
  (opcodeByte i).toNat ≤ 0x36

theorem EncodedShape.no : EncodedShape.Statement .no := ⟨rfl, rfl, rfl, by decide⟩
theorem EncodedShape.lw (imm : BitVec 32) : EncodedShape.Statement (.lw imm) := ⟨rfl, rfl, rfl, Nat.le_of_ble_eq_true rfl⟩
theorem EncodedShape.lh (imm : BitVec 16) : EncodedShape.Statement (.lh imm) := ⟨rfl, rfl, rfl, Nat.le_of_ble_eq_true rfl⟩
theorem EncodedShape.lb (imm : BitVec 8) : EncodedShape.Statement (.lb imm) := ⟨rfl, rfl, rfl, Nat.le_of_ble_eq_true rfl⟩
theorem EncodedShape.fw : EncodedShape.Statement .fw := ⟨rfl, rfl, rfl, by decide⟩
theorem EncodedShape.fh : EncodedShape.Statement .fh := ⟨rfl, rfl, rfl, by decide⟩
theorem EncodedShape.fb : EncodedShape.Statement .fb := ⟨rfl, rfl, rfl, by decide⟩
theorem EncodedShape.sw : EncodedShape.Statement .sw := ⟨rfl, rfl, rfl, by decide⟩
theorem EncodedShape.sh : EncodedShape.Statement .sh := ⟨rfl, rfl, rfl, by decide⟩
theorem EncodedShape.sb : EncodedShape.Statement .sb := ⟨rfl, rfl, rfl, by decide⟩
theorem EncodedShape.du : EncodedShape.Statement .du := ⟨rfl, rfl, rfl, by decide⟩
theorem EncodedShape.dr : EncodedShape.Statement .dr := ⟨rfl, rfl, rfl, by decide⟩
theorem EncodedShape.sp : EncodedShape.Statement .sp := ⟨rfl, rfl, rfl, by decide⟩
theorem EncodedShape.pu : EncodedShape.Statement .pu := ⟨rfl, rfl, rfl, by decide⟩
theorem EncodedShape.po : EncodedShape.Statement .po := ⟨rfl, rfl, rfl, by decide⟩
theorem EncodedShape.eq : EncodedShape.Statement .eq := ⟨rfl, rfl, rfl, by decide⟩
theorem EncodedShape.ne : EncodedShape.Statement .ne := ⟨rfl, rfl, rfl, by decide⟩
theorem EncodedShape.lt : EncodedShape.Statement .lt := ⟨rfl, rfl, rfl, by decide⟩
theorem EncodedShape.gt : EncodedShape.Statement .gt := ⟨rfl, rfl, rfl, by decide⟩
theorem EncodedShape.ad : EncodedShape.Statement .ad := ⟨rfl, rfl, rfl, by decide⟩
theorem EncodedShape.su : EncodedShape.Statement .su := ⟨rfl, rfl, rfl, by decide⟩
theorem EncodedShape.mu : EncodedShape.Statement .mu := ⟨rfl, rfl, rfl, by decide⟩
theorem EncodedShape.dm : EncodedShape.Statement .dm := ⟨rfl, rfl, rfl, by decide⟩
theorem EncodedShape.md : EncodedShape.Statement .md := ⟨rfl, rfl, rfl, by decide⟩
theorem EncodedShape.an : EncodedShape.Statement .an := ⟨rfl, rfl, rfl, by decide⟩
theorem EncodedShape.or : EncodedShape.Statement .or := ⟨rfl, rfl, rfl, by decide⟩
theorem EncodedShape.xo : EncodedShape.Statement .xo := ⟨rfl, rfl, rfl, by decide⟩
theorem EncodedShape.nt : EncodedShape.Statement .nt := ⟨rfl, rfl, rfl, by decide⟩
theorem EncodedShape.sl : EncodedShape.Statement .sl := ⟨rfl, rfl, rfl, by decide⟩
theorem EncodedShape.sr : EncodedShape.Statement .sr := ⟨rfl, rfl, rfl, by decide⟩
theorem EncodedShape.pa : EncodedShape.Statement .pa := ⟨rfl, rfl, rfl, by decide⟩
theorem EncodedShape.un : EncodedShape.Statement .un := ⟨rfl, rfl, rfl, by decide⟩
theorem EncodedShape.rl : EncodedShape.Statement .rl := ⟨rfl, rfl, rfl, by decide⟩
theorem EncodedShape.ca : EncodedShape.Statement .ca := ⟨rfl, rfl, rfl, by decide⟩
theorem EncodedShape.cc : EncodedShape.Statement .cc := ⟨rfl, rfl, rfl, by decide⟩
theorem EncodedShape.ju : EncodedShape.Statement .ju := ⟨rfl, rfl, rfl, by decide⟩
theorem EncodedShape.cj : EncodedShape.Statement .cj := ⟨rfl, rfl, rfl, by decide⟩
theorem EncodedShape.re : EncodedShape.Statement .re := ⟨rfl, rfl, rfl, by decide⟩
theorem EncodedShape.cr : EncodedShape.Statement .cr := ⟨rfl, rfl, rfl, by decide⟩
theorem EncodedShape.sv : EncodedShape.Statement .sv := ⟨rfl, rfl, rfl, by decide⟩
theorem EncodedShape.hi : EncodedShape.Statement .hi := ⟨rfl, rfl, rfl, by decide⟩
theorem EncodedShape.si : EncodedShape.Statement .si := ⟨rfl, rfl, rfl, by decide⟩
theorem EncodedShape.ti : EncodedShape.Statement .ti := ⟨rfl, rfl, rfl, by decide⟩
theorem EncodedShape.ii : EncodedShape.Statement .ii := ⟨rfl, rfl, rfl, by decide⟩
theorem EncodedShape.hs : EncodedShape.Statement .hs := ⟨rfl, rfl, rfl, by decide⟩
theorem EncodedShape.ic : EncodedShape.Statement .ic := ⟨rfl, rfl, rfl, by decide⟩
theorem EncodedShape.ac : EncodedShape.Statement .ac := ⟨rfl, rfl, rfl, by decide⟩
theorem EncodedShape.pc : EncodedShape.Statement .pc := ⟨rfl, rfl, rfl, by decide⟩
theorem EncodedShape.sc : EncodedShape.Statement .sc := ⟨rfl, rfl, rfl, by decide⟩
theorem EncodedShape.rr : EncodedShape.Statement .rr := ⟨rfl, rfl, rfl, by decide⟩
theorem EncodedShape.wr : EncodedShape.Statement .wr := ⟨rfl, rfl, rfl, by decide⟩
theorem EncodedShape.cp : EncodedShape.Statement .cp := ⟨rfl, rfl, rfl, by decide⟩
theorem EncodedShape.bc : EncodedShape.Statement .bc := ⟨rfl, rfl, rfl, by decide⟩
theorem EncodedShape.uu : EncodedShape.Statement .uu := ⟨rfl, rfl, rfl, by decide⟩
theorem EncodedShape.ff : EncodedShape.Statement .ff := ⟨rfl, rfl, rfl, by decide⟩

end Sys2Proof.Laws
end

