-- ==== Sys2Proof/Tests/Slice0.lean ====
section
/-! SUPPORT. The model's own tests: each constructor's word from the opcode map (30_encoding.md R125), the well-formedness smoke
test, single steps whose expected results are the vectors of 95_test_vectors.md (section 2, or 1 where named), and for each
obligation with hypotheses a witness that meets them. Stacks are written top first, the reverse of the vectors' notation. -/

namespace Sys2Proof.Tests

open Sys2Proof Sys2Proof.Machine

/-- The instruction that a list of bytes begins with. -/
def decoded (bytes : List Byte) : Option Instr :=
  match decode bytes with
  | .ok (i, _) => some i
  | .error _ => none

/-- An active core with the given data stack. -/
def core (data : List Cell) (mode : OpMode := .signed) (ip : Cell := 0) : CoreState :=
  { CoreState.default ip with active := true, opMode := mode, data := data }

/-- The reset state with core 0 as the executing core, holding `c`. -/
def at0 (c : CoreState) : State := (State.reset.select 0).setCurrent c

/-- The reset state's memory with `bytes` from address `a` up. -/
def ram (a : Nat) (bytes : List Byte) : Memory := (State.reset.memory).writeRange a bytes

/-- The state after, where there is one. -/
def after (o : Host.Outcome State Fault Refusal) : Option State :=
  match o with
  | .next t => some t
  | .fault _ => none
  | .refused _ => none

/-- Status, data stack, IP and operation mode after an instruction of core 0. -/
def effect (i : Instr) (c : CoreState) : Option (Status × List Cell × Cell × OpMode) :=
  match after (exec i (at0 c)) with
  | some t => t.current?.map fun d => (t.status, d.data, d.ip, d.opMode)
  | none => none

/-- Status, address stack, IP and address mode after an instruction of core 0. -/
def flow (i : Instr) (c : CoreState) : Option (Status × List Cell × Cell × AddrMode) :=
  match after (exec i (at0 c)) with
  | some t => t.current?.map fun d => (t.status, d.addrs, d.ip, d.addrMode)
  | none => none

/-- Status and the bytes at the given addresses after an instruction of core 0 on the given memory. -/
def stored (i : Instr) (c : CoreState) (m : Memory) (addresses : List Nat) : Option (Status × List Byte) :=
  (after (exec i ((at0 c).setMemory m))).map fun t => (t.status, addresses.map t.memory.byteAt)

/-- The top of the data stack after an instruction of core 0 on the given memory. -/
def loaded (i : Instr) (c : CoreState) (m : Memory) : Option (List Cell) :=
  match after (exec i ((at0 c).setMemory m)) with
  | some t => t.current?.map (·.data)
  | none => none

/-- Why an instruction of core 0 is refused. -/
def refusal (i : Instr) (c : CoreState) : Option Refusal :=
  match exec i (at0 c) with
  | .next _ => none
  | .fault _ => none
  | .refused r => some r

/-! ## Decoding: the word of every constructor, from the opcode map of 30_encoding.md R125 -/

/-- The three words with immediates: little-endian, and LW's pad bytes not read (R121, R122). -/
theorem test_decode_literals :
    decoded [0x01, 0xAA, 0xBB, 0xCC, 0x44, 0x33, 0x22, 0x11] = some (.lw 0x11223344) ∧
    decoded [0x02, 0x34, 0x12] = some (.lh 0x1234) ∧ decoded [0x03, 0x7F] = some (.lb 0x7F) := by decide

theorem test_decode_memory :
    decoded [0x00] = some .no ∧ decoded [0x04] = some .fw ∧ decoded [0x05] = some .fh ∧
    decoded [0x06] = some .fb ∧ decoded [0x07] = some .sw ∧ decoded [0x08] = some .sh ∧
    decoded [0x09] = some .sb := by decide

theorem test_decode_stack :
    decoded [0x0A] = some .du ∧ decoded [0x0B] = some .dr ∧ decoded [0x0C] = some .sp ∧
    decoded [0x0D] = some .pu ∧ decoded [0x0E] = some .po := by decide

theorem test_decode_compare_arith :
    decoded [0x0F] = some .eq ∧ decoded [0x10] = some .ne ∧ decoded [0x11] = some .lt ∧
    decoded [0x12] = some .gt ∧ decoded [0x13] = some .ad ∧ decoded [0x14] = some .su ∧
    decoded [0x15] = some .mu ∧ decoded [0x16] = some .dm ∧ decoded [0x17] = some .md := by decide

theorem test_decode_bitwise_pack :
    decoded [0x18] = some .an ∧ decoded [0x19] = some .or ∧ decoded [0x1A] = some .xo ∧
    decoded [0x1B] = some .nt ∧ decoded [0x1C] = some .sl ∧ decoded [0x1D] = some .sr ∧
    decoded [0x1E] = some .pa ∧ decoded [0x1F] = some .un := by decide

theorem test_decode_control :
    decoded [0x20] = some .rl ∧ decoded [0x21] = some .ca ∧ decoded [0x22] = some .cc ∧
    decoded [0x23] = some .ju ∧ decoded [0x24] = some .cj ∧ decoded [0x25] = some .re ∧
    decoded [0x26] = some .cr := by decide

theorem test_decode_interrupt_io :
    decoded [0x27] = some .sv ∧ decoded [0x28] = some .hi ∧ decoded [0x29] = some .si ∧
    decoded [0x2A] = some .ti ∧ decoded [0x2B] = some .ii := by decide

theorem test_decode_core_control :
    decoded [0x2C] = some .hs ∧ decoded [0x2D] = some .ic ∧ decoded [0x2E] = some .ac ∧
    decoded [0x2F] = some .pc ∧ decoded [0x30] = some .sc := by decide

theorem test_decode_register_block_mode :
    decoded [0x31] = some .rr ∧ decoded [0x32] = some .wr ∧ decoded [0x33] = some .cp ∧
    decoded [0x34] = some .bc ∧ decoded [0x35] = some .uu ∧ decoded [0x36] = some .ff := by decide

theorem test_decode_rejects_illegal_opcodes : decoded [0x37] = none ∧ decoded [0xFF] = none := by decide

/-- The host's numbering: byte `k` is bits [8k+7 : 8k], and bits above `nbits` are 0. -/
theorem test_decode_table_word :
    decodeTableWord 8 0x13 = some .ad ∧ decodeTableWord 8 0x01 = some (.lw 0) ∧ decodeTableWord 24 0x123402 = some (.lh 0x1234) ∧
    decodeTableWord 64 0x1122334400000001 = some (.lw 0x11223344) ∧ decodeTableWord 8 0x37 = none := by decide

theorem test_encode_immediates :
    encode (.lw 0x11223344) = [0x01, 0x00, 0x00, 0x00, 0x44, 0x33, 0x22, 0x11] ∧ encode (.lh 0x1234) = [0x02, 0x34, 0x12] := by
  decide

/-! ## Well-formedness -/

/-- The first place at which each length no longer fits, and the last at which it does (20_memory.md R85). -/
theorem test_fitsAt_refuses :
    (Instr.lw 0).fitsAt 65528 = false ∧ (Instr.lw 0).fitsAt 65527 = true ∧ (Instr.lh 0).fitsAt 65533 = false ∧
    (Instr.lh 0).fitsAt 65532 = true ∧ (Instr.lb 0).fitsAt 65534 = false ∧ (Instr.lb 0).fitsAt 65533 = true ∧
    Instr.ad.fitsAt 65535 = false ∧ Instr.ad.fitsAt 65534 = true := by decide

/-- The canonical form of memory refuses a listed 0, addresses out of order or repeated, and an address that does not exist. -/
theorem test_memory_wf_refuses :
    (Memory.wf ⟨[(5, 0)]⟩) = false ∧ (Memory.wf ⟨[(5, 1), (4, 1)]⟩) = false ∧ (Memory.wf ⟨[(5, 1), (5, 2)]⟩) = false ∧
    (Memory.wf ⟨[(65535, 1)]⟩) = false ∧ (Memory.wf ⟨[(0, 1), (65534, 255)]⟩) = true := by decide

/-! ## The run: fetch, scheduler, the host's word -/

theorem test_with_fetch_word_runs_the_word :
    ((after (step (State.reset.withFetchWord 16 0x8903))).bind fun t => t.current?.map fun d => (d.data, d.ip)) =
      some ([0x89], 2) := by decide

theorem test_first_tick_selects_core_0 : nextCoreId State.reset = 0 := by decide

/-- With no active core the scan changes nothing, and core 1 executes the byte at its IP (2.2; the byte there is 0, NO). -/
theorem test_no_active_core_keeps_the_current :
    ((after (step (((at0 { core [] with active := false }).setCore 1 { core [] (ip := 26) with active := false }).select 1))).map fun t =>
      (t.curCoreId, t.cores.map (·.ip))) = some (1, [0, 27]) := by decide

theorem test_fetch_past_memory_halts :
    ((after (step ((at0 (core [] (ip := 65535))).select 1))).map fun t => (t.status, t.cores.map (·.ip))) =
      some (.systemHalt, [65535, 0]) := by decide

/-! ## Single steps -/

theorem test_no :
    effect .no (core [] .unsigned (ip := 5)) = some (.none, [], 6, .signed) := by decide

theorem test_lw :
    effect (.lw 0x539) (core []) = some (.none, [0x539], 8, .signed) ∧
    effect (.lw 0) (core [] (ip := 65527)) = some (.none, [0], 65535, .signed) ∧
    effect (.lw 0) (core [] (ip := 65528)) = some (.illegalMemoryAddress, [], 65528, .signed) := by decide

theorem test_lh :
    effect (.lh 0xFFFF) (core []) = some (.none, [0xFFFF], 3, .signed) := by decide

theorem test_lb :
    effect (.lb 0xFF) (core []) = some (.none, [0xFF], 2, .signed) ∧
    effect (.lb 0) (core [] (ip := 65534)) = some (.illegalMemoryAddress, [], 65534, .signed) := by decide

theorem test_fw :
    effect .fw (core [65531]) = some (.none, [0], 1, .signed) ∧
    effect .fw (core [65532]) = some (.illegalMemoryAddress, [65532], 0, .signed) ∧
    effect .fw (core [0xFFFFFFFF]) = some (.illegalMemoryAddress, [0xFFFFFFFF], 0, .signed) := by decide

theorem test_fb :
    effect .fb (core [65534]) = some (.none, [0], 1, .signed) ∧
    effect .fb (core [65535]) = some (.illegalMemoryAddress, [65535], 0, .signed) := by decide

theorem test_sw :
    effect .sw (core [65532, 7]) = some (.illegalMemoryAddress, [65532, 7], 0, .signed) := by decide

theorem test_sb :
    effect .sb (core [1]) = some (.dataStackUnderflow, [1], 0, .signed) := by decide

theorem test_du :
    effect .du (core [9, 5]) = some (.none, [9, 9, 5], 1, .signed) ∧
    effect .du (core []) = some (.dataStackUnderflow, [], 0, .signed) := by decide

theorem test_dr :
    effect .dr (core [2, 1]) = some (.none, [1], 1, .signed) ∧
    effect .dr (core []) = some (.dataStackUnderflow, [], 0, .signed) := by decide

theorem test_sp :
    effect .sp (core [9, 5]) = some (.none, [5, 9], 1, .signed) := by decide

theorem test_eq :
    effect .eq (core [5, 5]) = some (.none, [0xFFFFFFFF], 1, .signed) ∧
    effect .eq (core [0x80000000, 0] .float) = some (.none, [0], 1, .signed) := by decide

theorem test_ne :
    effect .ne (core [1, 1]) = some (.none, [0], 1, .signed) ∧
    effect .ne (core [0x80000000, 0] .float) = some (.none, [0xFFFFFFFF], 1, .signed) := by decide

theorem test_lt :
    effect .lt (core [1, 0xFFFFFFFF]) = some (.none, [0xFFFFFFFF], 1, .signed) ∧
    effect .lt (core [1, 0xFFFFFFFF] .unsigned) = some (.none, [0], 1, .signed) ∧
    effect .lt (core [0x3F800000, 0x7FC00000] .float) = some (.none, [0], 1, .signed) := by decide

theorem test_gt :
    effect .gt (core [0, 0x80000000]) = some (.none, [0], 1, .signed) ∧
    effect .gt (core [0, 0x80000000] .unsigned) = some (.none, [0xFFFFFFFF], 1, .signed) ∧
    effect .gt (core [0x80000000, 0] .float) = some (.none, [0], 1, .signed) := by decide

theorem test_ad :
    effect .ad (core [1, 0x7FFFFFFF]) = some (.none, [0x80000000], 1, .signed) ∧
    effect .ad (core [0x40100000, 0x3FC00000] .float) = some (.none, [0x40700000], 1, .signed) ∧
    effect .ad (core [0x40100000, 0x3FC00000]) = some (.none, [0x7FD00000], 1, .signed) := by decide

theorem test_su :
    effect .su (core [1, 0]) = some (.none, [0xFFFFFFFF], 1, .signed) ∧
    effect .su (core [0x3F800000, 0x3F800000] .float) = some (.none, [0], 1, .signed) := by decide

theorem test_mu :
    effect .mu (core [0x10000, 0x10000]) = some (.none, [0], 1, .signed) ∧
    effect .mu (core [0xFFFFFFFF, 0xFFFFFFFF] .unsigned) = some (.none, [1], 1, .signed) ∧
    effect .mu (core [0x40000000, 0x3FC00000] .float) = some (.none, [0x40400000], 1, .signed) := by decide

theorem test_dm_signed :
    effect .dm (core [2, 0xFFFFFFF9]) = some (.none, [0xFFFFFFFD, 0xFFFFFFFF], 1, .signed) ∧
    effect .dm (core [0xFFFFFFFE, 7]) = some (.none, [0xFFFFFFFD, 1], 1, .signed) := by decide

theorem test_dm_overflow_and_unsigned :
    effect .dm (core [0xFFFFFFFF, 0x80000000]) = some (.none, [0x80000000, 0], 1, .signed) ∧
    effect .dm (core [2, 0xFFFFFFF9] .unsigned) = some (.none, [0x7FFFFFFC, 1], 1, .signed) := by decide

theorem test_dm_float :
    effect .dm (core [0x40000000, 0x40E00000] .float) = some (.none, [0x40600000, 0xBF800000], 1, .signed) ∧
    effect .dm (core [0x40000000, 0x40A00000] .float) = some (.none, [0x40200000, 0x3F800000], 1, .signed) ∧
    effect .dm (core [0x80000000, 0x3F800000] .float) = some (.divisionByZero, [0x80000000, 0x3F800000], 0, .float) := by decide

theorem test_md :
    effect .md (core [7, 1000, 1000]) = some (.none, [0x22E09, 1], 1, .signed) ∧
    effect .md (core [3, 0x10000, 0x10000]) = some (.none, [0, 0], 1, .signed) ∧
    effect .md (core [0, 2, 1]) = some (.divisionByZero, [0, 2, 1], 0, .signed) := by decide

theorem test_an :
    effect .an (core [0x0FF00FF0, 0xFF00FF00]) = some (.none, [0x0F000F00], 1, .signed) := by decide

theorem test_or :
    effect .or (core [0x0FF00FF0, 0xFF00FF00] .unsigned) = some (.none, [0xFFF0FFF0], 1, .signed) := by decide

theorem test_xo :
    effect .xo (core [0x0FF00FF0, 0xFF00FF00] .float) = some (.none, [0xF0F0F0F0], 1, .signed) := by decide

theorem test_nt :
    effect .nt (core [0x0000FFFF]) = some (.none, [0xFFFF0000], 1, .signed) := by decide

theorem test_sl :
    effect .sl (core [31, 1]) = some (.none, [0x80000000], 1, .signed) ∧
    effect .sl (core [33, 1]) = some (.none, [2], 1, .signed) ∧
    effect .sl (core [1, 1] .float) = some (.invalidFloatOperation, [1, 1], 0, .float) := by decide

theorem test_sr :
    effect .sr (core [31, 0x80000000]) = some (.none, [0xFFFFFFFF], 1, .signed) ∧
    effect .sr (core [31, 0x80000000] .unsigned) = some (.none, [1], 1, .signed) ∧
    effect .sr (core [4, 0xFFFFFFFF] .unsigned) = some (.none, [0x0FFFFFFF], 1, .signed) := by decide

theorem test_pa :
    effect .pa (core [0xDD, 0xCC, 0xBB, 0x1AA]) = some (.none, [0xAABBCCDD], 1, .signed) := by decide

theorem test_un :
    effect .un (core [0xAABBCCDD]) = some (.none, [0xDD, 0xCC, 0xBB, 0xAA], 1, .signed) := by decide

theorem test_ti :
    effect .ti (core [200] (ip := 10)) = some (.none, [], 11, .signed) ∧
    effect .ti (core []) = some (.dataStackUnderflow, [], 0, .signed) := by decide

theorem test_ii :
    effect .ii (core [3]) = some (.none, [], 1, .signed) ∧
    effect .ii (core [16]) = some (.none, [], 1, .signed) := by decide

theorem test_hs :
    effect .hs (core [] .unsigned (ip := 4)) = some (.systemHalt, [], 4, .unsigned) := by decide

theorem test_rr :
    effect .rr (core [23]) = some (.none, [0], 1, .signed) ∧
    effect .rr (core [24]) = some (.illegalRegisterId, [24], 0, .signed) := by decide

theorem test_wr_bad_id :
    effect .wr (core [24, 5]) = some (.illegalRegisterId, [24, 5], 0, .signed) := by decide

theorem test_cp :
    effect .cp (core [2, 65534, 0]) = some (.illegalMemoryAddress, [2, 65534, 0], 0, .signed) ∧
    effect .cp (core [0, 65535, 65535]) = some (.none, [], 1, .signed) := by decide

theorem test_bc :
    effect .bc (core [0, 6, 5]) = some (.none, [0xFFFFFFFF], 1, .signed) := by decide

theorem test_uu :
    effect .uu (core []) = some (.none, [], 1, .unsigned) := by decide

theorem test_ff :
    effect .ff (core [] .unsigned) = some (.none, [], 1, .float) := by decide

theorem test_guard_counts_pushes_without_netting_pops :
    (effect .ad (core (List.replicate 32 1))).map (·.1) = some .dataStackOverflow ∧
    (effect .du (core (List.replicate 31 1))).map (·.1) = some .dataStackOverflow ∧
    (effect .du (core (List.replicate 30 1))).map (·.1) = some .none ∧
    (effect .un (core (List.replicate 28 0))).map (·.1) = some .none ∧
    (effect .po (core (List.replicate 32 1))).map (·.1) = some .dataStackOverflow := by decide

theorem test_fw_is_little_endian : loaded .fw (core [512]) (ram 512 [0x44, 0x33, 0x22, 0x11]) = some [0x11223344] := by decide

theorem test_fh_zero_extends : loaded .fh (core [514]) (ram 512 [0x44, 0x33, 0x22, 0x11]) = some [0x1122] := by decide

theorem test_sw_bytes : stored .sw (core [512, 0x11223344]) ⟨[]⟩ [512, 513, 514, 515] = some (.none, [0x44, 0x33, 0x22, 0x11]) := by
  decide

theorem test_sh_stores_two_bytes : stored .sh (core [100, 0xAABBCCDD]) ⟨[]⟩ [100, 101, 102] = some (.none, [0xDD, 0xCC, 0]) := by decide

theorem test_sb_stores_one_byte : stored .sb (core [100, 0x2A]) ⟨[]⟩ [100, 101] = some (.none, [0x2A, 0]) := by decide

theorem test_cp_copies_as_if_read_first :
    stored .cp (core [2, 102, 100]) (ram 100 [1, 2, 3, 4]) [100, 101, 102, 103] = some (.none, [1, 2, 1, 2]) ∧
    stored .cp (core [3, 101, 100]) (ram 100 [1, 2, 3, 4]) [100, 101, 102, 103] = some (.none, [1, 1, 2, 3]) := by decide

theorem test_bc_differs : loaded .bc (core [2, 200, 100]) ((ram 100 [1, 2]).writeRange 200 [1, 3]) = some [0] := by decide

theorem test_pu : flow .pu (core [7]) = some (.none, [7], 1, .direct) ∧
    (flow .pu { core [7] with addrs := List.replicate 128 0 }).map (·.1) = some .addressStackOverflow := by decide +kernel

theorem test_po : effect .po { core [] with addrs := [6] } = some (.none, [6], 1, .signed) ∧
    effect .po (core []) = some (.addressStackUnderflow, [], 0, .signed) := by decide

theorem test_rl : flow .rl (core [] .unsigned (ip := 2)) = some (.none, [], 3, .relative) := by decide

theorem test_ca : flow .ca (core [7] (ip := 2)) = some (.none, [6], 7, .direct) ∧
    flow .ca { core [12] (ip := 3) with addrMode := .relative } = some (.none, [7], 15, .direct) := by decide

theorem test_cc : flow .cc (core [20, 0xFFFFFFFF] (ip := 5)) = some (.none, [9], 20, .direct) ∧
    flow .cc { core [20, 0] (ip := 5) with addrMode := .relative } = some (.none, [], 6, .direct) ∧
    flow .cc (core [20, 1] (ip := 5)) = some (.none, [], 6, .direct) := by decide

theorem test_ju : flow .ju { core [6] (ip := 10) with addrMode := .relative } = some (.none, [], 16, .direct) ∧
    flow .ju { core [0xFFFFFFFF] (ip := 10) with addrMode := .relative } = some (.none, [], 9, .direct) ∧
    flow .ju (core [70000]) = some (.none, [], 70000, .direct) := by decide

theorem test_cj : flow .cj (core [10, 0xFFFFFFFF]) = some (.none, [], 10, .direct) ∧
    flow .cj (core [10, 0] (ip := 35)) = some (.none, [], 39, .direct) := by decide

theorem test_re : flow .re { core [] with addrs := [6], addrMode := .relative } = some (.none, [], 6, .relative) ∧
    flow .re (core []) = some (.addressStackUnderflow, [], 0, .direct) := by decide

theorem test_cr : flow .cr { core [0xFFFFFFFF] with addrs := [7] } = some (.none, [], 7, .direct) ∧
    flow .cr (core [0] (ip := 38)) = some (.none, [], 42, .direct) ∧
    flow .cr (core [0xFFFFFFFF]) = some (.addressStackUnderflow, [], 0, .direct) := by decide

theorem test_sv : ((after (exec .sv (at0 (core [3, 40])))).map fun t => (t.interruptTable[3], t.interruptTable[4])) = some (40, 0) ∧
    effect .sv (core [128, 40]) = some (.illegalInterruptId, [128, 40], 0, .signed) := by decide +kernel

theorem test_si_and_hi : (after (exec .si (at0 (core [])))).map (·.intEnabled) = some true ∧
    (after (exec .hi ((at0 (core [])).setIntEnabled true))).map (·.intEnabled) = some false := by decide

/-- IC of the sibling, and of the executing core itself, whose data stack and registers are cleared (2.9). -/
theorem test_ic : ((after (exec .ic (at0 (core [1, 137] (ip := 4))))).map fun t => t.cores.map fun c => (c.ip, c.active)) =
      some [(5, true), (137, false)] ∧
    ((after (exec .ic (at0 { core [0, 50, 9, 9] (ip := 4) with regs := (Vector.replicate 24 0#32).set 3 5 }))).map fun t =>
      t.cores.map fun c => (c.ip, c.active, c.data, c.regs[3])) = some [(51, false, [], 0), (0, false, [], 0)] := by decide

theorem test_ic_bad_id : refusal .ic (core [2, 137]) = some (.illegalCoreId 2) := by decide

theorem test_ac : (after (exec .ac (at0 (core [1])))).map (·.cores.map (·.active)) = some [true, true] ∧
    refusal .ac (core [2]) = some (.illegalCoreId 2) := by decide

theorem test_pc : ((after (exec .pc (at0 (core [0])))).map fun t => t.cores.map fun c => (c.active, c.ip)) =
    some [(false, 1), (false, 0)] := by decide

theorem test_sc : ((after (exec .sc (at0 (core [] (ip := 25))))).map fun t => t.cores.map fun c => (c.active, c.ip)) =
    some [(false, 26), (false, 0)] := by decide

theorem test_wr : ((after (exec .wr (at0 (core [23, 9])))).bind fun t => t.current?.map fun d => (d.regs[23], d.regs[22], d.data)) =
    some (9, 0, []) := by decide

/-! ## The host's operations -/

/-- 20_memory.md R96 and R97: the last address of the I/O window, and the first after it. -/
theorem test_host_window :
    ioReadByte 191 (at0 (core [])) = .ok 0 ∧ ioReadByte 192 (at0 (core [])) = .error .illegalMemoryAddress ∧
    (ioWriteByte 191 5 (at0 (core []))).2.memory = ram 191 [5] ∧ (ioWriteByte 192 5 (at0 (core []))).1 = .illegalMemoryAddress := by
  decide
/-- 60_exceptions.md R490: the bytes a callback's writes leave at 191, inside the window, and at 192, outside it. -/
theorem test_callback_writes_the_window_only :
    (match callbackResult (.returns [.ioWriteByte 191 5, .snapshot, .ioWriteByte 192 6, .ioReadByte 0]) (at0 (core [])) with
      | .ok t => some (t.memory.byteAt 191, t.memory.byteAt 192)
      | .error _ => none) = some (5, 0) := by decide

/-! ## Witnesses: for each obligation with hypotheses, a concrete state and operands that meet all of them, clause by clause -/

theorem exists_next {o : Host.Outcome State Fault Refusal} (h : (after o).isSome = true) : ∃ t, o = .next t := by
  cases o with
  | next t => exact ⟨t, rfl⟩
  | fault f => cases h
  | refused r => cases h

/-- `n` cells that no statement looks at. -/
abbrev pad (n : Nat) : List Cell := List.replicate n 0

theorem witness_OpcodeByteAloneTellsLength :
    decode [0x01, 0, 0, 0, 1, 2, 3, 4, 9] = .ok (.lw 0x04030201, [9]) ∧ decode [0x02, 1, 2, 9] = .ok (.lh 0x0201, [9]) ∧
    decode [0x03, 5, 9] = .ok (.lb 5, [9]) ∧ decode [0x36] = .ok (.ff, []) := ⟨rfl, rfl, rfl, rfl⟩

theorem witness_IllegalOpcodeIsRefused :
    0x36 < (0x37 : Byte).toNat ∧ ∃ (s : State) (c : CoreState), s.status = .none ∧ (selectNextCore s).current? = some c ∧
      c.ip.toNat < 65535 ∧ s.memory.byteAt c.ip.toNat = 0x37 :=
  ⟨by decide, ((at0 (core [] (ip := 65534))).select 1).setMemory (ram 65534 [0x37]), core [] (ip := 65534),
    rfl, rfl, by decide, by decide⟩

theorem witness_EveryStepKeepsLegality : State.reset.Legal ∧ ∃ t, step State.reset = .next t :=
  ⟨by decide, exists_next (by decide)⟩

/-- The first scanned core, the current core itself as the last one scanned, and no active core. -/
theorem witness_SchedulerTakesNextActiveCore :
    (State.reset.curCoreId < State.reset.cores.length ∧ State.reset.coreActive ((State.reset.curCoreId + 1) % State.reset.cores.length)) ∧
    ((at0 (core [])).curCoreId < (at0 (core [])).cores.length ∧ 2 ≤ (at0 (core [])).cores.length ∧
      (at0 (core [])).coreActive (((at0 (core [])).curCoreId + 2) % (at0 (core [])).cores.length) ∧
      ∀ j, 1 ≤ j → j < 2 → ¬ (at0 (core [])).coreActive (((at0 (core [])).curCoreId + j) % (at0 (core [])).cores.length)) ∧
    ∃ s : State, s.curCoreId < s.cores.length ∧ ∀ id, ¬ s.coreActive id := by
  refine ⟨⟨by decide, ⟨_, rfl, rfl⟩⟩, ⟨by decide, by decide, ⟨_, rfl, rfl⟩, ?_⟩, at0 { core [] with active := false }, by decide, ?_⟩
  · rintro j h1 h2 ⟨c, hc, ha⟩
    obtain rfl : j = 1 := by omega
    cases hc
    cases ha
  · rintro (_ | _ | id) ⟨c, hc, ha⟩ <;> cases hc <;> cases ha

theorem witness_StepRunsDecodedInstruction : ∃ (s : State) (c : CoreState) (i : Instr) (rest : List Byte),
    s.status = .none ∧ (selectNextCore s).current? = some c ∧ c.ip.toNat < 65535 ∧
    decode (s.memory.readRange c.ip.toNat 8) = .ok (i, rest) :=
  ⟨((at0 (core [] (ip := 65534))).select 1).setMemory (ram 65534 [0x13]), core [] (ip := 65534), .ad, [0, 0, 0, 0, 0, 0, 0],
    rfl, rfl, by decide, rfl⟩

theorem witness_FetchPastMemoryHalts : ∃ (s : State) (c : CoreState),
    s.status = .none ∧ (selectNextCore s).current? = some c ∧ 65535 ≤ c.ip.toNat :=
  ⟨(at0 (core [] (ip := 65535))).select 1, core [] (ip := 65535), rfl, rfl, by decide⟩

theorem witness_TwoActiveCoresAlternate : ∃ (n : Nat) (s : State) (c0 c1 : CoreState),
    s.status = .none ∧ s.cores = [c0, c1] ∧ c0.active = true ∧ c1.active = true ∧ s.curCoreId = 1 ∧
    (∀ a, s.memory.byteAt a = 0#8) ∧ c0.ip.toNat + (n + 1) / 2 ≤ 65535 ∧ c1.ip.toNat + n / 2 ≤ 65535 :=
  ⟨5, ((at0 (core [] (ip := 65532))).setCore 1 (core [])).select 1, core [] (ip := 65532), core [],
    rfl, rfl, rfl, rfl, rfl, fun _ => rfl, by decide, by decide⟩

theorem witness_RaisedStatusDiscardsEveryWrite : ∃ t, exec .dr (at0 (core [])) = .next t ∧ t.status ≠ .none ∧ (at0 (core [])).status = .none :=
  ⟨_, rfl, by decide, rfl⟩

theorem witness_EndedRunWaitsForTheHost : ((at0 (core [])).setStatus .systemHalt).status ≠ .none := by decide

/-- For every instruction with guard counts: one cell too few, and one push too many, for all statements that say `TrapsByGuard`. -/
theorem witness_GuardComesFirst (i : Instr) :
    ((guardCounts i).1 ≠ 0 → ∃ (s : State) (c : CoreState), s.current? = some c ∧ c.data.length + 1 = (guardCounts i).1) ∧
    ∃ (s : State) (c : CoreState), s.current? = some c ∧ (guardCounts i).1 ≤ c.data.length ∧ c.data.length + (guardCounts i).2 = 33 := by
  refine ⟨fun h => ⟨at0 (core (pad ((guardCounts i).1 - 1))), _, rfl, ?_⟩, at0 (core (pad (33 - (guardCounts i).2))), _, rfl, ?_⟩
  · simp [core, pad]; omega
  · cases i <;> simp [core, pad, guardCounts]

theorem witness_GuardThatHolds : ∃ (s t : State) (c : CoreState), s.current? = some c ∧ s.status = .none ∧
    (guardCounts .md).1 ≤ c.data.length ∧ c.data.length + (guardCounts .md).2 = 32 ∧ exec .md s = .next t :=
  ⟨at0 (core (pad 30)), _, _, rfl, rfl, by decide, by decide, rfl⟩

theorem witness_OnlyItsOwnStatuses : ∃ (s t : State), s.status = .none ∧ (∀ c, s.current? = some c → c.data.length ≤ 32) ∧
    exec .dm s = .next t ∧ t.status = .divisionByZero :=
  ⟨at0 (core [0, 1]), _, rfl, by rintro c h; cases h; decide, rfl, rfl⟩

theorem witness_EveryStopHasItsGround : (∃ r, exec .ic (at0 (core [2, 137])) = .refused r) ∧
    ∃ f, exec .no ((at0 (core [])).select 2) = .fault f := ⟨⟨_, rfl⟩, _, rfl⟩

theorem witness_SharedStateFrame : ∃ t, exec .ad (at0 (core [1, 2])) = .next t := ⟨_, rfl⟩

theorem witness_OnlyCoreControlReachesSiblings : (∃ t, exec .ad (at0 (core [1, 2])) = .next t) ∧ 1 ≠ (at0 (core [1, 2])).curCoreId :=
  ⟨⟨_, rfl⟩, by decide⟩

theorem witness_ExecutingCoreFrame : ∃ (t : State) (d : CoreState), (at0 (core [])).current? = some (core []) ∧
    exec .si (at0 (core [])) = .next t ∧ t.current? = some d ∧ guardCounts .si = (0, 0) := ⟨_, _, rfl, rfl, rfl, rfl⟩

theorem witness_ModesDecay : ∃ (s t : State) (d : CoreState), s.status = .none ∧ exec .ju s = .next t ∧ t.status = .none ∧
    t.current? = some d :=
  ⟨at0 { core [7] .float with addrMode := .relative }, _, _, rfl, rfl, rfl, rfl⟩

theorem witness_SiblingsPrivateStateIsNotRead : ∃ (s s' t : State), s'.current? = s.current? ∧ s'.memory = s.memory ∧
    s'.interruptTable = s.interruptTable ∧ s'.intEnabled = s.intEnabled ∧ s'.status = s.status ∧ exec .ad s = .next t ∧ s' ≠ s :=
  ⟨at0 (core [1, 2]), (at0 (core [1, 2])).setCore 1 (core [9]), _, rfl, rfl, rfl, rfl, rfl, rfl, fun h => by
    have : (core [9]).data = (CoreState.default 0).data := by
      have h1 := congrArg (fun s : State => (s.cores[1]?.map (·.data))) h
      exact Option.some.inj h1
    cases this⟩

theorem witness_LiteralsPushTheirImmediate : ∀ op ∈ [(0x01 : Byte), 0x02, 0x03], ∃ (s : State) (c : CoreState),
    s.current? = some c ∧ c.data.length ≤ 31 ∧ s.memory.byteAt c.ip.toNat = op := by
  intro op h
  refine ⟨(at0 (core (pad 31) (ip := 65527))).setMemory (ram 65527 [op]), _, rfl, by decide, ?_⟩
  simp only [List.mem_cons, List.not_mem_nil, or_false] at h
  rcases h with rfl | rfl | rfl <;> decide

/-- The four bytes end at the last address of memory. -/
theorem witness_LoadsPushTheBytesAtTheAddress : ∃ (s : State) (c : CoreState) (a : Cell) (rest : List Cell) (v : Cell),
    s.current? = some c ∧ c.data = a :: rest ∧ c.data.length ≤ 31 ∧ a.toNat + 4 = 65535 ∧
    v.toNat = (s.memory.byteAt a.toNat).toNat + 2 ^ 8 * (s.memory.byteAt (a.toNat + 1)).toNat +
      2 ^ 16 * (s.memory.byteAt (a.toNat + 2)).toNat + 2 ^ 24 * (s.memory.byteAt (a.toNat + 3)).toNat :=
  ⟨(at0 (core (65531 :: pad 30))).setMemory (ram 65531 [0x44, 0x33, 0x22, 0x11]), _, 65531, pad 30, 0x11223344,
    rfl, rfl, by decide, by decide, by decide⟩

theorem witness_LoadsOfFewerBytes : ∃ (s : State) (c : CoreState) (a : Cell) (rest : List Cell) (h b : Cell),
    s.current? = some c ∧ c.data = a :: rest ∧ c.data.length ≤ 31 ∧ a.toNat + 2 = 65535 ∧
    h.toNat = (s.memory.byteAt a.toNat).toNat + 2 ^ 8 * (s.memory.byteAt (a.toNat + 1)).toNat ∧
    b.toNat = (s.memory.byteAt a.toNat).toNat :=
  ⟨(at0 (core (65533 :: pad 30))).setMemory (ram 65533 [0x44, 0x33]), _, 65533, pad 30, 0x3344, 0x44,
    rfl, rfl, by decide, by decide, by decide, by decide⟩

/-- The last address at which a word fits, and the first at which it does not. -/
theorem witness_StoresWriteTheLowBytes : ∃ (s s' : State) (c c' : CoreState) (v : Cell) (rest : List Cell),
    (s.memory.wf = true ∧ s.current? = some c ∧ c.data = 65531#32 :: v :: rest ∧ c.data.length ≤ 32 ∧ (65531#32 : Cell).toNat + 4 ≤ 65535) ∧
    (s'.memory.wf = true ∧ s'.current? = some c' ∧ c'.data = 65532#32 :: v :: rest ∧ c'.data.length ≤ 32 ∧
      65535 < (65532#32 : Cell).toNat + 4) :=
  ⟨at0 (core (65531 :: 7 :: pad 30)), at0 (core (65532 :: 7 :: pad 30)), _, _, 7, pad 30,
    ⟨by decide, rfl, rfl, by decide, by decide⟩, by decide, rfl, rfl, by decide, by decide⟩

theorem witness_LoadAfterStoreGivesTheLowBytes : (ram 5 [1]).wf = true ∧ 65531 + Width.word.bytes ≤ 65535 := by decide

theorem witness_EqualContentsAreEqualData : ∃ m m' : Memory, m.wf = true ∧ m'.wf = true ∧ m ≠ ⟨[]⟩ ∧
    ∀ a, a < 65535 → m.byteAt a = m'.byteAt a :=
  ⟨ram 5 [1, 0, 2], ((ram 7 [2]).writeByte 6 3).writeRange 5 [1, 0], by decide, by decide, by decide, fun _ _ => rfl⟩

theorem witness_StackRearrangement : (∃ (s : State) (c : CoreState) (v : Cell) (rest : List Cell),
      s.current? = some c ∧ c.data = v :: rest ∧ c.data.length ≤ 30) ∧
    (∃ (s : State) (c : CoreState) (v : Cell) (rest : List Cell), s.current? = some c ∧ c.data = v :: rest ∧ c.data.length = 32) ∧
    ∃ (s : State) (c : CoreState) (y x : Cell) (rest : List Cell), s.current? = some c ∧ c.data = y :: x :: rest ∧ c.data.length ≤ 30 :=
  ⟨⟨at0 (core (5 :: pad 29)), _, 5, pad 29, rfl, rfl, by decide⟩, ⟨at0 (core (5 :: pad 31)), _, 5, pad 31, rfl, rfl, by decide⟩,
    at0 (core (5 :: 9 :: pad 28)), _, 5, 9, pad 28, rfl, rfl, by decide⟩

theorem witness_AddressStackMoves : (∃ (s : State) (c : CoreState) (v : Cell) (rest : List Cell),
      s.current? = some c ∧ c.data = v :: rest ∧ c.data.length ≤ 32 ∧ c.addrs.length = 127) ∧
    (∃ (s : State) (c : CoreState) (v : Cell) (rest : List Cell), s.current? = some c ∧ c.addrs = v :: rest ∧ c.data.length ≤ 31) ∧
    ∃ (s : State) (c : CoreState), s.current? = some c ∧ c.addrs = [] ∧ c.data.length ≤ 31 :=
  ⟨⟨at0 { core (5 :: pad 31) with addrs := pad 127 }, _, 5, pad 31, rfl, rfl, by decide, by simp [pad]⟩,
    ⟨at0 { core (pad 31) with addrs := [6] }, _, 6, [], rfl, rfl, by decide⟩, at0 (core (pad 31)), _, rfl, rfl, by decide⟩

/-- For EqualityComparesBits, IntegerArithmeticWraps, IntegerOrderComparisons, FloatOrderComparisons, ShiftsByTheLowFiveBits and
BitwiseActOnRawBits: a second operand under the top of a stack with one free place, in each mode. -/
theorem witness_TwoOperandsInEachMode : ∀ mode : OpMode, ∃ (s : State) (c : CoreState) (r l : Cell) (rest : List Cell),
    s.current? = some c ∧ c.data = r :: l :: rest ∧ c.data.length ≤ 31 ∧ c.opMode = mode := by
  intro mode
  exact ⟨at0 (core (1 :: 2 :: pad 29) mode), _, 1, 2, pad 29, rfl, rfl, by simp [core, pad], rfl⟩

theorem witness_FloatArithmeticIsCorrectlyRounded : ∃ (s : State) (c : CoreState) (r l : Cell) (rest : List Cell) (a b : Bool) (m n : Nat),
    s.current? = some c ∧ c.data = r :: l :: rest ∧ c.data.length ≤ 31 ∧ c.opMode = .float ∧
    toF32 l = .finite a m ∧ toF32 r = .finite b n :=
  ⟨at0 (core (0x7F7FFFFF :: 0x80000001 :: pad 29) .float), _, 0x7F7FFFFF, 0x80000001, pad 29, true, false, 1, (2 ^ 24 - 1) * 2 ^ 253,
    rfl, rfl, by decide, rfl, by decide, by decide⟩

/-- The patterns of each clause of FloatArithmeticOnNaNAndInfinity and of FloatDivisionOnNaNAndInfinity; the state is that of
`witness_TwoOperandsInEachMode`, whose operands may be any. -/
theorem witness_FloatArithmeticOnNaNAndInfinity :
    isNaN 0x7FC00000 = true ∧ toF32 0x7F800000 = .infinite false ∧ toF32 0xFF800000 = .infinite true ∧
    toF32 0x80000000 = .finite true 0 ∧ toF32 0x00000001 = .finite false 1 ∧
    ∀ l r : Cell, ∃ (s : State) (c : CoreState) (rest : List Cell), s.current? = some c ∧ c.data = r :: l :: rest ∧ c.data.length ≤ 30 ∧
      c.opMode = .float := by
  refine ⟨by decide, by decide, by decide, by decide, by decide, fun l r => ?_⟩
  exact ⟨at0 (core (r :: l :: pad 28) .float), _, pad 28, rfl, rfl, by simp [core, pad], rfl⟩

theorem witness_FinitePatternsRoundToThemselves : toF32 0x007FFFFF = .finite false (2 ^ 23 - 1) ∧
    toF32 0x80800000 = .finite true (2 ^ 23) := by decide

theorem witness_ZeroDivisorRaises : ∃ (s s' : State) (c c' : CoreState) (x : Cell) (rest : List Cell),
    s.current? = some c ∧ c.data = 0#32 :: x :: rest ∧ c.data.length ≤ 30 ∧ rest ≠ [] ∧
    s'.current? = some c' ∧ c'.data = 0x80000000#32 :: x :: rest ∧ c'.data.length ≤ 30 ∧ c'.opMode = .float :=
  ⟨at0 (core (0 :: 5 :: pad 28)), at0 (core (0x80000000 :: 5 :: pad 28) .float), _, _, 5, pad 28,
    rfl, rfl, by decide, by decide, rfl, rfl, by decide, rfl⟩

/-- Two and three operands under a divisor that is no zero, in each integer mode. -/
theorem witness_IntegerDivision : ∀ mode : OpMode, ∃ (s : State) (c : CoreState) (r m l : Cell) (rest : List Cell),
    s.current? = some c ∧ c.data = r :: m :: l :: rest ∧ c.data.length ≤ 30 ∧ r ≠ 0#32 ∧ c.opMode = mode := by
  intro mode
  exact ⟨at0 (core (0xFFFFFFFF :: 0x80000000 :: 3 :: pad 27) mode), _, 0xFFFFFFFF, 0x80000000, 3, pad 27,
    rfl, rfl, by simp [core, pad], by decide, rfl⟩

theorem witness_FloatDivisionRoundsAndRemainderIsExact : ∃ (s : State) (c : CoreState) (r l : Cell) (rest : List Cell) (a b : Bool)
    (m n : Nat), s.current? = some c ∧ c.data = r :: l :: rest ∧ c.data.length ≤ 30 ∧ c.opMode = .float ∧
    toF32 l = .finite a m ∧ toF32 r = .finite b n ∧ n ≠ 0 :=
  ⟨at0 (core (0x80000001 :: 0x00000003 :: pad 28) .float), _, 0x80000001, 0x00000003, pad 28, false, true, 3, 1,
    rfl, rfl, by decide, rfl, by decide, by decide, by decide⟩

theorem witness_FloatDivisionOnNaNAndInfinity : ∃ (s : State) (c : CoreState) (rest : List Cell),
    s.current? = some c ∧ c.data = 0x7F800000#32 :: 0x3F800000#32 :: rest ∧ c.data.length ≤ 30 ∧ c.opMode = .float ∧
    (0x7F800000#32 : Cell) ≠ 0#32 ∧ (0x7F800000#32 : Cell) ≠ 0x80000000#32 :=
  ⟨at0 (core (0x7F800000 :: 0x3F800000 :: pad 28) .float), _, pad 28, rfl, rfl, by decide, rfl, by decide, by decide⟩

theorem witness_FloatMultiplyDivide : ∃ (s : State) (c : CoreState) (r m l : Cell) (rest : List Cell),
    s.current? = some c ∧ c.data = r :: m :: l :: rest ∧ c.data.length ≤ 30 ∧ c.opMode = .float ∧ r ≠ 0#32 ∧ r ≠ 0x80000000#32 :=
  ⟨at0 (core (0x40000000 :: 0x3F800000 :: 0x40E00000 :: pad 27) .float), _, 0x40000000, 0x3F800000, 0x40E00000, pad 27,
    rfl, rfl, by decide, rfl, by decide, by decide⟩

theorem witness_BitwiseActOnRawBits : ∃ (s : State) (c : CoreState) (v : Cell) (rest : List Cell),
    s.current? = some c ∧ c.data = v :: rest ∧ c.data.length ≤ 31 := ⟨at0 (core (5 :: pad 30)), _, 5, pad 30, rfl, rfl, by decide⟩

theorem witness_PackAndUnpackBytes : (∃ (s : State) (c : CoreState) (x4 x3 x2 x1 : Cell) (rest : List Cell) (v : Cell),
      s.current? = some c ∧ c.data = x4 :: x3 :: x2 :: x1 :: rest ∧ c.data.length ≤ 31 ∧
      v.toNat = x4.toNat % 256 + 2 ^ 8 * (x3.toNat % 256) + 2 ^ 16 * (x2.toNat % 256) + 2 ^ 24 * (x1.toNat % 256)) ∧
    ∃ (s : State) (c : CoreState) (v : Cell) (rest : List Cell), s.current? = some c ∧ c.data = v :: rest ∧ c.data.length ≤ 28 :=
  ⟨⟨at0 (core (0xDD :: 0xCC :: 0xBB :: 0x1AA :: pad 27)), _, 0xDD, 0xCC, 0xBB, 0x1AA, pad 27, 0xAABBCCDD, rfl, rfl, by decide, by decide⟩,
    at0 (core (5 :: pad 27)), _, 5, pad 27, rfl, rfl, by decide⟩

/-- For CallsPushTheReturnAddress and JumpsGoToTheTarget: a target, with the condition true, and with one that is neither all ones
nor zero, in each address mode. -/
theorem witness_CallsPushTheReturnAddress : ∀ mode : AddrMode, ∀ cond ∈ [0xFFFFFFFF#32, 1#32],
    ∃ (s : State) (c : CoreState) (t : Cell) (rest : List Cell),
      s.current? = some c ∧ c.data = t :: cond :: rest ∧ c.data.length ≤ 32 ∧ c.addrs.length = 127 ∧ c.addrMode = mode := by
  intro mode cond _
  exact ⟨at0 { core (7 :: cond :: pad 30) with addrMode := mode, addrs := pad 127 }, _, 7, pad 30,
    rfl, rfl, by simp [core, pad], by simp [pad], rfl⟩

theorem witness_JumpsGoToTheTarget : ∃ (s : State) (c : CoreState) (t : Cell) (rest : List Cell),
    s.current? = some c ∧ c.data = t :: rest ∧ c.data.length ≤ 32 := ⟨at0 (core (7 :: pad 31)), _, 7, pad 31, rfl, rfl, by decide⟩

theorem witness_ReturnsPopTheAddressStack : (∃ (s : State) (c : CoreState) (v : Cell) (arest rest : List Cell),
      s.current? = some c ∧ c.addrs = v :: arest ∧ c.data = 0xFFFFFFFF#32 :: rest ∧ c.data.length ≤ 32) ∧
    (∃ (s : State) (c : CoreState) (rest : List Cell),
      s.current? = some c ∧ c.addrs = [] ∧ c.data = 0xFFFFFFFF#32 :: rest ∧ c.data.length ≤ 32) ∧
    ∃ (s : State) (c : CoreState) (cond : Cell) (rest : List Cell),
      s.current? = some c ∧ c.data = cond :: rest ∧ c.data.length ≤ 32 ∧ cond ≠ 0xFFFFFFFF#32 :=
  ⟨⟨at0 { core (0xFFFFFFFF :: pad 31) with addrs := [6] }, _, 6, [], pad 31, rfl, rfl, rfl, by decide⟩,
    ⟨at0 (core (0xFFFFFFFF :: pad 31)), _, pad 31, rfl, rfl, rfl, by decide⟩,
    at0 (core (0xFFFFFFFE :: pad 31)), _, 0xFFFFFFFE, pad 31, rfl, rfl, by decide, by decide⟩

/-- For SvStoresTheHandlerAddress, RegisterReadAndWrite, IiInvokesAPresentSlot, IcInitialisesACore and ActivationInstructions: the last
id that exists and the first that does not, over another operand and with a full stack. -/
theorem witness_SvStoresTheHandlerAddress : ∀ id ∈ [(127 : Cell), 128, 23, 24, 15, 16, 0, 1, 2],
    ∃ (s : State) (c : CoreState) (v : Cell) (rest : List Cell),
      s.current? = some c ∧ c.data = id :: v :: rest ∧ c.data.length ≤ 32 ∧ s.cores.length = 2 ∧ s.curCoreId = 0 := by
  intro id _
  exact ⟨at0 (core (id :: 40 :: pad 30)), _, 40, pad 30, rfl, rfl, by simp [core, pad], rfl, rfl⟩

theorem witness_InterruptEnableAndTrigger : ∃ (s : State) (c : CoreState) (id : Cell) (rest : List Cell),
    s.current? = some c ∧ c.data = id :: rest ∧ c.data.length ≤ 32 := ⟨at0 (core (200 :: pad 31)), _, 200, pad 31, rfl, rfl, by decide⟩

/-- An absent slot, and the last slot, present. -/
theorem witness_IiInvokesAPresentSlot : (∃ (s : State) (c : CoreState) (rest : List Cell),
      s.current? = some c ∧ c.data = 15#32 :: rest ∧ c.data.length ≤ 32 ∧ s.ioTable[(15#32 : Cell).toNat]? ≠ some true) ∧
    ∃ (s : State) (c : CoreState) (rest : List Cell),
      s.current? = some c ∧ c.data = 15#32 :: rest ∧ c.data.length ≤ 32 ∧ s.ioTable[(15#32 : Cell).toNat]? = some true :=
  ⟨⟨at0 (core (15 :: pad 31)), _, pad 31, rfl, rfl, by decide, by decide⟩,
    ((State.construct .eight (.replicate _ true)).select 0).setCurrent (core (15 :: pad 31)), _, pad 31, rfl, rfl, by decide, by decide⟩

theorem witness_CallbacksChangeOnlyTheWindow : ∃ (s t : State), s.memory.wf = true ∧
    callbackResult (.returns [.ioWriteByte 191 5, .ioWriteByte 192 5, .snapshot]) s = .ok t :=
  ⟨at0 (core []), _, by decide, rfl⟩

/-- A memory in canonical form, the last address of the window and the first after it. -/
theorem witness_CallbackOperationsTakeEffect : (at0 (core [])).memory.wf = true ∧ 191 < 192 ∧ 192 ≤ 192 := by decide

/-- The executing core's own id, the sibling's, and the first id that is no core's; the sibling exists. -/
theorem witness_IcInitialisesACore : ∀ id ∈ [(0 : Cell), 1, 2], ∃ (s : State) (c d : CoreState) (addr : Cell) (rest : List Cell),
    s.current? = some c ∧ c.data = id :: addr :: rest ∧ c.data.length ≤ 32 ∧
    (id.toNat = s.curCoreId ∨ (id.toNat < s.cores.length ∧ id.toNat ≠ s.curCoreId ∧ s.cores[id.toNat]? = some d) ∨
      s.cores.length ≤ id.toNat) := by
  intro id h
  refine ⟨at0 (core (id :: 137 :: pad 30)), _, CoreState.default 0, 137, pad 30, rfl, rfl, by simp [core, pad], ?_⟩
  simp only [List.mem_cons, List.not_mem_nil, or_false] at h
  rcases h with rfl | rfl | rfl
  · exact .inl rfl
  · exact .inr (.inl ⟨by decide, by decide, rfl⟩)
  · exact .inr (.inr (by decide))

theorem witness_ActivationInstructions : ∀ id ∈ [(0 : Cell), 1, 2], ∃ (s : State) (c : CoreState) (rest : List Cell),
    s.current? = some c ∧ c.data = id :: rest ∧ c.data.length ≤ 32 := by
  intro id _
  exact ⟨at0 (core (id :: pad 31)), _, pad 31, rfl, rfl, by simp [core, pad]⟩

theorem witness_RegisterReadAndWrite : (∃ (s : State) (c : CoreState) (v : Cell) (rest : List Cell),
      s.current? = some c ∧ c.data = 23#32 :: rest ∧ c.data.length ≤ 31 ∧ c.regs[(23#32 : Cell).toNat]? = some v) ∧
    ∃ (s : State) (c : CoreState) (rest : List Cell),
      s.current? = some c ∧ c.data = 24#32 :: rest ∧ c.data.length ≤ 31 ∧ 24 ≤ (24#32 : Cell).toNat :=
  ⟨⟨at0 (core (23 :: pad 30)), _, 0, pad 30, rfl, rfl, by decide, by decide⟩, at0 (core (24 :: pad 30)), _, pad 30, rfl, rfl,
    by decide, by decide⟩

/-- For CpCopiesTheBlock and BcComparesTheBlocks: overlapping ranges of which one ends at the last address, and a range one byte longer. -/
theorem witness_CpCopiesTheBlock : ∀ len ∈ [(5 : Cell), 6], ∃ (s : State) (c : CoreState) (dst orig : Cell) (rest : List Cell),
    s.memory.wf = true ∧ s.current? = some c ∧ c.data = len :: dst :: orig :: rest ∧ c.data.length ≤ 31 ∧
    dst.toNat + 5 = 65535 ∧ orig.toNat + 6 ≤ 65535 := by
  intro len _
  exact ⟨at0 (core (len :: 65530 :: 65528 :: pad 28)), _, 65530, 65528, pad 28, rfl, rfl, rfl, by simp [core, pad],
    by decide, by decide⟩

/-- Two ranges that hold the same bytes, and two that do not. -/
theorem witness_BcComparesTheBlocks : ∃ m : Memory, (∀ k, k < 2 → m.byteAt (100 + k) = m.byteAt (200 + k)) ∧
    ∃ k, k < 3 ∧ m.byteAt (100 + k) ≠ m.byteAt (200 + k) :=
  ⟨(ram 100 [1, 2]).writeRange 200 [1, 2, 3], by decide, 2, by decide, by decide⟩

theorem witness_NoAndModeSetters : (at0 (core [] .float)).current? = some (core [] .float) := rfl

theorem witness_HostOperations : (ram 5 [1]).wf = true ∧ (3 : Nat) ≤ [1, 2, 3].length ∧ 191 < 192 ∧ 192 ≤ 192 := by decide

end Sys2Proof.Tests
end

section
/-! SUPPORT. The ways in which an operation on a core, a stack or a callback can complete or stop, read off its `_apply` equation. -/

namespace Sys2Proof.Machine

theorem getCore_ok {s t : State} {c : CoreState} (h : getCore s = .ok (c, t)) : s.current? = some c ∧ t = s := by
  rw [getCore_apply] at h
  split at h <;> cases h
  exact ⟨‹_›, rfl⟩

theorem getCore_error {s : State} {e : Stop} (h : getCore s = .error e) : s.current? = none ∧ e = .stuck .noCurrentCore := by
  rw [getCore_apply] at h
  split at h <;> cases h
  exact ⟨‹_›, rfl⟩

theorem coreAt_ok {id : Nat} {s t : State} {c : CoreState} (h : coreAt id s = .ok (c, t)) : s.cores[id]? = some c ∧ t = s := by
  rw [coreAt_apply] at h
  split at h <;> cases h
  exact ⟨‹_›, rfl⟩

theorem coreAt_error {id : Nat} {s : State} {e : Stop} (h : coreAt id s = .error e) :
    s.cores.length ≤ id ∧ e = .undefined (.illegalCoreId id) := by
  rw [coreAt_apply] at h
  split at h <;> cases h
  exact ⟨List.getElem?_eq_none_iff.1 ‹_›, rfl⟩

/-- A guard that completes has found the cells and the free slots it asks for (41_engine.md R230). -/
theorem guardStack_ok {p q : Nat} {s t : State} {a : Unit} (h : guardStack p q s = .ok (a, t)) :
    (∃ c, s.current? = some c ∧ p ≤ c.data.length ∧ c.data.length + q ≤ 32) ∧ t = s := by
  rw [guardStack_apply] at h
  split at h
  next c hc =>
    split at h
    · cases h
    · split at h <;> cases h
      exact ⟨⟨c, hc, by omega, by omega⟩, rfl⟩
  next => cases h

theorem pop_ok {s t : State} {v : Cell} (h : pop s = .ok (v, t)) :
    ∃ c rest, s.current? = some c ∧ c.data = v :: rest ∧ t = s.setCurrent { c with data := rest } := by
  rw [pop_apply] at h
  split at h
  next c hc =>
    split at h <;> cases h
    exact ⟨c, _, hc, ‹_›, rfl⟩
  next => cases h

theorem pop_error {s : State} {e : Stop} (h : pop s = .error e) :
    (s.current? = none ∧ e = .stuck .noCurrentCore) ∨ ∃ c, s.current? = some c ∧ c.data = [] := by
  rw [pop_apply] at h
  split at h
  next c hc =>
    split at h <;> cases h
    exact .inr ⟨c, hc, ‹_›⟩
  next hc =>
    cases h
    exact .inl ⟨hc, rfl⟩

theorem push_ok {v : Cell} {s t : State} {a : Unit} (h : push v s = .ok (a, t)) :
    ∃ c, s.current? = some c ∧ c.data.length < 32 ∧ t = s.setCurrent { c with data := v :: c.data } := by
  rw [push_apply] at h
  split at h
  next c hc =>
    split at h <;> cases h
    exact ⟨c, hc, ‹_›, rfl⟩
  next => cases h

theorem push_error {v : Cell} {s : State} {e : Stop} (h : push v s = .error e) :
    (s.current? = none ∧ e = .stuck .noCurrentCore) ∨ ∃ c, s.current? = some c ∧ 32 ≤ c.data.length := by
  rw [push_apply] at h
  split at h
  next c hc =>
    split at h <;> cases h
    exact .inr ⟨c, hc, by omega⟩
  next hc =>
    cases h
    exact .inl ⟨hc, rfl⟩

theorem apush_ok {v : Cell} {s t : State} {a : Unit} (h : apush v s = .ok (a, t)) :
    ∃ c, s.current? = some c ∧ c.addrs.length < 128 ∧ t = s.setCurrent { c with addrs := v :: c.addrs } := by
  rw [apush_apply] at h
  split at h
  next c hc =>
    split at h <;> cases h
    exact ⟨c, hc, ‹_›, rfl⟩
  next => cases h

theorem apop_ok {s t : State} {v : Cell} (h : apop s = .ok (v, t)) :
    ∃ c rest, s.current? = some c ∧ c.addrs = v :: rest ∧ t = s.setCurrent { c with addrs := rest } := by
  rw [apop_apply] at h
  split at h
  next c hc =>
    split at h <;> cases h
    exact ⟨c, _, hc, ‹_›, rfl⟩
  next => cases h

theorem writeRegister_ok {id : Nat} {v : Cell} {s t : State} {a : Unit} (h : writeRegister id v s = .ok (a, t)) :
    ∃ c, s.current? = some c ∧ t = s.setCurrent { c with regs := c.regs.setIfInBounds id v } := by
  rw [writeRegister_apply] at h
  split at h
  next c hc =>
    split at h <;> cases h
    exact ⟨c, hc, rfl⟩
  next => cases h

/-- II's call of an absent slot does nothing. -/
theorem callSlot_ok {id : Nat} {s t : State} {a : Unit} (h : callSlot id s = .ok (a, t)) : t = s ∨ invokeCallback id s = .ok t := by
  rw [callSlot_apply] at h
  split at h
  · split at h <;> cases h
    exact .inr ‹_›
  · cases h
    exact .inl rfl

theorem callSlot_error {id : Nat} {s : State} {e : Stop} (h : callSlot id s = .error e) : invokeCallback id s = .error e := by
  rw [callSlot_apply] at h
  split at h
  · split at h <;> cases h
    assumption
  · cases h

/-- The host calls of a callback stop it only where one is not allowed (60_exceptions.md R490). -/
theorem callbackSteps_error {calls : List HostCall} {s : State} {e : Stop} (h : callbackSteps calls s = .error e) :
    ∃ call, e = .undefined (.illegalHostCall call) := by
  induction calls generalizing s with
  | nil => cases h
  | cons call rest ih =>
    cases call <;> simp only [callbackSteps, callbackStep] at h
    case ioReadByte | ioWriteByte | snapshot => exact ih h
    all_goals
      cases h
      exact ⟨_, rfl⟩

theorem callbackResult_error {run : CallbackRun} {s : State} {e : Stop} (h : callbackResult run s = .error e) :
    (∃ call, e = .undefined (.illegalHostCall call)) ∨ e = .stuck .callbackNeverReturns := by
  cases run with
  | returns calls => exact .inl (callbackSteps_error h)
  | neverReturns =>
    cases h
    exact .inr rfl

theorem callbackSteps_wf {calls : List HostCall} {s t : State} (hs : s.memory.wf = true) (h : callbackSteps calls s = .ok t) :
    t.memory.wf = true := by
  induction calls generalizing s with
  | nil =>
    cases h
    exact hs
  | cons call rest ih =>
    cases call <;> simp only [callbackSteps, callbackStep] at h
    case ioWriteByte addr b =>
      refine ih ?_ h
      unfold ioWriteByte
      split
      · exact Memory.writeByte_wf hs addr b
      · exact hs
    case ioReadByte | snapshot => exact ih hs h
    all_goals cases h

theorem callbackResult_wf {run : CallbackRun} {s t : State} (hs : s.memory.wf = true) (h : callbackResult run s = .ok t) :
    t.memory.wf = true := by
  cases run with
  | returns calls => exact callbackSteps_wf hs h
  | neverReturns => cases h

theorem invokeCallback_wf {id : Nat} {s t : State} (hs : s.memory.wf = true) (h : invokeCallback id s = .ok t) :
    t.memory.wf = true := callbackResult_wf (s := s.logCallback id) hs h

end Sys2Proof.Machine
end

section
/-! SUPPORT. What a handler keeps: a state invariant goes through a handler statement by statement, so each named operation is looked
at once and an instruction is the sequence of its statements. -/

namespace Sys2Proof.Machine

/-- A handler that completes leaves the state as it was. -/
def ReadOnly {α : Type} (x : Handler α) : Prop := ∀ (s t : State) (a : α), x s = .ok (a, t) → t = s

/-- A handler that completes leads from states with `I` to states with `I`. -/
def Keeps {α : Type} (I : State → Prop) (x : Handler α) : Prop :=
  ∀ (s t : State) (a : α), I s → x s = .ok (a, t) → I t

/-! ### The operations that only read -/

@[simp] theorem readOnly_pure {α : Type} (a : α) : ReadOnly (pure a) := by
  intro s t b h
  cases h
  rfl

@[simp] theorem readOnly_raise {α : Type} (st : Status) : ReadOnly (raise st : Handler α) := nofun

@[simp] theorem readOnly_orRaise {α : Type} (x : Except Status α) : ReadOnly (orRaise x) := by
  intro s t a h
  cases x <;> cases h
  rfl

@[simp] theorem readOnly_getCore : ReadOnly getCore := fun _ _ _ h => (getCore_ok h).2

@[simp] theorem readOnly_coreAt (id : Nat) : ReadOnly (coreAt id) := fun _ _ _ h => (coreAt_ok h).2

@[simp] theorem readOnly_getIntEnabled : ReadOnly getIntEnabled := by
  intro s t b h
  cases h
  rfl

@[simp] theorem readOnly_interrupt (id : Nat) : ReadOnly (interrupt id) := readOnly_pure ()

theorem readOnly_bind {α β : Type} {x : Handler α} {f : α → Handler β} (hx : ReadOnly x) (hf : ∀ a, ReadOnly (f a)) :
    ReadOnly (x >>= f) := by
  intro s t b h
  obtain ⟨a, s', ha, hb⟩ := handler_bind_ok_iff.1 h
  rw [hf a _ _ _ hb, hx _ _ _ ha]

@[simp] theorem readOnly_guardStack (p q : Nat) : ReadOnly (guardStack p q) := fun _ _ _ h => (guardStack_ok h).2

@[simp] theorem readOnly_checkRange (addr len : Nat) : ReadOnly (checkRange addr len) := by
  unfold checkRange
  split
  · exact readOnly_pure _
  · exact readOnly_raise _

@[simp] theorem readOnly_immediate (offset len : Nat) (v : Cell) : ReadOnly (immediate offset len v) :=
  readOnly_bind readOnly_getCore fun _ => readOnly_bind (readOnly_checkRange _ _) fun _ => readOnly_pure v

@[simp] theorem readOnly_memRead (addr : Nat) (w : Width) : ReadOnly (memRead addr w) :=
  readOnly_bind (readOnly_checkRange _ _) fun _ _ _ _ h => by cases h; rfl

@[simp] theorem readOnly_compareBlock (len dst orig : Nat) : ReadOnly (compareBlock len dst orig) :=
  readOnly_bind (readOnly_checkRange _ _) fun _ => readOnly_bind (readOnly_checkRange _ _) fun _ _ _ _ h => by cases h; rfl

@[simp] theorem readOnly_readRegister (id : Nat) : ReadOnly (readRegister id) := by
  refine readOnly_bind readOnly_getCore fun c => ?_
  split
  · exact readOnly_pure _
  · exact readOnly_raise _

/-! ### Invariants through a handler -/

section
variable {α β : Type} {I : State → Prop}

@[simp] theorem keeps_of_readOnly {x : Handler α} (h : ReadOnly x) : Keeps I x := fun s t a hs ht => h s t a ht ▸ hs

@[simp] theorem keeps_bind {x : Handler α} {f : α → Handler β} (hx : Keeps I x) (hf : ∀ a, Keeps I (f a)) :
    Keeps I (x >>= f) := by
  intro s t b hs h
  obtain ⟨a, s', ha, hb⟩ := handler_bind_ok_iff.1 h
  exact hf a _ _ _ (hx _ _ _ hs ha) hb

@[simp] theorem keeps_ite {p : Prop} [Decidable p] {x y : Handler α} (hx : Keeps I x) (hy : Keeps I y) :
    Keeps I (if p then x else y) := by
  split
  · exact hx
  · exact hy

/-- What comes after a statement that only reads runs in the state that was read. -/
theorem keeps_bind_of_readOnly {x : Handler α} {f : α → Handler β} (hx : ReadOnly x)
    (hf : ∀ (s t : State) (a : α) (b : β), x s = .ok (a, s) → I s → f a s = .ok (b, t) → I t) : Keeps I (x >>= f) := by
  intro s t b hs h
  obtain ⟨a, s', ha, hb⟩ := handler_bind_ok_iff.1 h
  obtain rfl := hx _ _ _ ha
  exact hf _ _ _ _ ha hs hb

/-- A read and a write that keep the invariant together, and what follows them. -/
theorem keeps_bind_assoc {γ : Type} {x : Handler α} {f : α → Handler β} {k : β → Handler γ} (hx : Keeps I (x >>= f))
    (hk : ∀ b, Keeps I (k b)) : Keeps I (x >>= fun a => f a >>= k) := by
  rw [← bind_assoc]
  exact keeps_bind hx hk

theorem keeps_update {f : State → State} (hf : ∀ s, I s → I (f s)) : Keeps I (update f) := by
  intro s t a hs h
  cases h
  exact hf s hs

/-- A transaction keeps an invariant that its handler keeps and that does not read the status output. -/
theorem transact_keeps {h : Handler Unit} {s t : State} (hk : Keeps I h) (hst : ∀ st, I s → I (s.setStatus st))
    (ht : transact h s = .next t) (hs : I s) : I t := by
  rcases transact_next_iff.1 ht with hok | ⟨st, -, rfl⟩
  · exact hk _ _ _ hs hok
  · exact hst st hs

end

end Sys2Proof.Machine
end

section
/-! PROOF of O8. Each operation keeps a state legal, so each instruction does, and the scheduler selects a core's id. -/

namespace Sys2Proof.Machine

/-! ### Updates of a legal state -/

theorem State.Legal.core {s : State} {c : CoreState} {id : Nat} (hs : s.Legal) (hc : s.cores[id]? = some c) : c.Legal := by
  obtain ⟨-, -, hcores, -⟩ := hs
  exact hcores c (List.mem_of_getElem? hc)

theorem State.Legal.current {s : State} {c : CoreState} (hs : s.Legal) (hc : s.current? = some c) : c.Legal :=
  hs.core hc

theorem State.Legal.wf {s : State} (hs : s.Legal) : s.memory.wf = true := by
  obtain ⟨-, -, -, hmem⟩ := hs
  exact hmem

theorem State.Legal.setCore {s : State} {c : CoreState} (hs : s.Legal) (id : Nat) (hc : c.Legal) : (s.setCore id c).Legal := by
  obtain ⟨hcount, hid, hcores, hmem⟩ := hs
  refine ⟨by simpa using hcount, by simpa using hid, fun d hd => ?_, hmem⟩
  rcases List.mem_or_eq_of_mem_set hd with hd | rfl
  · exact hcores d hd
  · exact hc

theorem State.Legal.setCurrent {s : State} {c : CoreState} (hs : s.Legal) (hc : c.Legal) : (s.setCurrent c).Legal :=
  hs.setCore s.curCoreId hc

theorem State.Legal.setMemory {s : State} {m : Memory} (hs : s.Legal) (hm : m.wf = true) : (s.setMemory m).Legal := by
  obtain ⟨hcount, hid, hcores, -⟩ := hs
  exact ⟨hcount, hid, hcores, hm⟩

theorem CoreState.Legal.default (ip : Cell) : (CoreState.default ip).Legal := ⟨Nat.zero_le _, Nat.zero_le _⟩

theorem CoreState.Legal.modeEpilogue {c : CoreState} (hc : c.Legal) (op : OpcodeClass) (ip : Cell) :
    (modeEpilogue op { c with ip := ip }).Legal := by
  simpa [CoreState.Legal] using hc

/-! ### Operations on a legal state -/

/-- A change of the executing core that keeps its stacks within their capacities. -/
theorem keepsLegal_modifyCore {f : CoreState → CoreState} (hf : ∀ c, c.Legal → (f c).Legal) :
    Keeps State.Legal (getCore >>= fun c => setCurrentCore (f c)) := by
  refine keeps_bind_of_readOnly readOnly_getCore fun s t c _ hc hs ht => ?_
  cases ht
  exact hs.setCurrent (hf _ (hs.current (getCore_ok hc).1))

@[simp] theorem keepsLegal_finish (op : OpcodeClass) (len : Nat) : Keeps State.Legal (finish op len) :=
  keepsLegal_modifyCore fun _ hc => hc.modeEpilogue op _

@[simp] theorem keepsLegal_finishJump (op : OpcodeClass) (target : Cell) : Keeps State.Legal (finishJump op target) :=
  keepsLegal_modifyCore fun _ hc => hc.modeEpilogue op _

@[simp] theorem keepsLegal_pop : Keeps State.Legal pop := by
  intro s t v hs h
  obtain ⟨c, rest, hc, hd, rfl⟩ := pop_ok h
  obtain ⟨hdata, haddrs⟩ := hs.current hc
  rw [hd] at hdata
  exact hs.setCurrent ⟨Nat.le_of_succ_le hdata, haddrs⟩

/-- A push checks the capacity itself. -/
@[simp] theorem keepsLegal_push (v : Cell) : Keeps State.Legal (push v) := by
  intro s t a hs h
  obtain ⟨c, hc, hlt, rfl⟩ := push_ok h
  obtain ⟨-, haddrs⟩ := hs.current hc
  exact hs.setCurrent ⟨hlt, haddrs⟩

@[simp] theorem keepsLegal_apop : Keeps State.Legal apop := by
  intro s t v hs h
  obtain ⟨c, rest, hc, hd, rfl⟩ := apop_ok h
  obtain ⟨hdata, haddrs⟩ := hs.current hc
  rw [hd] at haddrs
  exact hs.setCurrent ⟨hdata, Nat.le_of_succ_le haddrs⟩

@[simp] theorem keepsLegal_apush (v : Cell) : Keeps State.Legal (apush v) := by
  intro s t a hs h
  obtain ⟨c, hc, hlt, rfl⟩ := apush_ok h
  obtain ⟨hdata, -⟩ := hs.current hc
  exact hs.setCurrent ⟨hdata, hlt⟩

@[simp] theorem keepsLegal_memWrite (addr : Nat) (w : Width) (v : Cell) : Keeps State.Legal (memWrite addr w v) :=
  keeps_bind (by simp) fun _ => keeps_update fun _ hs => hs.setMemory (Memory.writeCell_wf hs.wf addr w v)

@[simp] theorem keepsLegal_copyBlock (len dst orig : Nat) : Keeps State.Legal (copyBlock len dst orig) :=
  keeps_bind (by simp) fun _ => keeps_bind (by simp) fun _ =>
    keeps_update fun _ hs => hs.setMemory (Memory.copyBlock_wf hs.wf len dst orig)

@[simp] theorem keepsLegal_writeRegister (id : Nat) (v : Cell) : Keeps State.Legal (writeRegister id v) := by
  intro s t a hs h
  obtain ⟨c, hc, rfl⟩ := writeRegister_ok h
  have hcl := hs.current hc
  exact hs.setCurrent hcl

@[simp] theorem keepsLegal_callSlot (id : Nat) : Keeps State.Legal (callSlot id) := by
  intro s t a hs h
  rcases callSlot_ok h with rfl | hcall
  · exact hs
  · rw [invokeCallback_ok hcall]
    exact State.Legal.setMemory (s := s.logCallback id) hs (invokeCallback_wf hs.wf hcall)

/-- Marking a core active or inactive. -/
theorem keepsLegal_setActive (id : Nat) (b : Bool) :
    Keeps State.Legal (coreAt id >>= fun c => update fun s => s.setCore id { c with active := b }) := by
  refine keeps_bind_of_readOnly (readOnly_coreAt id) fun s t c _ hc hs ht => ?_
  have hcl := hs.core (coreAt_ok hc).1
  cases ht
  exact hs.setCore id hcl

/-- What IC does to a core (48_core_control.md R421). -/
@[simp] theorem keepsLegal_initCore (id : Nat) (ip : Cell) :
    Keeps State.Legal (update fun s => s.setCore id (CoreState.default ip)) :=
  keeps_update fun _ hs => hs.setCore id (CoreState.Legal.default ip)

@[simp] theorem keepsLegal_setTable (f : State → Vector Cell Config.interruptTableSize) :
    Keeps State.Legal (update fun s => s.setTable (f s)) := keeps_update fun _ hs => hs

@[simp] theorem keepsLegal_setIntEnabled (b : Bool) : Keeps State.Legal (update fun s => s.setIntEnabled b) :=
  keeps_update fun _ hs => hs

/-! ### Instructions and ticks -/

theorem transact_legal {h : Handler Unit} {s t : State} (hk : Keeps State.Legal h) (hs : s.Legal) (ht : transact h s = .next t) :
    t.Legal := transact_keeps hk (fun _ hs => hs) ht hs

/-- Every instruction keeps a state legal, because each of its statements does. -/
theorem exec_legal {i : Instr} {s t : State} (hs : s.Legal) (h : exec i s = .next t) : t.Legal := by
  cases i
  case hs => exact transact_legal (h := raise .systemHalt) (by simp) hs h
  case rl | uu | ff | sc =>
    refine transact_legal ?_ hs h
    exact keeps_bind_assoc (keepsLegal_modifyCore fun _ hc => hc) (by simp)
  case ac | pc =>
    refine transact_legal ?_ hs h
    exact keeps_bind (by simp) fun _ => keeps_bind (by simp) fun id =>
      keeps_bind_assoc (keepsLegal_setActive _ _) (by simp)
  all_goals
    refine transact_legal ?_ hs h
    repeat' with_reducible first | refine keeps_bind ?_ fun _ => ?_ | refine keeps_ite ?_ ?_
    all_goals simp

theorem nextCoreId_lt {s : State} (hs : s.curCoreId < s.cores.length) : nextCoreId s < s.cores.length := by
  unfold nextCoreId
  cases hf : (scanOrder s).find? (isActive s) with
  | none => exact hs
  | some id =>
    obtain ⟨k, -, rfl⟩ := List.mem_map.1 (List.mem_of_find?_eq_some hf)
    exact Nat.mod_lt _ (Nat.zero_lt_of_lt hs)

theorem State.Legal.selectNextCore {s : State} (hs : s.Legal) : (selectNextCore s).Legal := by
  obtain ⟨hcount, hid, hcores, hmem⟩ := hs
  exact ⟨hcount, nextCoreId_lt hid, hcores, hmem⟩

/-- What a tick that answers a next state did: it raised the status of its fetch, or executed an instruction. -/
theorem tick_next {s t : State} (h : tick s = .next t) : (∃ st, t = takeStatus st s) ∨ ∃ i, exec i s = .next t := by
  unfold tick at h
  split at h
  · cases h
  · split at h
    · cases h
      exact .inl ⟨_, rfl⟩
    · split at h
      · exact .inr ⟨_, h⟩
      · cases h

theorem tick_legal {s t : State} (hs : s.Legal) (h : tick s = .next t) : t.Legal := by
  rcases tick_next h with ⟨st, rfl⟩ | ⟨i, hi⟩
  · exact hs
  · exact exec_legal hs hi

/-- A step is a tick of the next core, or nothing once the run has ended. -/
theorem step_next {s t : State} (h : step s = .next t) : tick (selectNextCore s) = .next t ∨ t = s := by
  unfold step at h
  split at h
  · exact .inl h
  · cases h
    exact .inr rfl

/-- Settles O8: the step's scheduling, fetch and instruction each keep a state legal. -/
theorem everyStepKeepsLegality : Obligations.EveryStepKeepsLegality := by
  intro s t hs h
  rcases step_next h with htick | rfl
  · exact tick_legal hs.selectNextCore htick
  · exact hs

end Sys2Proof.Machine
end

section
/-! PROOF of O17. The guard of an instruction leaves as many cells and free slots as its pops and pushes need, so no pop or push is
refused, and what else can stop an instruction stops it in one of the ways the spec or the log names. -/

namespace Sys2Proof.Machine

/-- Why instruction `i` may stop in state `s`: any status, an id that is no core's in IC, AC or PC, a call that II's callback may not make
or never returns from, and a `cur_core_id` that is no core's. -/
def HasGround (i : Instr) (s : State) : Stop → Prop
  | .raise _ => True
  | .undefined r =>
    (∃ id, r = .illegalCoreId id ∧ s.cores.length ≤ id ∧ (i = .ic ∨ i = .ac ∨ i = .pc)) ∨
    (∃ call, r = .illegalHostCall call ∧ i = .ii)
  | .stuck f => (f = .noCurrentCore ∧ s.current? = none) ∨ (f = .callbackNeverReturns ∧ i = .ii)

/-! ### Handlers that stop only with a status or for want of a current core -/

/-- The handler stops only with a status, or because there is no current core. -/
def Tame {α : Type} (x : Handler α) : Prop :=
  ∀ (s : State) (e : Stop), x s = .error e → (∃ st, e = .raise st) ∨ (s.current? = none ∧ e = .stuck .noCurrentCore)

@[simp] theorem tame_pure {α : Type} (a : α) : Tame (pure a) := nofun

@[simp] theorem tame_update (f : State → State) : Tame (update f) := nofun

@[simp] theorem tame_setCurrentCore (c : CoreState) : Tame (setCurrentCore c) := tame_update _

@[simp] theorem tame_getIntEnabled : Tame getIntEnabled := nofun

@[simp] theorem tame_interrupt (id : Nat) : Tame (interrupt id) := tame_pure ()

@[simp] theorem tame_raise {α : Type} (st : Status) : Tame (raise st : Handler α) := by
  intro s e h
  cases h
  exact .inl ⟨st, rfl⟩

@[simp] theorem tame_orRaise {α : Type} (x : Except Status α) : Tame (orRaise x) := by
  intro s e h
  cases x <;> cases h
  exact .inl ⟨_, rfl⟩

@[simp] theorem tame_getCore : Tame getCore := fun _ _ h => .inr (getCore_error h)

@[simp] theorem tame_checkRange (addr len : Nat) : Tame (checkRange addr len) := by
  unfold checkRange
  split
  · exact tame_pure _
  · exact tame_raise _

theorem tame_bind_of_readOnly {α β : Type} {x : Handler α} {f : α → Handler β} (hx : Tame x) (hr : ReadOnly x)
    (hf : ∀ a, Tame (f a)) : Tame (x >>= f) := by
  intro s e h
  rcases handler_bind_error_iff.1 h with hx' | ⟨a, s', ha, hb⟩
  · exact hx s e hx'
  · obtain rfl := hr _ _ _ ha
    exact hf a _ e hb

/-- What depends on the executing core alone. -/
theorem tame_getCore_bind {β : Type} {f : CoreState → Handler β} (hf : ∀ c, Tame (f c)) : Tame (getCore >>= f) :=
  tame_bind_of_readOnly tame_getCore readOnly_getCore hf

/-- What follows a range check. -/
theorem tame_checkRange_bind {β : Type} {addr len : Nat} {f : Unit → Handler β} (hf : ∀ a, Tame (f a)) :
    Tame (checkRange addr len >>= f) := tame_bind_of_readOnly (tame_checkRange _ _) (readOnly_checkRange _ _) hf

@[simp] theorem tame_guardStack (p q : Nat) : Tame (guardStack p q) := by
  refine tame_getCore_bind fun c => ?_
  split
  · exact tame_raise _
  · split
    · exact tame_raise _
    · exact tame_pure _

@[simp] theorem tame_apush (v : Cell) : Tame (apush v) := by
  refine tame_getCore_bind fun c => ?_
  split
  · exact tame_raise _
  · exact tame_setCurrentCore _

@[simp] theorem tame_apop : Tame apop := by
  refine tame_getCore_bind fun c => ?_
  split
  · exact nofun
  · exact tame_raise _

@[simp] theorem tame_readRegister (id : Nat) : Tame (readRegister id) := by
  refine tame_getCore_bind fun c => ?_
  split
  · exact tame_pure _
  · exact tame_raise _

@[simp] theorem tame_writeRegister (id : Nat) (v : Cell) : Tame (writeRegister id v) := by
  refine tame_getCore_bind fun c => ?_
  split
  · exact tame_setCurrentCore _
  · exact tame_raise _

@[simp] theorem tame_immediate (offset len : Nat) (v : Cell) : Tame (immediate offset len v) :=
  tame_getCore_bind fun _ => tame_checkRange_bind fun _ => tame_pure v

@[simp] theorem tame_memRead (addr : Nat) (w : Width) : Tame (memRead addr w) := tame_checkRange_bind fun _ => nofun

@[simp] theorem tame_memWrite (addr : Nat) (w : Width) (v : Cell) : Tame (memWrite addr w v) :=
  tame_checkRange_bind fun _ => tame_update _

@[simp] theorem tame_compareBlock (len dst orig : Nat) : Tame (compareBlock len dst orig) :=
  tame_checkRange_bind fun _ => tame_checkRange_bind fun _ => nofun

@[simp] theorem tame_copyBlock (len dst orig : Nat) : Tame (copyBlock len dst orig) :=
  tame_checkRange_bind fun _ => tame_checkRange_bind fun _ => tame_update _

@[simp] theorem tame_finish (op : OpcodeClass) (len : Nat) : Tame (finish op len) :=
  tame_getCore_bind fun _ => tame_setCurrentCore _

@[simp] theorem tame_finishJump (op : OpcodeClass) (target : Cell) : Tame (finishJump op target) :=
  tame_getCore_bind fun _ => tame_setCurrentCore _

/-! ### The cells and free slots that are left while an instruction runs -/

/-- In `s`, reached from `s₀` within an instruction, the executing core holds at least `p` cells and has room for at least `q`; there are
as many cores as in `s₀`, and a current one if there was one. -/
def Room (s₀ : State) (p q : Nat) (s : State) : Prop :=
  s.cores.length = s₀.cores.length ∧ s.current?.isSome = s₀.current?.isSome ∧
  ∀ c, s.current? = some c → p ≤ c.data.length ∧ q ≤ Config.dataStackSize - c.data.length

theorem Room.start (s : State) : Room s 0 0 s := ⟨rfl, rfl, fun _ _ => ⟨Nat.zero_le _, Nat.zero_le _⟩⟩

theorem Room.current_eq_none {s₀ s : State} {p q : Nat} (hs : Room s₀ p q s) (h : s.current? = none) : s₀.current? = none := by
  obtain ⟨-, hcur, -⟩ := hs
  simpa [h] using hcur.symm

theorem Room.data {s₀ s : State} {p q : Nat} {c : CoreState} (hs : Room s₀ p q s) (hc : s.current? = some c) :
    p ≤ c.data.length ∧ q ≤ 32 - c.data.length := by
  obtain ⟨-, -, hroom⟩ := hs
  exact hroom c hc

/-- Writing the executing core leaves the room that its new data stack has. -/
theorem Room.setCurrent {s₀ s : State} {p q p' q' : Nat} {c : CoreState} (hs : Room s₀ p q s) (hp : p' ≤ c.data.length)
    (hq : q' ≤ Config.dataStackSize - c.data.length) : Room s₀ p' q' (s.setCurrent c) := by
  obtain ⟨hlen, hcur, -⟩ := hs
  refine ⟨by simpa using hlen, by simpa using hcur, fun d hd => ?_⟩
  rw [State.setCurrent_current, Option.map_eq_some_iff] at hd
  obtain ⟨-, -, rfl⟩ := hd
  exact ⟨hp, hq⟩

/-- Writing any core keeps the cores there are. -/
theorem Room.setCore {s₀ s : State} {p q : Nat} (hs : Room s₀ p q s) (id : Nat) (c : CoreState) : Room s₀ 0 0 (s.setCore id c) := by
  obtain ⟨hlen, hcur, -⟩ := hs
  refine ⟨by simpa using hlen, ?_, fun _ _ => ⟨Nat.zero_le _, Nat.zero_le _⟩⟩
  rw [State.setCore_current]
  split <;> simpa using hcur

section
variable {s₀ : State} {p q : Nat}

@[simp] theorem keepsRoom_setCurrentCore (c : CoreState) : Keeps (Room s₀ 0 0) (setCurrentCore c) :=
  keeps_update fun _ hs => hs.setCurrent (Nat.zero_le _) (Nat.zero_le _)

@[simp] theorem keepsRoom_setCore (id : Nat) (c : CoreState) : Keeps (Room s₀ 0 0) (update fun s => s.setCore id c) :=
  keeps_update fun _ hs => hs.setCore id c

@[simp] theorem keepsRoom_setTable (f : State → Vector Cell Config.interruptTableSize) :
    Keeps (Room s₀ p q) (update fun s => s.setTable (f s)) := keeps_update fun _ hs => hs

@[simp] theorem keepsRoom_setIntEnabled (b : Bool) : Keeps (Room s₀ p q) (update fun s => s.setIntEnabled b) :=
  keeps_update fun _ hs => hs

@[simp] theorem keepsRoom_memWrite (addr : Nat) (w : Width) (v : Cell) : Keeps (Room s₀ p q) (memWrite addr w v) :=
  keeps_bind (by simp) fun _ => keeps_update fun _ hs => hs

@[simp] theorem keepsRoom_copyBlock (len dst orig : Nat) : Keeps (Room s₀ p q) (copyBlock len dst orig) :=
  keeps_bind (by simp) fun _ => keeps_bind (by simp) fun _ => keeps_update fun _ hs => hs

@[simp] theorem keepsRoom_writeRegister (id : Nat) (v : Cell) : Keeps (Room s₀ 0 0) (writeRegister id v) :=
  keeps_bind (by simp) fun _ => keeps_ite (by simp) (by simp)

@[simp] theorem keepsRoom_apush (v : Cell) : Keeps (Room s₀ 0 0) (apush v) :=
  keeps_bind (by simp) fun _ => keeps_ite (by simp) (by simp)

/-- The address stack is not the data stack. -/
@[simp] theorem keepsRoom_apop : Keeps (Room s₀ p q) apop := by
  intro s t v hs h
  obtain ⟨c, rest, hc, -, rfl⟩ := apop_ok h
  obtain ⟨hp, hq⟩ := hs.data hc
  exact hs.setCurrent hp hq

/-- A callback leaves the cores alone. -/
@[simp] theorem keepsRoom_callSlot (id : Nat) : Keeps (Room s₀ p q) (callSlot id) := by
  intro s t a hs h
  rcases callSlot_ok h with rfl | hcall
  · exact hs
  · rw [invokeCallback_ok hcall]
    exact hs

end

/-! ### Handlers that stop with a ground -/

/-- Run with `p` cells and room for `q` within instruction `i` from `s₀`, the handler stops only with a ground. -/
def StopsGrounded {α : Type} (i : Instr) (s₀ : State) (p q : Nat) (x : Handler α) : Prop :=
  ∀ (s : State) (e : Stop), Room s₀ p q s → x s = .error e → HasGround i s₀ e

section
variable {i : Instr} {s₀ : State} {p q : Nat} {α β : Type}

theorem stopsGrounded_of_tame {x : Handler α} (hx : Tame x) : StopsGrounded i s₀ p q x := by
  intro s e hs h
  rcases hx s e h with ⟨st, rfl⟩ | ⟨hnone, rfl⟩
  · trivial
  · exact .inl ⟨rfl, hs.current_eq_none hnone⟩

/-- One statement after another: the first stops with a ground, and where it completes the second finds the room it needs. -/
theorem stopsGrounded_bind {p' q' : Nat} {x : Handler α} {f : α → Handler β} (hx : StopsGrounded i s₀ p q x)
    (hroom : ∀ s t a, Room s₀ p q s → x s = .ok (a, t) → Room s₀ p' q' t) (hf : ∀ a, StopsGrounded i s₀ p' q' (f a)) :
    StopsGrounded i s₀ p q (x >>= f) := by
  intro s e hs h
  rcases handler_bind_error_iff.1 h with hstop | ⟨a, t, ha, hb⟩
  · exact hx s e hs hstop
  · exact hf a t e (hroom s t a hs ha) hb

/-- A statement that neither pops nor pushes. -/
theorem stopsGrounded_tame_bind {x : Handler α} {f : α → Handler β} (hx : Tame x) (hk : Keeps (Room s₀ p q) x)
    (hf : ∀ a, StopsGrounded i s₀ p q (f a)) : StopsGrounded i s₀ p q (x >>= f) :=
  stopsGrounded_bind (stopsGrounded_of_tame hx) hk hf

theorem stopsGrounded_ite {c : Prop} [Decidable c] {x y : Handler α} (hx : StopsGrounded i s₀ p q x)
    (hy : StopsGrounded i s₀ p q y) : StopsGrounded i s₀ p q (if c then x else y) := by
  split
  · exact hx
  · exact hy

/-- For want of a current core any instruction may fault (log 9). -/
theorem hasGround_of_no_core {s : State} (hs : Room s₀ p q s) (hc : s.current? = none) : HasGround i s₀ (.stuck .noCurrentCore) :=
  .inl ⟨rfl, hs.current_eq_none hc⟩

/-- The guard provides the room it asks for (41_engine.md R230). -/
theorem stopsGrounded_guardStack_bind {p' q' : Nat} {f : Unit → Handler β} (hf : ∀ a, StopsGrounded i s₀ p q (f a)) :
    StopsGrounded i s₀ p' q' (guardStack p q >>= f) := by
  refine stopsGrounded_bind (stopsGrounded_of_tame (tame_guardStack p q)) (fun s t a hs h => ?_) hf
  obtain ⟨⟨c, hc, hp, hq⟩, rfl⟩ := guardStack_ok h
  have hroom := hs.setCurrent hp (Nat.le_sub_of_add_le' hq)
  rwa [State.setCurrent_self t c hc] at hroom

/-- A pop that the guard has counted. -/
theorem stopsGrounded_pop_bind {f : Cell → Handler β} (hf : ∀ v, StopsGrounded i s₀ p q (f v)) :
    StopsGrounded i s₀ (p + 1) q (pop >>= f) := by
  refine stopsGrounded_bind (fun s e hs h => ?stops) (fun s t v hs h => ?room) hf
  case stops =>
    rcases pop_error h with ⟨hc, rfl⟩ | ⟨c, hc, hempty⟩
    · exact hasGround_of_no_core hs hc
    · obtain ⟨hp, -⟩ := hs.data hc
      simp [hempty] at hp
  case room =>
    obtain ⟨c, rest, hc, hd, rfl⟩ := pop_ok h
    obtain ⟨hp, hq⟩ := hs.data hc
    rw [hd, List.length_cons] at hp hq
    exact hs.setCurrent (Nat.le_of_succ_le_succ hp) (hq.trans (Nat.sub_le_sub_left (Nat.le_succ _) 32))

/-- A push that the guard has counted. -/
theorem stopsGrounded_push_bind {v : Cell} {f : Unit → Handler β} (hf : ∀ a, StopsGrounded i s₀ p q (f a)) :
    StopsGrounded i s₀ p (q + 1) (push v >>= f) := by
  refine stopsGrounded_bind (fun s e hs h => ?stops) (fun s t a hs h => ?room) hf
  case stops =>
    rcases push_error h with ⟨hc, rfl⟩ | ⟨c, hc, hfull⟩
    · exact hasGround_of_no_core hs hc
    · obtain ⟨-, hq⟩ := hs.data hc
      omega
  case room =>
    obtain ⟨c, hc, -, rfl⟩ := push_ok h
    obtain ⟨hp, hq⟩ := hs.data hc
    have hfree : q ≤ 32 - (c.data.length + 1) := by omega
    exact hs.setCurrent (Nat.le_succ_of_le hp) hfree

/-- The core that IC, AC and PC name (48_core_control.md R421 to R423). -/
theorem stopsGrounded_coreAt_bind {id : Nat} {f : CoreState → Handler β} (hi : i = .ic ∨ i = .ac ∨ i = .pc)
    (hf : ∀ c, StopsGrounded i s₀ p q (f c)) : StopsGrounded i s₀ p q (coreAt id >>= f) := by
  refine stopsGrounded_bind (fun s e hs h => ?_) (keeps_of_readOnly (readOnly_coreAt id)) hf
  obtain ⟨hlen, -, -⟩ := hs
  obtain ⟨hid, rfl⟩ := coreAt_error h
  exact .inl ⟨id, rfl, hlen ▸ hid, hi⟩

/-- The callback that II calls (60_exceptions.md R490). -/
theorem stopsGrounded_callSlot_bind {id : Nat} {f : Unit → Handler β} (hi : i = .ii)
    (hf : ∀ a, StopsGrounded i s₀ p q (f a)) : StopsGrounded i s₀ p q (callSlot id >>= f) := by
  refine stopsGrounded_bind (fun s e _ h => ?_) (keepsRoom_callSlot id) hf
  rcases callbackResult_error (callSlot_error h) with ⟨call, rfl⟩ | rfl
  · exact .inr ⟨call, rfl, hi⟩
  · exact .inr ⟨rfl, hi⟩

end

/-! ### Instructions -/

/-- A handler that is grounded from the start stops its instruction with a ground. -/
theorem transact_stop_grounded {i : Instr} {s : State} {h : Handler Unit} (hg : StopsGrounded i s 0 0 h) :
    (∀ r, transact h s = .refused r → HasGround i s (.undefined r)) ∧
    (∀ f, transact h s = .fault f → HasGround i s (.stuck f)) :=
  ⟨fun _ hr => hg s _ (Room.start s) (transact_refused_iff.1 hr), fun _ hf => hg s _ (Room.start s) (transact_fault_iff.1 hf)⟩

/-- The guard counts of every instruction cover its pops and pushes, and only IC, AC, PC and II have a stop of their own: each
statement of a handler is met by the rule for its operation. -/
theorem exec_stop_grounded (i : Instr) (s : State) :
    (∀ r, exec i s = .refused r → HasGround i s (.undefined r)) ∧ (∀ f, exec i s = .fault f → HasGround i s (.stuck f)) := by
  cases i
  case hs => exact transact_stop_grounded (h := raise .systemHalt) (stopsGrounded_of_tame (tame_raise _))
  all_goals
    refine transact_stop_grounded ?_
    repeat' with_reducible first
      | refine stopsGrounded_guardStack_bind fun _ => ?_
      | refine stopsGrounded_pop_bind fun _ => ?_
      | refine stopsGrounded_push_bind fun _ => ?_
      | refine stopsGrounded_coreAt_bind (by simp) fun _ => ?_
      | refine stopsGrounded_callSlot_bind rfl fun _ => ?_
      | refine stopsGrounded_ite ?_ ?_
      | refine stopsGrounded_tame_bind (by simp) (by simp) fun _ => ?_
      | refine stopsGrounded_of_tame (by simp)

/-- Settles O17: the grounds of a refusal and of a fault are those of a handler's stop. -/
theorem everyStopHasItsGround : Obligations.EveryStopHasItsGround := exec_stop_grounded

end Sys2Proof.Machine
end

section
/-! SUPPORT. Which parts of the cores an instruction writes: a table over the instructions, and the invariant that all other parts
are as they were, taken through each named operation. -/

namespace Sys2Proof.Machine

/-- The parts of the cores, seen from the executing core, that only some instructions write. IP and the operation mode are left out:
every instruction that completes writes them (41_engine.md R236 to R238). -/
inductive CorePart where
  | active
  | addrMode
  | data
  | addrs
  | regs
  /-- Whatever the other cores hold. -/
  | siblings

/-- The parts that an instruction may write (10_state.md R41 to R50, 60_exceptions.md R498). -/
def writtenParts : Instr → List CorePart
  | .no | .hi | .si | .hs | .uu | .ff => []
  | .rl => [.addrMode]
  | .sc => [.active]
  | .re => [.addrs]
  | .pu | .po | .cr => [.data, .addrs]
  | .ju | .cj => [.data, .addrMode]
  | .ca | .cc => [.data, .addrs, .addrMode]
  | .wr => [.data, .regs]
  | .ac | .pc => [.data, .active, .siblings]
  | .ic => [.data, .addrs, .regs, .active, .addrMode, .siblings]
  | .lw _ | .lh _ | .lb _ | .fw | .fh | .fb | .sw | .sh | .sb | .du | .dr | .sp | .eq | .ne | .lt | .gt | .ad | .su | .mu | .dm
  | .md | .an | .or | .xo | .nt | .sl | .sr | .pa | .un | .sv | .ti | .ii | .rr | .cp | .bc => [.data]

/-! ### The columns of the table -/

theorem siblings_mem_writtenParts_iff {i : Instr} : .siblings ∈ writtenParts i ↔ i = .ic ∨ i = .ac ∨ i = .pc := by
  cases i <;> simp [writtenParts]

theorem regs_mem_writtenParts_iff {i : Instr} : .regs ∈ writtenParts i ↔ i = .wr ∨ i = .ic := by
  cases i <;> simp [writtenParts]

theorem addrs_mem_writtenParts_iff {i : Instr} :
    .addrs ∈ writtenParts i ↔ i = .pu ∨ i = .po ∨ i = .ca ∨ i = .cc ∨ i = .re ∨ i = .cr ∨ i = .ic := by
  cases i <;> simp [writtenParts]

theorem addrMode_mem_writtenParts_iff {i : Instr} :
    .addrMode ∈ writtenParts i ↔ i = .rl ∨ i = .ca ∨ i = .cc ∨ i = .ju ∨ i = .cj ∨ i = .ic := by
  cases i <;> simp [writtenParts]

theorem active_mem_writtenParts_iff {i : Instr} : .active ∈ writtenParts i ↔ i = .ac ∨ i = .pc ∨ i = .sc ∨ i = .ic := by
  cases i <;> simp [writtenParts]

/-- An instruction that writes the data stack pops or pushes, which its guard counts (41_engine.md R231). -/
theorem guardCounts_ne_of_data_mem {i : Instr} (h : .data ∈ writtenParts i) : guardCounts i ≠ (0, 0) := by
  cases i <;> simp [writtenParts] at h <;> simp [guardCounts]

theorem mem_writtenParts_ic (part : CorePart) : part ∈ writtenParts .ic := by
  cases part <;> simp [writtenParts]

/-! ### The frame -/

/-- Core `d` holds what core `c` does in every part outside `W`. -/
structure CoreState.SameExcept (W : List CorePart) (c d : CoreState) : Prop where
  active : .active ∉ W → d.active = c.active
  addrMode : .addrMode ∉ W → d.addrMode = c.addrMode
  data : .data ∉ W → d.data = c.data
  addrs : .addrs ∉ W → d.addrs = c.addrs
  regs : .regs ∉ W → d.regs = c.regs

/-- On the way from `s` to `t` the same core executes, and no part of the cores outside `W` is written. -/
structure CoresFrame (W : List CorePart) (s t : State) : Prop where
  curCoreId : t.curCoreId = s.curCoreId
  siblings : .siblings ∉ W → ∀ id, id ≠ s.curCoreId → t.cores[id]? = s.cores[id]?
  current : ∀ c d, s.current? = some c → t.current? = some d → c.SameExcept W d

section
variable {W : List CorePart} {s₀ s : State} {c d e : CoreState}

/-! ### Updates of a core and of a state -/

theorem CoreState.SameExcept.refl : c.SameExcept W c :=
  ⟨fun _ => rfl, fun _ => rfl, fun _ => rfl, fun _ => rfl, fun _ => rfl⟩

theorem CoreState.SameExcept.trans (h : c.SameExcept W d) (h' : d.SameExcept W e) : c.SameExcept W e where
  active hw := (h'.active hw).trans (h.active hw)
  addrMode hw := (h'.addrMode hw).trans (h.addrMode hw)
  data hw := (h'.data hw).trans (h.data hw)
  addrs hw := (h'.addrs hw).trans (h.addrs hw)
  regs hw := (h'.regs hw).trans (h.regs hw)

theorem CoreState.SameExcept.withData (h : .data ∈ W) (data : List Cell) : c.SameExcept W { c with data := data } :=
  { CoreState.SameExcept.refl with data := fun hw => absurd h hw }

theorem CoreState.SameExcept.withAddrs (h : .addrs ∈ W) (addrs : List Cell) : c.SameExcept W { c with addrs := addrs } :=
  { CoreState.SameExcept.refl with addrs := fun hw => absurd h hw }

theorem CoreState.SameExcept.withRegs (h : .regs ∈ W) (regs : Vector Cell Config.registerBankSize) :
    c.SameExcept W { c with regs := regs } :=
  { CoreState.SameExcept.refl with regs := fun hw => absurd h hw }

theorem CoreState.SameExcept.withActive (h : .active ∈ W) (b : Bool) : c.SameExcept W { c with active := b } :=
  { CoreState.SameExcept.refl with active := fun hw => absurd h hw }

theorem CoreState.SameExcept.withAddrMode (h : .addrMode ∈ W) (m : AddrMode) : c.SameExcept W { c with addrMode := m } :=
  { CoreState.SameExcept.refl with addrMode := fun hw => absurd h hw }

/-- The operation mode is no part. -/
theorem CoreState.SameExcept.withOpMode (m : OpMode) : c.SameExcept W { c with opMode := m } := { CoreState.SameExcept.refl with }

/-- The epilogue writes the address mode for CA, CC, JU and CJ only (41_engine.md R238). -/
theorem CoreState.SameExcept.modeEpilogue {op : OpcodeClass} (h : op = .addressed → .addrMode ∈ W) (ip : Cell) :
    c.SameExcept W (modeEpilogue op { c with ip := ip }) := by
  cases op with
  | addressed => exact { CoreState.SameExcept.refl (c := c) with addrMode := fun hw => absurd (h rfl) hw }
  | modeSetter | ordinary => exact { CoreState.SameExcept.refl (c := c) with }

theorem CoreState.SameExcept.of_all (h : ∀ part, part ∈ W) : c.SameExcept W d :=
  ⟨(absurd (h _) ·), (absurd (h _) ·), (absurd (h _) ·), (absurd (h _) ·), (absurd (h _) ·)⟩

theorem CoresFrame.refl : CoresFrame W s s where
  curCoreId := rfl
  siblings _ _ _ := rfl
  current c d hc hd := by
    obtain rfl : c = d := Option.some.inj (hc.symm.trans hd)
    exact .refl

/-- Writing the executing core leaves the others alone. -/
theorem CoresFrame.setCurrent (hs : CoresFrame W s₀ s) (hc : s.current? = some c) (hd : c.SameExcept W d) :
    CoresFrame W s₀ (s.setCurrent d) where
  curCoreId := hs.curCoreId
  siblings hw id hid := by
    have hne : s.curCoreId ≠ id := fun heq => hid (heq.symm.trans hs.curCoreId)
    rw [State.setCurrent_cores, List.getElem?_set_ne hne]
    exact hs.siblings hw id hid
  current c₀ d' hc₀ hd' := by
    obtain rfl : d = d' := by simpa [hc] using hd'
    exact (hs.current c₀ c hc₀ hc).trans hd

/-- Writing core `id`, which may be the executing core. -/
theorem CoresFrame.setCore {id : Nat} (hs : CoresFrame W s₀ s) (hsib : .siblings ∈ W) (hc : s.cores[id]? = some c)
    (hd : c.SameExcept W d) : CoresFrame W s₀ (s.setCore id d) := by
  by_cases hid : id = s.curCoreId
  · subst hid
    exact hs.setCurrent hc hd
  · refine ⟨hs.curCoreId, fun hw => absurd hsib hw, fun c₀ d' hc₀ hd' => ?_⟩
    rw [State.setCore_current, if_neg hid] at hd'
    exact hs.current c₀ d' hc₀ hd'

/-! ### Operations -/

/-- A change of the executing core that writes only parts in `W`. -/
theorem keepsFrame_modifyCore {f : CoreState → CoreState} (hf : ∀ c : CoreState, c.SameExcept W (f c)) :
    Keeps (CoresFrame W s₀) (getCore >>= fun c => setCurrentCore (f c)) := by
  refine keeps_bind_of_readOnly readOnly_getCore fun s t c _ hc hs ht => ?_
  cases ht
  exact hs.setCurrent (getCore_ok hc).1 (hf c)

@[simp] theorem keepsFrame_finish {op : OpcodeClass} (h : op = .addressed → .addrMode ∈ W) (len : Nat) :
    Keeps (CoresFrame W s₀) (finish op len) := keepsFrame_modifyCore fun _ => .modeEpilogue h _

@[simp] theorem keepsFrame_finishJump {op : OpcodeClass} (h : op = .addressed → .addrMode ∈ W) (target : Cell) :
    Keeps (CoresFrame W s₀) (finishJump op target) := keepsFrame_modifyCore fun _ => .modeEpilogue h _

@[simp] theorem keepsFrame_pop (h : .data ∈ W) : Keeps (CoresFrame W s₀) pop := by
  intro s t v hs hpop
  obtain ⟨c, rest, hc, -, rfl⟩ := pop_ok hpop
  exact hs.setCurrent hc (.withData h rest)

@[simp] theorem keepsFrame_push (h : .data ∈ W) (v : Cell) : Keeps (CoresFrame W s₀) (push v) := by
  intro s t a hs hpush
  obtain ⟨c, hc, -, rfl⟩ := push_ok hpush
  exact hs.setCurrent hc (.withData h _)

@[simp] theorem keepsFrame_apop (h : .addrs ∈ W) : Keeps (CoresFrame W s₀) apop := by
  intro s t v hs hpop
  obtain ⟨c, rest, hc, -, rfl⟩ := apop_ok hpop
  exact hs.setCurrent hc (.withAddrs h rest)

@[simp] theorem keepsFrame_apush (h : .addrs ∈ W) (v : Cell) : Keeps (CoresFrame W s₀) (apush v) := by
  intro s t a hs hpush
  obtain ⟨c, hc, -, rfl⟩ := apush_ok hpush
  exact hs.setCurrent hc (.withAddrs h _)

@[simp] theorem keepsFrame_writeRegister (h : .regs ∈ W) (id : Nat) (v : Cell) :
    Keeps (CoresFrame W s₀) (writeRegister id v) := by
  intro s t a hs hwrite
  obtain ⟨c, hc, rfl⟩ := writeRegister_ok hwrite
  exact hs.setCurrent hc (.withRegs h _)

/-- Marking a core active or inactive, as AC and PC do. -/
theorem keepsFrame_setActive (hactive : .active ∈ W) (hsib : .siblings ∈ W) (id : Nat) (b : Bool) :
    Keeps (CoresFrame W s₀) (coreAt id >>= fun c => update fun s => s.setCore id { c with active := b }) := by
  refine keeps_bind_of_readOnly (readOnly_coreAt id) fun s t c _ hc hs ht => ?_
  cases ht
  exact hs.setCore hsib (coreAt_ok hc).1 (.withActive hactive b)

/-- What IC does to a core: it may write every part (48_core_control.md R421). -/
theorem keepsFrame_initCore (h : ∀ part, part ∈ W) (id : Nat) (c : CoreState) :
    Keeps (CoresFrame W s₀) (update fun s => s.setCore id c) :=
  keeps_update fun _ hs => ⟨hs.curCoreId, fun hw => absurd (h _) hw, fun _ _ _ _ => .of_all h⟩

/-! The remaining operations write the shared state and no core. -/

@[simp] theorem keepsFrame_memWrite (addr : Nat) (w : Width) (v : Cell) : Keeps (CoresFrame W s₀) (memWrite addr w v) :=
  keeps_bind (by simp) fun _ => keeps_update fun _ hs => ⟨hs.curCoreId, hs.siblings, hs.current⟩

@[simp] theorem keepsFrame_copyBlock (len dst orig : Nat) : Keeps (CoresFrame W s₀) (copyBlock len dst orig) :=
  keeps_bind (by simp) fun _ => keeps_bind (by simp) fun _ =>
    keeps_update fun _ hs => ⟨hs.curCoreId, hs.siblings, hs.current⟩

@[simp] theorem keepsFrame_setTable (f : State → Vector Cell Config.interruptTableSize) :
    Keeps (CoresFrame W s₀) (update fun s => s.setTable (f s)) :=
  keeps_update fun _ hs => ⟨hs.curCoreId, hs.siblings, hs.current⟩

@[simp] theorem keepsFrame_setIntEnabled (b : Bool) : Keeps (CoresFrame W s₀) (update fun s => s.setIntEnabled b) :=
  keeps_update fun _ hs => ⟨hs.curCoreId, hs.siblings, hs.current⟩

/-- A callback leaves the cores alone (60_exceptions.md R490). -/
@[simp] theorem keepsFrame_callSlot (id : Nat) : Keeps (CoresFrame W s₀) (callSlot id) := by
  intro s t a hs h
  rcases callSlot_ok h with rfl | hcall
  · exact hs
  · rw [invokeCallback_ok hcall]
    exact ⟨hs.curCoreId, hs.siblings, hs.current⟩

/-- The transaction of a handler that keeps the frame; a raised status writes no core at all. -/
theorem transact_frame {h : Handler Unit} {t : State} (hk : Keeps (CoresFrame W s) h) (ht : transact h s = .next t) :
    CoresFrame W s t :=
  transact_keeps hk (fun _ hs => ⟨hs.curCoreId, hs.siblings, hs.current⟩) ht .refl

end

end Sys2Proof.Machine
end

section
/-! PROOF of O19 and O20. Every instruction writes only the parts of the cores that its row of `writtenParts` lists. -/

namespace Sys2Proof.Machine

/-- Every part of the cores that an instruction writes stands in its row, because each of its statements writes no other. -/
theorem exec_frame {i : Instr} {s t : State} (h : exec i s = .next t) : CoresFrame (writtenParts i) s t := by
  cases i
  case hs => exact transact_frame (h := raise .systemHalt) (by simp) h
  case rl =>
    refine transact_frame ?_ h
    exact keeps_bind_assoc (keepsFrame_modifyCore fun _ => .withAddrMode (by simp [writtenParts]) _) (by simp)
  case uu | ff =>
    refine transact_frame ?_ h
    exact keeps_bind_assoc (keepsFrame_modifyCore fun _ => .withOpMode _) (by simp)
  case sc =>
    refine transact_frame ?_ h
    exact keeps_bind_assoc (keepsFrame_modifyCore fun _ => .withActive (by simp [writtenParts]) _) (by simp)
  case ac | pc =>
    refine transact_frame ?_ h
    exact keeps_bind (by simp) fun _ => keeps_bind (by simp [writtenParts]) fun id =>
      keeps_bind_assoc (keepsFrame_setActive (by simp [writtenParts]) (by simp [writtenParts]) _ _) (by simp)
  case ic =>
    refine transact_frame ?_ h
    exact keeps_bind (by simp) fun _ => keeps_bind (by simp [writtenParts]) fun id =>
      keeps_bind (by simp [writtenParts]) fun addr => keeps_bind (by simp) fun _ => keeps_bind (keepsFrame_initCore mem_writtenParts_ic _ _) (by simp)
  all_goals
    refine transact_frame ?_ h
    repeat' with_reducible first | refine keeps_bind ?_ fun _ => ?_ | refine keeps_ite ?_ ?_
    all_goals simp [writtenParts]

/-- Settles O19: only the rows of IC, AC and PC list the other cores. -/
theorem onlyCoreControlReachesSiblings : Obligations.OnlyCoreControlReachesSiblings := by
  intro i s t h hic hac hpc
  exact (exec_frame h).siblings (by simp [siblings_mem_writtenParts_iff, hic, hac, hpc])

/-- Settles O20: each part of the executing core is listed only in the rows of the instructions that the statement excepts. -/
theorem executingCoreFrame : Obligations.ExecutingCoreFrame := by
  intro i s t c d hc h hd
  have hframe := (exec_frame h).current c d hc hd
  refine ⟨fun hwr hic => hframe.regs ?regs, fun hpu hpo hca hcc hre hcr hic => hframe.addrs ?addrs,
    fun hrl hca hcc hju hcj hic => hframe.addrMode ?addrMode, fun hac hpc hsc hic => hframe.active ?active,
    fun hg => hframe.data fun hmem => guardCounts_ne_of_data_mem hmem hg⟩
  case regs => simp [regs_mem_writtenParts_iff, hwr, hic]
  case addrs => simp [addrs_mem_writtenParts_iff, hpu, hpo, hca, hcc, hre, hcr, hic]
  case addrMode => simp [addrMode_mem_writtenParts_iff, hrl, hca, hcc, hju, hcj, hic]
  case active => simp [active_mem_writtenParts_iff, hac, hpc, hsc, hic]

end Sys2Proof.Machine
end

section
/-! SUPPORT. Memory as the host and the storing instructions see it: a cell that is stored byte by byte, addresses that do not exist, and
what the host's operations do to the bytes. -/

namespace Sys2Proof.Machine

/-! ### Cells -/

/-- Byte `i` of a cell, as a number. -/
theorem byteOf_toNat (v : Cell) (i : Nat) : (byteOf v i).toNat = v.toNat / 2 ^ (8 * i) % 256 := by
  simp [byteOf, Nat.shiftRight_eq_div_pow]

@[simp] theorem lowBytes_length (v : Cell) (w : Width) : (lowBytes v w).length = w.bytes := by cases w <;> rfl

theorem lowBytes_getElem? {v : Cell} {w : Width} {k : Nat} (hk : k < w.bytes) : (lowBytes v w)[k]? = some (byteOf v k) := by
  cases w <;> simp only [Width.bytes] at hk <;> interval_cases k <;> rfl

/-- A stored cell is seen byte by byte at its addresses and nowhere else (20_memory.md R87). -/
theorem Memory.byteAt_writeCell {m : Memory} (h : m.wf = true) {a : Nat} {w : Width} (hr : a + w.bytes ≤ Config.memorySize) (v : Cell)
    (x : Nat) : (m.writeCell a w v).byteAt x = if a ≤ x ∧ x < a + w.bytes then byteOf v (x - a) else m.byteAt x := by
  rw [Memory.writeCell, Memory.byteAt_writeRange h a _ (by simpa using hr), lowBytes_length]
  split
  · rw [List.getD_eq_getElem?_getD, lowBytes_getElem? (by omega), Option.getD_some]
  · rfl

/-- Byte `k` of a stored cell. -/
theorem Memory.byteAt_writeCell_add {m : Memory} (h : m.wf = true) {a : Nat} {w : Width} (hr : a + w.bytes ≤ Config.memorySize) (v : Cell)
    {k : Nat} (hk : k < w.bytes) : (m.writeCell a w v).byteAt (a + k) = byteOf v k := by
  rw [Memory.byteAt_writeCell h hr, if_pos (by omega), Nat.add_sub_cancel_left]

/-! ### Addresses that do not exist -/

/-- A canonical list lists no address that does not exist (20_memory.md R80). -/
theorem lookup_eq_none_of_memorySize_le {lo : Nat} {l : List Host.Cell} (h : canonicalFrom lo l = true) {a : Nat}
    (ha : Config.memorySize ≤ a) : l.lookup a = none := by
  induction l generalizing lo with
  | nil => rfl
  | cons e rest ih =>
    obtain ⟨x, y⟩ := e
    simp only [canonicalFrom, Bool.and_eq_true, decide_eq_true_eq] at h
    obtain ⟨⟨⟨-, hx⟩, -⟩, hrest⟩ := h
    have hne : a ≠ x := by omega
    rw [List.lookup, beq_eq_false_iff_ne.2 hne]
    exact ih hrest

theorem Memory.byteAt_of_memorySize_le {m : Memory} (h : m.wf = true) {a : Nat} (ha : Config.memorySize ≤ a) : m.byteAt a = 0#8 := by
  rw [Memory.byteAt, lookup_eq_none_of_memorySize_le h ha, Option.getD_none]

/-! ### The host's operations -/

/-- The I/O window is `[0, 192)` (20_memory.md R93). -/
theorem inWindow_iff {a : Nat} : inWindow a = true ↔ a < 192 := by simp [inWindow]

theorem ioReadByte_eq (a : Nat) (s : State) :
    ioReadByte a s = if a < 192 then .ok (s.memory.byteAt a) else .error .illegalMemoryAddress := by
  simp only [ioReadByte, inWindow_iff]

theorem ioWriteByte_of_lt {a : Nat} (ha : a < 192) (b : Byte) (s : State) :
    ioWriteByte a b s = (.none, s.setMemory (s.memory.writeByte a b)) := if_pos (inWindow_iff.2 ha)

theorem ioWriteByte_of_le {a : Nat} (ha : 192 ≤ a) (b : Byte) (s : State) : ioWriteByte a b s = (.illegalMemoryAddress, s) :=
  if_neg fun h => Nat.not_lt.2 ha (inWindow_iff.1 h)

/-- A loaded program is seen at its addresses and nowhere else (20_memory.md R95). -/
theorem byteAt_loadProgram {s : State} (h : s.memory.wf = true) {bytes : List Byte} {n : Nat} (hn : n ≤ bytes.length) (x : Nat) :
    (loadProgram bytes n s).memory.byteAt x = if x < min n Config.memorySize then bytes.getD x 0#8 else s.memory.byteAt x := by
  have hlen : (bytes.take (min n Config.memorySize)).length = min n Config.memorySize := by rw [List.length_take]; omega
  rw [loadProgram, State.setMemory_memory, Memory.byteAt_writeRange h 0 _ (by omega), hlen]
  by_cases hx : x < min n Config.memorySize
  · rw [if_pos hx, if_pos (by omega), Nat.sub_zero, List.getD_eq_getElem?_getD, List.getElem?_take_of_lt hx, List.getD_eq_getElem?_getD]
  · rw [if_neg hx, if_neg (by omega)]

/-- The description that `snapshot()` shows for slot `k` (60_exceptions.md R505). -/
theorem snapshot_ioDescriptions_getElem? (s : State) {k : Nat} (hk : k < Config.ioTableSize) :
    (snapshot s).ioDescriptions[k]? = some (if s.ioTable[k]? = some true then some (Config.ioDescription k) else none) := by
  have hslot : s.ioTable[k]? = some s.ioTable[k] := Vector.getElem?_eq_getElem hk
  have hzip : s.ioTable.toList.zipIdx[k]? = some (s.ioTable[k], k) := by simp [hslot]
  simp [snapshot, hzip, hslot]

end Sys2Proof.Machine
end

section
/-! PROOF of O26, O27 and O60: what memory holds after a store, equal contents as equal data, and the host's operations. -/

namespace Sys2Proof.Machine

/-- Settles O26: each byte of the load is the byte of the value that the store put there. -/
theorem loadAfterStoreGivesTheLowBytes : Obligations.LoadAfterStoreGivesTheLowBytes := by
  intro m a w v hm hr
  have hbyte (k : Nat) (hk : k < w.bytes) : (m.writeCell a w v).byteAt (a + k) = byteOf v k :=
    Memory.byteAt_writeCell_add hm hr v hk
  have hzero : (m.writeCell a w v).byteAt a = byteOf v 0 := hbyte 0 (by cases w <;> decide)
  cases w with
  | byte =>
    simp only [Memory.readCell, hzero, ofBytes_toNat, byteOf_toNat, BitVec.toNat_ofNat, Width.bytes]
    omega
  | half =>
    simp only [Memory.readCell, hzero, hbyte 1 (by decide), ofBytes_toNat, byteOf_toNat, BitVec.toNat_ofNat, Width.bytes]
    omega
  | word =>
    simp only [Memory.readCell, hzero, hbyte 1 (by decide), hbyte 2 (by decide), hbyte 3 (by decide), ofBytes_toNat, byteOf_toNat,
      Width.bytes]
    omega

/-- Settles O27: below `MEMORY_SIZE` the memories agree by hypothesis, and above it both read 0. -/
theorem equalContentsAreEqualData : Obligations.EqualContentsAreEqualData := by
  intro m m' hm hm' heq
  have hbyte (a : Nat) : m.byteAt a = m'.byteAt a := by
    by_cases ha : a < Config.memorySize
    · exact heq a ha
    · rw [Memory.byteAt_of_memorySize_le hm (by omega), Memory.byteAt_of_memorySize_le hm' (by omega)]
  exact congrArg Memory.mk (canonical_ext hm hm' hbyte)

/-- Settles O60: the equations of the host's operations, put together. -/
theorem hostOperations : Obligations.HostOperations := by
  intro s hs
  refine ⟨⟨rfl, rfl, rfl, rfl, rfl, fun k hk => snapshot_ioDescriptions_getElem? s hk⟩,
    fun bytes n hn => ⟨_, rfl, byteAt_loadProgram hs hn⟩, fun a => ioReadByte_eq a s, fun a b => ⟨fun ha => ?inside, fun ha => ?outside⟩⟩
  case inside =>
    have hexists : a < Config.memorySize := Nat.lt_trans ha (by decide)
    exact ⟨_, ioWriteByte_of_lt ha b s, Memory.byteAt_writeByte hs hexists b⟩
  case outside => exact ioWriteByte_of_le ha b s

end Sys2Proof.Machine
end

section
/-! PROOF of O18. Which parts of the shared state an instruction writes: a table over the instructions, and the invariant that all other
parts are as they were, taken through each named operation. -/

namespace Sys2Proof.Machine

/-- The parts of the shared state that some instruction writes. The I/O table, `cur_core_id` and the number of cores are left out:
no instruction writes them. -/
inductive SharedPart where
  | memory
  | interruptTable
  | intEnabled
  | callbackLog

/-- The shared parts that an instruction may write (20_memory.md R90, 10_state.md R32, R33, 60_exceptions.md R489). -/
def writtenShared : Instr → List SharedPart
  | .sw | .sh | .sb | .cp => [.memory]
  | .ii => [.memory, .callbackLog]
  | .sv => [.interruptTable]
  | .hi | .si => [.intEnabled]
  | .no | .lw _ | .lh _ | .lb _ | .fw | .fh | .fb | .du | .dr | .sp | .pu | .po | .eq | .ne | .lt | .gt | .ad | .su | .mu | .dm
  | .md | .an | .or | .xo | .nt | .sl | .sr | .pa | .un | .rl | .ca | .cc | .ju | .cj | .re | .cr | .ti | .hs | .ic | .ac | .pc
  | .sc | .rr | .wr | .bc | .uu | .ff => []

/-! ### The columns of the table -/

theorem memory_mem_writtenShared_iff {i : Instr} :
    .memory ∈ writtenShared i ↔ i = .sw ∨ i = .sh ∨ i = .sb ∨ i = .cp ∨ i = .ii := by
  cases i <;> simp [writtenShared]

theorem interruptTable_mem_writtenShared_iff {i : Instr} : .interruptTable ∈ writtenShared i ↔ i = .sv := by
  cases i <;> simp [writtenShared]

theorem intEnabled_mem_writtenShared_iff {i : Instr} : .intEnabled ∈ writtenShared i ↔ i = .hi ∨ i = .si := by
  cases i <;> simp [writtenShared]

theorem callbackLog_mem_writtenShared_iff {i : Instr} : .callbackLog ∈ writtenShared i ↔ i = .ii := by
  cases i <;> simp [writtenShared]

/-! ### The frame -/

/-- On the way from `s` to `t` no part of the shared state outside `W` is written. -/
structure SharedFrame (W : List SharedPart) (s t : State) : Prop where
  memory : .memory ∉ W → t.memory = s.memory
  interruptTable : .interruptTable ∉ W → t.interruptTable = s.interruptTable
  intEnabled : .intEnabled ∉ W → t.intEnabled = s.intEnabled
  callbackLog : .callbackLog ∉ W → t.callbackLog = s.callbackLog
  ioTable : t.ioTable = s.ioTable
  curCoreId : t.curCoreId = s.curCoreId
  coreCount : t.cores.length = s.cores.length

section
variable {W : List SharedPart} {s₀ s : State}

/-! ### Updates of a state -/

theorem SharedFrame.refl : SharedFrame W s s := ⟨fun _ => rfl, fun _ => rfl, fun _ => rfl, fun _ => rfl, rfl, rfl, rfl⟩

/-- A core is no part of the shared state. -/
theorem SharedFrame.setCore (hs : SharedFrame W s₀ s) (id : Nat) (c : CoreState) : SharedFrame W s₀ (s.setCore id c) :=
  { hs with coreCount := List.length_set.trans hs.coreCount }

theorem SharedFrame.setCurrent (hs : SharedFrame W s₀ s) (c : CoreState) : SharedFrame W s₀ (s.setCurrent c) := hs.setCore _ c

theorem SharedFrame.setMemory (hs : SharedFrame W s₀ s) (h : .memory ∈ W) (m : Memory) : SharedFrame W s₀ (s.setMemory m) :=
  { hs with memory := fun hw => absurd h hw }

theorem SharedFrame.setTable (hs : SharedFrame W s₀ s) (h : .interruptTable ∈ W) (t : Vector Cell Config.interruptTableSize) :
    SharedFrame W s₀ (s.setTable t) :=
  { hs with interruptTable := fun hw => absurd h hw }

theorem SharedFrame.setIntEnabled (hs : SharedFrame W s₀ s) (h : .intEnabled ∈ W) (b : Bool) : SharedFrame W s₀ (s.setIntEnabled b) :=
  { hs with intEnabled := fun hw => absurd h hw }

theorem SharedFrame.logCallback (hs : SharedFrame W s₀ s) (h : .callbackLog ∈ W) (id : Nat) : SharedFrame W s₀ (s.logCallback id) :=
  { hs with callbackLog := fun hw => absurd h hw }

theorem SharedFrame.setStatus (hs : SharedFrame W s₀ s) (st : Status) : SharedFrame W s₀ (s.setStatus st) := { hs with }

/-! ### Operations that write a core -/

@[simp] theorem keepsShared_setCore (id : Nat) (c : CoreState) : Keeps (SharedFrame W s₀) (update fun s => s.setCore id c) :=
  keeps_update fun _ hs => hs.setCore id c

@[simp] theorem keepsShared_setCurrentCore (c : CoreState) : Keeps (SharedFrame W s₀) (setCurrentCore c) :=
  keeps_update fun _ hs => hs.setCurrent c

@[simp] theorem keepsShared_finish (op : OpcodeClass) (len : Nat) : Keeps (SharedFrame W s₀) (finish op len) :=
  keeps_bind (by simp) fun _ => keepsShared_setCurrentCore _

@[simp] theorem keepsShared_finishJump (op : OpcodeClass) (target : Cell) : Keeps (SharedFrame W s₀) (finishJump op target) :=
  keeps_bind (by simp) fun _ => keepsShared_setCurrentCore _

@[simp] theorem keepsShared_pop : Keeps (SharedFrame W s₀) pop := by
  intro s t v hs h
  obtain ⟨c, rest, -, -, rfl⟩ := pop_ok h
  exact hs.setCurrent _

@[simp] theorem keepsShared_push (v : Cell) : Keeps (SharedFrame W s₀) (push v) := by
  intro s t a hs h
  obtain ⟨c, -, -, rfl⟩ := push_ok h
  exact hs.setCurrent _

@[simp] theorem keepsShared_apop : Keeps (SharedFrame W s₀) apop := by
  intro s t v hs h
  obtain ⟨c, rest, -, -, rfl⟩ := apop_ok h
  exact hs.setCurrent _

@[simp] theorem keepsShared_apush (v : Cell) : Keeps (SharedFrame W s₀) (apush v) := by
  intro s t a hs h
  obtain ⟨c, -, -, rfl⟩ := apush_ok h
  exact hs.setCurrent _

@[simp] theorem keepsShared_writeRegister (id : Nat) (v : Cell) : Keeps (SharedFrame W s₀) (writeRegister id v) := by
  intro s t a hs h
  obtain ⟨c, -, rfl⟩ := writeRegister_ok h
  exact hs.setCurrent _

/-! ### Operations that write the shared state -/

@[simp] theorem keepsShared_memWrite (h : .memory ∈ W) (addr : Nat) (w : Width) (v : Cell) :
    Keeps (SharedFrame W s₀) (memWrite addr w v) :=
  keeps_bind (by simp) fun _ => keeps_update fun _ hs => hs.setMemory h _

@[simp] theorem keepsShared_copyBlock (h : .memory ∈ W) (len dst orig : Nat) : Keeps (SharedFrame W s₀) (copyBlock len dst orig) :=
  keeps_bind (by simp) fun _ => keeps_bind (by simp) fun _ => keeps_update fun _ hs => hs.setMemory h _

@[simp] theorem keepsShared_setTable (h : .interruptTable ∈ W) (f : State → Vector Cell Config.interruptTableSize) :
    Keeps (SharedFrame W s₀) (update fun s => s.setTable (f s)) := keeps_update fun s hs => hs.setTable h (f s)

@[simp] theorem keepsShared_setIntEnabled (h : .intEnabled ∈ W) (b : Bool) :
    Keeps (SharedFrame W s₀) (update fun s => s.setIntEnabled b) := keeps_update fun _ hs => hs.setIntEnabled h b

/-- A callback writes memory, and its invocation is logged (60_exceptions.md R490, log 4). -/
@[simp] theorem keepsShared_callSlot (hmem : .memory ∈ W) (hlog : .callbackLog ∈ W) (id : Nat) :
    Keeps (SharedFrame W s₀) (callSlot id) := by
  intro s t a hs h
  rcases callSlot_ok h with rfl | hcall
  · exact hs
  · rw [invokeCallback_ok hcall]
    exact (hs.logCallback hlog id).setMemory hmem _

/-- The transaction of a handler that keeps the frame; a raised status writes no part at all. -/
theorem transact_sharedFrame {h : Handler Unit} {t : State} (hk : Keeps (SharedFrame W s) h) (ht : transact h s = .next t) :
    SharedFrame W s t := transact_keeps hk (fun st hs => hs.setStatus st) ht .refl

end

/-! ### Instructions -/

/-- Every shared part that an instruction writes stands in its row, because each of its statements writes no other. -/
theorem exec_sharedFrame {i : Instr} {s t : State} (h : exec i s = .next t) : SharedFrame (writtenShared i) s t := by
  cases i
  case hs => exact transact_sharedFrame (h := raise .systemHalt) (by simp) h
  all_goals
    refine transact_sharedFrame ?_ h
    repeat' with_reducible first | refine keeps_bind ?_ fun _ => ?_ | refine keeps_ite ?_ ?_
    all_goals simp [writtenShared]

/-- Settles O18: each part is listed only in the rows of the instructions that the statement excepts. -/
theorem sharedStateFrame : Obligations.SharedStateFrame := by
  intro i s t h
  have hframe := exec_sharedFrame h
  refine ⟨fun hsw hsh hsb hcp hii a => congrArg (Memory.byteAt · a) (hframe.memory ?memory), fun hsv => hframe.interruptTable ?table,
    fun hhi hsi => hframe.intEnabled ?enabled, fun hii => hframe.callbackLog ?log, hframe.ioTable, hframe.curCoreId, hframe.coreCount⟩
  case memory => simp [memory_mem_writtenShared_iff, hsw, hsh, hsb, hcp, hii]
  case table => simp [interruptTable_mem_writtenShared_iff, hsv]
  case enabled => simp [intEnabled_mem_writtenShared_iff, hhi, hsi]
  case log => simp [callbackLog_mem_writtenShared_iff, hii]

end Sys2Proof.Machine
end

section
/-! SUPPORT. What the decoder answers for each format (30_encoding.md R121), and the only ways in which it can answer an instruction. -/

namespace Sys2Proof

/-! ### The rows of format O -/

/-- The opcode map has no row of format O above 0x36 and none for LW, LH and LB, and each of its instructions is one byte long
(R121, R125). -/
theorem opcodeRows_shape : ∀ row ∈ opcodeRows,
    row.1.toNat ≤ 0x36 ∧ row.1 ≠ 0x01#8 ∧ row.1 ≠ 0x02#8 ∧ row.1 ≠ 0x03#8 ∧ row.2.length = 1 := by decide

theorem mem_opcodeRows_of_lookup {op : Byte} {i : Instr} (h : opcodeRows.lookup op = some i) : (op, i) ∈ opcodeRows := by
  obtain ⟨before, after, hrows, -⟩ := List.lookup_eq_some_iff.1 h
  simp [hrows]

theorem lookup_opcodeRows_of_lt {op : Byte} (h : 0x36 < op.toNat) : opcodeRows.lookup op = none := by
  refine List.lookup_eq_none_iff.2 fun row hrow => ?_
  obtain ⟨hle, -⟩ := opcodeRows_shape row hrow
  exact bne_iff_ne.2 fun heq => Nat.not_lt.2 hle (heq ▸ h)

/-! ### The decoder on each format -/

theorem decode_lw (p1 p2 p3 b0 b1 b2 b3 : Byte) (rest : List Byte) :
    decode (0x01#8 :: p1 :: p2 :: p3 :: b0 :: b1 :: b2 :: b3 :: rest) = .ok (.lw (ofBytes b0 b1 b2 b3), rest) := rfl

theorem decode_lh (b0 b1 : Byte) (rest : List Byte) : decode (0x02#8 :: b0 :: b1 :: rest) = .ok (.lh (b1 ++ b0), rest) := rfl

theorem decode_lb (b0 : Byte) (rest : List Byte) : decode (0x03#8 :: b0 :: rest) = .ok (.lb b0, rest) := rfl

/-- The decoder on an opcode byte that has no immediate. -/
theorem decode_formatO {op : Byte} (hlw : op ≠ 0x01#8) (hlh : op ≠ 0x02#8) (hlb : op ≠ 0x03#8) (rest : List Byte) :
    decode (op :: rest) = match opcodeRows.lookup op with
      | some i => .ok (i, rest)
      | none => .error (.illegalOpcode op) := (if_neg hlw).trans ((if_neg hlh).trans (if_neg hlb))

theorem decode_of_lookup {op : Byte} {i : Instr} (h : opcodeRows.lookup op = some i) (rest : List Byte) :
    decode (op :: rest) = .ok (i, rest) := by
  obtain ⟨-, hlw, hlh, hlb, -⟩ := opcodeRows_shape _ (mem_opcodeRows_of_lookup h)
  rw [decode_formatO hlw hlh hlb, h]

/-- An opcode byte above 0x36 encodes no instruction (R126). -/
theorem decode_illegalOpcode {op : Byte} (h : 0x36 < op.toNat) (rest : List Byte) :
    decode (op :: rest) = .error (.illegalOpcode op) := by
  have hne {b : Byte} (hb : b.toNat ≤ 0x36) : op ≠ b := fun heq => Nat.not_lt.2 hb (heq ▸ h)
  rw [decode_formatO (hne (by decide)) (hne (by decide)) (hne (by decide)), lookup_opcodeRows_of_lt h]

/-- A decoded instruction is LW, LH or LB with the bytes of its immediate, or stands in the opcode map. -/
theorem decode_cons_ok {op : Byte} {rest rest' : List Byte} {i : Instr} (h : decode (op :: rest) = .ok (i, rest')) :
    (∃ p1 p2 p3 b0 b1 b2 b3, op = 0x01#8 ∧ rest = p1 :: p2 :: p3 :: b0 :: b1 :: b2 :: b3 :: rest' ∧ i = .lw (ofBytes b0 b1 b2 b3)) ∨
    (∃ b0 b1, op = 0x02#8 ∧ rest = b0 :: b1 :: rest' ∧ i = .lh (b1 ++ b0)) ∨
    (∃ b0, op = 0x03#8 ∧ rest = b0 :: rest' ∧ i = .lb b0) ∨
    ((op, i) ∈ opcodeRows ∧ rest = rest') := by
  unfold decode at h
  dsimp only at h
  split at h
  next hop =>
    split at h <;> cases h
    exact .inl ⟨_, _, _, _, _, _, _, hop, rfl, rfl⟩
  next =>
    split at h
    next hop =>
      split at h <;> cases h
      exact .inr (.inl ⟨_, _, hop, rfl, rfl⟩)
    next =>
      split at h
      next hop =>
        split at h <;> cases h
        exact .inr (.inr (.inl ⟨_, hop, rfl, rfl⟩))
      next =>
        split at h <;> cases h
        exact .inr (.inr (.inr ⟨mem_opcodeRows_of_lookup ‹_›, rfl⟩))

/-! ### Immediates -/

/-- A cell is made of its four bytes (R82). -/
theorem ofBytes_byteOf (v : Cell) : ofBytes (byteOf v 0) (byteOf v 1) (byteOf v 2) (byteOf v 3) = v := by
  apply BitVec.eq_of_toNat_eq
  simp only [Machine.ofBytes_toNat, Machine.byteOf_toNat]
  omega

theorem append_toNat (b0 b1 : Byte) : (b1 ++ b0).toNat = b0.toNat + 2 ^ 8 * b1.toNat := by
  rw [BitVec.toNat_append, ← Nat.shiftLeft_add_eq_or_of_lt b0.isLt, Nat.shiftLeft_eq]
  omega

/-- A half is made of its two bytes. -/
theorem append_extractLsb' (v : BitVec 16) : v.extractLsb' 8 8 ++ v.extractLsb' 0 8 = v := by
  apply BitVec.eq_of_toNat_eq
  simp only [append_toNat, BitVec.extractLsb'_toNat, Nat.shiftRight_eq_div_pow]
  omega

end Sys2Proof
end

section
/-! PROOF of O1 to O5: the decoder on what the encoder wrote, the length of what it read, and the bytes it rejects. -/

namespace Sys2Proof

/-- Settles O1: LW, LH and LB put their immediate together from the bytes it was cut into, every other instruction is found in its row. -/
theorem decodeEncodeAgree : Obligations.DecodeEncodeAgree := by
  intro i rest
  cases i
  case lw imm => exact (decode_lw 0 0 0 _ _ _ _ rest).trans (by rw [ofBytes_byteOf])
  case lh imm => exact (decode_lh _ _ rest).trans (by rw [append_extractLsb'])
  case lb imm => exact decode_lb imm rest
  all_goals exact decode_of_lookup rfl rest

/-- Settles O2: each of the four ways to be decoded fixes the opcode byte, the bytes consumed and the instruction's length. -/
theorem opcodeByteAloneTellsLength : Obligations.OpcodeByteAloneTellsLength := by
  intro op rest rest' i h
  rcases decode_cons_ok h with
    ⟨p1, p2, p3, b0, b1, b2, b3, rfl, rfl, rfl⟩ | ⟨b0, b1, rfl, rfl, rfl⟩ | ⟨b0, rfl, rfl, rfl⟩ | ⟨hrow, rfl⟩
  · exact ⟨Nat.add_comm rest'.length 8, rfl⟩
  · exact ⟨Nat.add_comm rest'.length 3, rfl⟩
  · exact ⟨Nat.add_comm rest'.length 2, rfl⟩
  · obtain ⟨-, hlw, hlh, hlb, hlen⟩ := opcodeRows_shape _ hrow
    rw [if_neg hlw, if_neg hlh, if_neg hlb, hlen]
    exact ⟨Nat.add_comm .., rfl⟩

/-- Settles O3: the bytes of an immediate as a number, the first least significant. -/
theorem immediatesAreLittleEndian : Obligations.ImmediatesAreLittleEndian := fun p1 p2 p3 b0 b1 b2 b3 rest =>
  ⟨⟨_, decode_lw p1 p2 p3 b0 b1 b2 b3 rest, Machine.ofBytes_toNat b0 b1 b2 b3⟩,
    ⟨_, decode_lh b0 b1 rest, append_toNat b0 b1⟩, decode_lb b0 rest⟩

/-- Settles O4: the three words with an immediate by their format, the others by their rows. -/
theorem someWordsDecode : Obligations.SomeWordsDecode := by
  refine ⟨decode_lw .., decode_lh .., decode_lb .., ?_⟩
  refine ⟨?_, ?_, ?_, ?_, ?_, ?_, ?_, ?_⟩ <;> exact decode_of_lookup rfl []

end Sys2Proof

namespace Sys2Proof.Machine

theorem fetchOpcode_of_lt {m : Memory} {addr : Nat} (h : addr < 65535) : fetchOpcode m addr = .ok (m.byteAt addr) :=
  if_neg (Nat.not_le.2 h)

/-- The fetch hands the decoder the opcode byte first (R122). -/
theorem fetchBytes_eq_cons (m : Memory) (addr : Nat) : fetchBytes m addr = m.byteAt addr :: m.readRange (addr + 1) 7 := rfl

/-- A step in a run selects a core and ticks (41_engine.md R225). -/
theorem step_of_running {s : State} (h : s.status = .none) : step s = tick (selectNextCore s) := by
  rw [step, h]

/-- A tick whose bytes decode to no instruction is refused (R126). -/
theorem tick_of_decode_error {s : State} {c : CoreState} {e : DecodeError} (hc : s.current? = some c) (hip : c.ip.toNat < 65535)
    (he : decode (fetchBytes s.memory c.ip.toNat) = .error e) : tick s = .refused (.undecodable e) := by
  simp only [tick, hc, fetchOpcode_of_lt hip, he]

/-- Settles O5: the fetched byte heads the bytes that the tick decodes, whatever follows it. -/
theorem illegalOpcodeIsRefused : Obligations.IllegalOpcodeIsRefused := by
  intro op hop
  refine ⟨decode_illegalOpcode hop, fun s c hrun hc hip hbyte => ?_⟩
  have hfetch : (selectNextCore s).memory.byteAt c.ip.toNat = op := hbyte
  rw [step_of_running hrun]
  refine tick_of_decode_error hc hip ?_
  rw [fetchBytes_eq_cons, hfetch]
  exact decode_illegalOpcode hop _

end Sys2Proof.Machine
end

section
/-! SUPPORT. Running a handler on a core that meets its guard: each statement of a straight-line handler completes, and leaves the core
that the next statement finds. -/

namespace Sys2Proof.Machine

section
variable {β : Type} {s : State} {c : CoreState} {v : Cell} {rest : List Cell}

/-- A guard that finds its cells and free slots (41_engine.md R230). -/
theorem guardStack_bind {p q : Nat} (hc : s.current? = some c) (hp : p ≤ c.data.length) (hq : c.data.length + q ≤ 32)
    (f : Unit → Handler β) : (guardStack p q >>= f) s = f () s :=
  handler_bind_of_ok (by rw [guardStack_apply, hc]; simp [Nat.not_lt.2 hp, Nat.not_lt.2 hq])

theorem pop_bind (hc : s.current? = some c) (hd : c.data = v :: rest) (f : Cell → Handler β) :
    (pop >>= f) s = f v (s.setCurrent { c with data := rest }) :=
  handler_bind_of_ok (by rw [pop_apply, hc]; simp only [hd])

theorem orRaise_bind {α : Type} {x : Except Status α} {a : α} (h : x = .ok a) (f : α → Handler β) : (orRaise x >>= f) s = f a s :=
  handler_bind_of_ok (by rw [orRaise_apply, h])

/-! The statements after the first pop find the core of before with another data stack. -/

/-- The core that was written last is the executing core. -/
theorem State.current_setCurrent_of_some (hc : s.current? = some c) (d : CoreState) : (s.setCurrent d).current? = some d := by
  simp [hc]

theorem pop_bind_withData (hc : s.current? = some c) (f : Cell → Handler β) :
    (pop >>= f) (s.setCurrent { c with data := v :: rest }) = f v (s.setCurrent { c with data := rest }) := by
  rw [pop_bind (State.current_setCurrent_of_some hc _) rfl, State.setCurrent_setCurrent]

theorem getCore_bind_withData (hc : s.current? = some c) (f : CoreState → Handler β) :
    (getCore >>= f) (s.setCurrent { c with data := rest }) =
      f { c with data := rest } (s.setCurrent { c with data := rest }) :=
  handler_bind_of_ok (by rw [getCore_apply, State.current_setCurrent_of_some hc])

theorem push_bind_withData (hc : s.current? = some c) (hroom : rest.length < 32) (f : Unit → Handler β) :
    (push v >>= f) (s.setCurrent { c with data := rest }) = f () (s.setCurrent { c with data := v :: rest }) := by
  refine handler_bind_of_ok ?_
  rw [push_apply, State.current_setCurrent_of_some hc]
  exact (if_pos hroom).trans (by rw [State.setCurrent_setCurrent])

/-- The end of an opcode that sets no mode (41_engine.md R236, R238). -/
theorem finish_ordinary_withData (hc : s.current? = some c) (len : Nat) :
    finish .ordinary len (s.setCurrent { c with data := rest }) =
      .ok ((), s.setCurrent { c with data := rest, ip := c.ip + BitVec.ofNat 32 len, opMode := .signed }) := by
  rw [finish_apply, State.current_setCurrent_of_some hc]
  exact congrArg _ (congrArg _ (State.setCurrent_setCurrent ..))

end

/-! ### The shapes of 44_compare_arith.md -/

/-- What LT, GT, AD, SU and MU do with the function of the arithmetic unit that each of them names (R312 to R316). -/
def binaryOperation (op : Cell → Cell → OpMode → Cell) : Handler Unit := do
  guardStack 2 1
  let r ← pop
  let l ← pop
  let c ← getCore
  push (op l r c.opMode)
  finish .ordinary 1

/-- What DM and MD do with the division in the mode, once the operands are popped (R317, R318). -/
def pushDivision (division : OpMode → Except Status (Cell × Cell)) : Handler Unit := do
  let c ← getCore
  let (mo, q) ← orRaise (division c.opMode)
  push mo
  push q
  finish .ordinary 1

theorem exec_lt (s : State) : exec .lt s = transact (binaryOperation lessThan) s := rfl
theorem exec_gt (s : State) : exec .gt s = transact (binaryOperation greaterThan) s := rfl
theorem exec_ad (s : State) : exec .ad s = transact (binaryOperation add) s := rfl
theorem exec_su (s : State) : exec .su s = transact (binaryOperation subtract) s := rfl
theorem exec_mu (s : State) : exec .mu s = transact (binaryOperation multiply) s := rfl

theorem exec_dm (s : State) : exec .dm s = transact (do
    guardStack 2 2
    let r ← pop
    let l ← pop
    pushDivision (divideRemainder l r)) s := rfl

theorem exec_md (s : State) : exec .md s = transact (do
    guardStack 3 2
    let r ← pop
    let m ← pop
    let l ← pop
    pushDivision (multiplyDivideRemainder l m r)) s := rfl

section
variable {s : State} {c : CoreState} {r l : Cell} {rest : List Cell}

/-- A binary operation replaces its operands by its result, computed in the mode that the instruction found. -/
theorem transact_binaryOperation (hc : s.current? = some c) (hd : c.data = r :: l :: rest) (hlen : c.data.length ≤ 31)
    (op : Cell → Cell → OpMode → Cell) :
    transact (binaryOperation op) s =
      .next (s.setCurrent { c with data := op l r c.opMode :: rest, ip := c.ip + 1, opMode := .signed }) := by
  have hcount : c.data.length = rest.length + 2 := by rw [hd]; rfl
  apply transact_of_ok
  rw [binaryOperation, guardStack_bind hc (by omega) (by omega), pop_bind hc hd, pop_bind_withData hc, getCore_bind_withData hc,
    push_bind_withData hc (by omega), finish_ordinary_withData hc]
  rfl

/-- A division that has a value leaves the quotient on top of the modulo. -/
theorem pushDivision_withData {division : OpMode → Except Status (Cell × Cell)} {mo q : Cell} (hc : s.current? = some c)
    (hroom : rest.length + 2 ≤ 32) (hdiv : division c.opMode = .ok (mo, q)) :
    pushDivision division (s.setCurrent { c with data := rest }) =
      .ok ((), s.setCurrent { c with data := q :: mo :: rest, ip := c.ip + 1, opMode := .signed }) := by
  rw [pushDivision, getCore_bind_withData hc, orRaise_bind hdiv]
  dsimp only
  rw [push_bind_withData hc (by omega), push_bind_withData (rest := mo :: rest) hc hroom, finish_ordinary_withData hc]
  rfl

theorem exec_dm_of_ok {mo q : Cell} (hc : s.current? = some c) (hd : c.data = r :: l :: rest) (hlen : c.data.length ≤ 30)
    (hdiv : divideRemainder l r c.opMode = .ok (mo, q)) :
    exec .dm s = .next (s.setCurrent { c with data := q :: mo :: rest, ip := c.ip + 1, opMode := .signed }) := by
  have hcount : c.data.length = rest.length + 2 := by rw [hd]; rfl
  rw [exec_dm]
  apply transact_of_ok
  rw [guardStack_bind hc (by omega) (by omega), pop_bind hc hd, pop_bind_withData hc, pushDivision_withData hc (by omega) hdiv]

theorem exec_md_of_ok {m mo q : Cell} (hc : s.current? = some c) (hd : c.data = r :: m :: l :: rest) (hlen : c.data.length ≤ 30)
    (hdiv : multiplyDivideRemainder l m r c.opMode = .ok (mo, q)) :
    exec .md s = .next (s.setCurrent { c with data := q :: mo :: rest, ip := c.ip + 1, opMode := .signed }) := by
  have hcount : c.data.length = rest.length + 3 := by rw [hd]; rfl
  rw [exec_md]
  apply transact_of_ok
  rw [guardStack_bind hc (by omega) (by omega), pop_bind hc hd, pop_bind_withData hc, pop_bind_withData hc,
    pushDivision_withData hc (by omega) hdiv]

end

end Sys2Proof.Machine
end

section
/-! SUPPORT. The orders and the division of the integer modes (40_cell_alu.md R177, R180, R181). -/

namespace Sys2Proof.Machine

theorem cellBool_decide (p : Prop) [Decidable p] : cellBool (decide p) = if p then 0xFFFFFFFF#32 else 0#32 := by
  by_cases h : p <;> simp [cellBool, h]

/-- SIGNED mode compares two's-complement numbers (R177). -/
theorem lessThan_signed (l r : Cell) : lessThan l r .signed = if l.toInt < r.toInt then 0xFFFFFFFF#32 else 0#32 := cellBool_decide _

theorem greaterThan_signed (l r : Cell) : greaterThan l r .signed = if l.toInt > r.toInt then 0xFFFFFFFF#32 else 0#32 := cellBool_decide _

/-- UNSIGNED mode compares the patterns as numbers (R177). -/
theorem lessThan_unsigned (l r : Cell) : lessThan l r .unsigned = if l.toNat < r.toNat then 0xFFFFFFFF#32 else 0#32 := cellBool_decide _

theorem greaterThan_unsigned (l r : Cell) : greaterThan l r .unsigned = if l.toNat > r.toNat then 0xFFFFFFFF#32 else 0#32 :=
  cellBool_decide _

/-- The truncated quotient and its remainder, as the bit-vector operations (R180). -/
theorem divideRemainder_signed {r : Cell} (l : Cell) (hr : r ≠ 0#32) :
    divideRemainder l r .signed = .ok (l.srem r, l.sdiv r) := by
  have hq : cellI32 (Int.tdiv l.toInt r.toInt) = l.sdiv r := by
    rw [← BitVec.toInt_inj, cellI32, BitVec.toInt_ofInt, BitVec.toInt_sdiv]
  have hmo : cellI32 (l.toInt - Int.tdiv l.toInt r.toInt * r.toInt) = l.srem r := by
    rw [← cellI32_toInt (l.srem r), BitVec.toInt_srem, Int.tmod_def, Int.mul_comm]
  rw [divideRemainder, zeroDivisor_integer r (by decide), decide_eq_false hr, if_neg (by decide)]
  dsimp only
  rw [hq, hmo]

/-- The floor and its remainder, as the bit-vector operations (R181). -/
theorem divideRemainder_unsigned {r : Cell} (l : Cell) (hr : r ≠ 0#32) : divideRemainder l r .unsigned = .ok (l % r, l / r) := by
  have hq : cellU32 (l.toNat / r.toNat) = l / r := by rw [← BitVec.toNat_udiv, cellU32_toNat]
  have hmo : cellU32 (l.toNat % r.toNat) = l % r := by rw [← BitVec.toNat_umod, cellU32_toNat]
  rw [divideRemainder, zeroDivisor_integer r (by decide), decide_eq_false hr, if_neg (by decide), hq, hmo]

/-- MD divides the wrapped product (R183). -/
theorem multiplyDivideRemainder_integer {m : OpMode} (l mul r : Cell) (h : m ≠ .float) :
    multiplyDivideRemainder l mul r m = divideRemainder (l * mul) r m := by
  rw [multiplyDivideRemainder, multiply_integer l mul h]

/-- The one overflowing quotient wraps to the dividend, and its remainder is 0 (R180). -/
theorem truncatedDivision_sdiv_srem (l : Cell) {r : Cell} (hr : r ≠ 0#32) : TruncatedDivision l r (l.sdiv r) (l.srem r) := by
  unfold TruncatedDivision
  split
  next hoverflow =>
    obtain ⟨rfl, rfl⟩ := hoverflow
    decide
  next hfits =>
    have hq : (l.sdiv r).toInt = Int.tdiv l.toInt r.toInt :=
      BitVec.toInt_sdiv_of_ne_or_ne l r (Decidable.not_and_iff_or_not.1 hfits)
    have hr' : r.toInt ≠ 0 := fun h => hr (BitVec.toInt_inj.1 h)
    rw [hq, BitVec.toInt_srem]
    refine ⟨(Int.tdiv_mul_add_tmod ..).symm, ?_, ?_⟩
    · rw [Int.natAbs_tmod]
      exact Nat.mod_lt _ (Int.natAbs_pos.2 hr')
    · rw [Int.sign_tmod, ← Int.dvd_iff_tmod_eq_zero]
      by_cases hdvd : r.toInt ∣ l.toInt
      · exact .inl hdvd
      · exact .inr (if_neg hdvd)

end Sys2Proof.Machine
end

section
/-! PROOF of O31, O33 and O38: the integer modes of 44_compare_arith.md, each instruction's shape with its function of the arithmetic
unit. -/

namespace Sys2Proof.Machine

/-- Settles O31: LT and GT are binary operations, and their functions compare in the order of the mode. -/
theorem integerOrderComparisons : Obligations.IntegerOrderComparisons := by
  refine ⟨rfl, rfl, fun s c r l rest hc hd hlen => ?_⟩
  rw [exec_lt, exec_gt, transact_binaryOperation hc hd hlen, transact_binaryOperation hc hd hlen]
  refine ⟨fun hmode => ?signed, fun hmode => ?unsigned⟩
  case signed =>
    rw [hmode, lessThan_signed, greaterThan_signed]
    exact ⟨rfl, rfl⟩
  case unsigned =>
    rw [hmode, lessThan_unsigned, greaterThan_unsigned]
    exact ⟨rfl, rfl⟩

/-- Settles O33: AD, SU and MU are binary operations, and in the integer modes their functions are those of bit vectors. -/
theorem integerArithmeticWraps : Obligations.IntegerArithmeticWraps := by
  refine ⟨rfl, rfl, rfl, fun s c r l rest hc hd hlen hmode => ?_⟩
  have hinteger : c.opMode ≠ .float := by rcases hmode with h | h <;> simp [h]
  rw [exec_ad, exec_su, exec_mu, ← add_integer l r hinteger, ← subtract_integer l r hinteger, ← multiply_integer l r hinteger]
  exact ⟨transact_binaryOperation hc hd hlen _, transact_binaryOperation hc hd hlen _, transact_binaryOperation hc hd hlen _⟩

/-- Settles O38: the division of the mode has a value, and MD's is that of the wrapped product. -/
theorem integerDivision : Obligations.IntegerDivision := by
  refine ⟨rfl, rfl, fun s c r l rest hc hd hlen hr => ⟨fun hmode => ?dmSigned, fun hmode => ?dmUnsigned⟩,
    fun s c r m l rest hc hd hlen hr => ⟨fun hmode => ?mdSigned, fun hmode => ?mdUnsigned⟩⟩
  case dmSigned =>
    exact ⟨_, _, truncatedDivision_sdiv_srem l hr, exec_dm_of_ok hc hd hlen (by rw [hmode, divideRemainder_signed l hr])⟩
  case dmUnsigned =>
    exact ⟨_, _, BitVec.toNat_udiv, BitVec.toNat_umod, exec_dm_of_ok hc hd hlen (by rw [hmode, divideRemainder_unsigned l hr])⟩
  case mdSigned =>
    exact ⟨_, _, truncatedDivision_sdiv_srem (l * m) hr, exec_md_of_ok hc hd hlen
      (by rw [hmode, multiplyDivideRemainder_integer l m r (by decide), divideRemainder_signed _ hr])⟩
  case mdUnsigned =>
    exact ⟨_, _, BitVec.toNat_udiv, BitVec.toNat_umod, exec_md_of_ok hc hd hlen
      (by rw [hmode, multiplyDivideRemainder_integer l m r (by decide), divideRemainder_unsigned _ hr])⟩

end Sys2Proof.Machine
end

section
/-! SUPPORT. The binary32 patterns: their values in the order of their bits, and what `toF32` reads of a pattern (40_cell_alu.md R163). -/

namespace Sys2Proof.Machine

/-- A magnitude pattern as a significand `q` with the unit `2^k`; a significand of `2^24` has carried into the exponent. -/
theorem magnitudeOf_significand {k q : Nat} (hnormal : k = 0 ∨ 2 ^ 23 ≤ q) (hq : q ≤ 2 ^ 24) :
    magnitudeOf (k * 2 ^ 23 + q) = q * 2 ^ k := by
  unfold magnitudeOf
  split
  next hsubnormal =>
    obtain rfl : k = 0 := by omega
    simp
  next =>
    rcases Nat.lt_or_eq_of_le hq with hlt | rfl
    · have hexponent : (k * 2 ^ 23 + q) / 2 ^ 23 - 1 = k := by omega
      have hsignificand : 2 ^ 23 + (k * 2 ^ 23 + q) % 2 ^ 23 = q := by omega
      rw [hexponent, hsignificand]
    · have hexponent : (k * 2 ^ 23 + 2 ^ 24) / 2 ^ 23 - 1 = k + 1 := by omega
      have hfraction : (k * 2 ^ 23 + 2 ^ 24) % 2 ^ 23 = 0 := by omega
      rw [hexponent, hfraction, pow_succ]
      omega

/-- A greater pattern stands for a greater value. -/
theorem magnitudeOf_strictMono : StrictMono magnitudeOf := by
  refine strictMono_nat_of_lt_succ fun b => ?_
  obtain ⟨k, q, rfl, hnormal, hq⟩ : ∃ k q, b = k * 2 ^ 23 + q ∧ (k = 0 ∨ 2 ^ 23 ≤ q) ∧ q < 2 ^ 24 :=
    ⟨b / 2 ^ 23 - 1, b - (b / 2 ^ 23 - 1) * 2 ^ 23, by omega, by omega, by omega⟩
  rw [Nat.add_assoc, magnitudeOf_significand hnormal hq.le, magnitudeOf_significand (by omega) hq]
  exact Nat.mul_lt_mul_of_pos_right q.lt_succ_self (Nat.two_pow_pos k)

/-- A cell as a number is its sign bit above its bits 30:0. -/
theorem toNat_eq_sign_add_bits (c : Cell) : c.toNat = (if c.msb then 2 ^ 31 else 0) + c.toNat % 2 ^ 31 := by
  have := c.isLt
  rw [BitVec.msb_eq_decide]
  simp only [decide_eq_true_eq]
  split <;> omega

/-- The classes of binary32 by the bits 30:0 (R163). -/
theorem toF32_eq (c : Cell) : toF32 c =
    if c.toNat % 2 ^ 31 < infinityBits then .finite c.msb (magnitudeOf (c.toNat % 2 ^ 31))
    else if c.toNat % 2 ^ 31 = infinityBits then .infinite c.msb else .nan := by
  have hexponent : (c.extractLsb' 23 8).toNat = c.toNat % 2 ^ 31 / 2 ^ 23 := by simp [Nat.shiftRight_eq_div_pow]; omega
  have hfraction : (c.extractLsb' 0 23).toNat = c.toNat % 2 ^ 31 % 2 ^ 23 := by simp
  have hbits : c.toNat % 2 ^ 31 < 2 ^ 31 := Nat.mod_lt _ (by decide)
  unfold toF32 magnitudeOf infinityBits
  rw [hexponent, hfraction]
  generalize c.toNat % 2 ^ 31 = bits at hbits
  dsimp only
  by_cases htop : bits / 2 ^ 23 = 255
  · rw [if_pos htop, if_neg (by omega : ¬ bits < 0x7F800000)]
    exact if_congr (by omega) rfl rfl
  · rw [if_neg htop, if_pos (by omega : bits < 0x7F800000)]
    by_cases hsubnormal : bits < 2 ^ 23
    · rw [if_pos hsubnormal, if_pos (by omega), Nat.mod_eq_of_lt hsubnormal]
    · rw [if_neg hsubnormal, if_neg (by omega)]

/-- What a finite pattern is made of. -/
theorem toF32_finite {c : Cell} {neg : Bool} {mag : Nat} (h : toF32 c = .finite neg mag) :
    c.toNat % 2 ^ 31 < infinityBits ∧ neg = c.msb ∧ mag = magnitudeOf (c.toNat % 2 ^ 31) := by
  rw [toF32_eq] at h
  split at h
  next hfinite =>
    cases h
    exact ⟨hfinite, rfl, rfl⟩
  next => split at h <;> cases h

theorem isNaN_iff (c : Cell) : isNaN c = true ↔ toF32 c = .nan := decide_eq_true_iff

theorem signedCell_toNat (neg : Bool) {bits : Nat} (h : bits < 2 ^ 31) :
    (signedCell neg bits).toNat = (if neg then 2 ^ 31 else 0) + bits := by
  rw [signedCell, BitVec.toNat_ofNat, Nat.mod_eq_of_lt]
  split <;> omega

theorem signedCell_toNat_mod (neg : Bool) {bits : Nat} (h : bits < 2 ^ 31) : (signedCell neg bits).toNat % 2 ^ 31 = bits := by
  rw [signedCell_toNat neg h]
  split <;> omega

theorem signedCell_msb (neg : Bool) {bits : Nat} (h : bits < 2 ^ 31) : (signedCell neg bits).msb = neg := by
  rw [BitVec.msb_eq_decide, signedCell_toNat neg h]
  cases neg
  · simp; omega
  · simp

/-- A cell is its sign bit and its bits 30:0. -/
theorem signedCell_self (c : Cell) : signedCell c.msb (c.toNat % 2 ^ 31) = c := by
  rw [signedCell, ← toNat_eq_sign_add_bits, BitVec.ofNat_toNat, BitVec.setWidth_eq]

theorem toF32_infinity (neg : Bool) : toF32 (signedCell neg infinityBits) = .infinite neg := by cases neg <;> decide

theorem toF32_zero (neg : Bool) : toF32 (signedCell neg 0) = .finite neg 0 := by cases neg <;> decide

theorem signedCell_zero (neg : Bool) : signedCell neg 0 = if neg then 0x80000000#32 else 0#32 := by cases neg <;> rfl

end Sys2Proof.Machine
end

section
/-! SUPPORT. Rounding (40_cell_alu.md R174): `roundBits` finds the two neighbouring patterns with the exact value between them and takes
the nearer one, the even one of two equally near. -/

namespace Sys2Proof.Machine

/-- Of the neighbours `b` and `b + 1`, the one nearer to `num / den` units, the even one at their midpoint. -/
def nearerNeighbour (num den b : Nat) : Nat :=
  if (magnitudeOf b + magnitudeOf (b + 1)) * den < 2 * num ∨
    ((magnitudeOf b + magnitudeOf (b + 1)) * den = 2 * num ∧ b % 2 = 1) then b + 1 else b

/-- `num / den` units lie between the values of the patterns `b` and `b + 1`. -/
def Brackets (num den b : Nat) : Prop := magnitudeOf b * den ≤ num ∧ num < magnitudeOf (b + 1) * den

/-- The significand that `roundBits` starts from has at most 24 bits, and all 24 unless its unit is the smallest. -/
theorem significand_bounds (t : Nat) :
    (Nat.log2 t - 23 = 0 ∨ 2 ^ 23 ≤ t / 2 ^ (Nat.log2 t - 23)) ∧ t / 2 ^ (Nat.log2 t - 23) < 2 ^ 24 := by
  constructor
  · by_cases hk : Nat.log2 t - 23 = 0
    · exact .inl hk
    · have ht : t ≠ 0 := by rintro rfl; exact hk (by simp)
      rw [Nat.le_div_iff_mul_le (Nat.two_pow_pos _), ← pow_add]
      exact .inr ((Nat.pow_le_pow_right (by decide) (by omega)).trans (Nat.log2_self_le ht))
  · rw [Nat.div_lt_iff_lt_mul (Nat.two_pow_pos _), ← pow_add]
    exact Nat.lt_log2_self.trans_le (Nat.pow_le_pow_right (by decide) (by omega))

/-- What `roundBits` answers, in terms of the values of patterns. -/
theorem roundBits_eq (num : Nat) {den : Nat} (hden : 0 < den) :
    ∃ b, Brackets num den b ∧ roundBits num den = min (nearerNeighbour num den b) infinityBits := by
  obtain ⟨hnormal, hq⟩ := significand_bounds (num / den)
  unfold roundBits
  dsimp only
  rw [Nat.div_div_eq_div_mul] at hnormal hq
  generalize Nat.log2 (num / den) - 23 = k at hnormal hq
  have hunit : 0 < den * 2 ^ k := Nat.mul_pos hden (Nat.two_pow_pos k)
  have hsplit := Nat.div_add_mod num (den * 2 ^ k)
  have hr := Nat.mod_lt num hunit
  generalize num / (den * 2 ^ k) = q at hnormal hq hsplit
  generalize num % (den * 2 ^ k) = r at hr hsplit
  have hlower : magnitudeOf (k * 2 ^ 23 + q) * den = den * 2 ^ k * q := by
    rw [magnitudeOf_significand hnormal hq.le]; ring
  have hupper : magnitudeOf (k * 2 ^ 23 + q + 1) * den = den * 2 ^ k * q + den * 2 ^ k := by
    rw [Nat.add_assoc, magnitudeOf_significand (by omega) hq, Nat.succ_eq_add_one]; ring
  refine ⟨k * 2 ^ 23 + q, ⟨by omega, by omega⟩, ?_⟩
  unfold nearerNeighbour
  rw [Nat.add_mul, hlower, hupper]
  congr 1
  have hround : (2 * r > den * 2 ^ k ∨ (2 * r = den * 2 ^ k ∧ q % 2 = 1)) ↔
      (den * 2 ^ k * q + (den * 2 ^ k * q + den * 2 ^ k) < 2 * num ∨
        (den * 2 ^ k * q + (den * 2 ^ k * q + den * 2 ^ k) = 2 * num ∧ (k * 2 ^ 23 + q) % 2 = 1)) := by omega
  rw [← if_congr hround rfl rfl]
  split
  · rw [Nat.add_assoc]
  · rfl

theorem nearerNeighbour_le (num den b : Nat) : nearerNeighbour num den b ≤ b + 1 := by
  unfold nearerNeighbour
  split <;> omega

theorem le_nearerNeighbour (num den b : Nat) : b ≤ nearerNeighbour num den b := by
  unfold nearerNeighbour
  split <;> omega

/-- No pattern is nearer than the nearer neighbour: one beyond a neighbour is farther away than that neighbour. -/
theorem nearerNeighbour_nearest {num den b : Nat} (hden : 0 < den) (h : Brackets num den b) (other : Nat) :
    distanceTo num den (nearerNeighbour num den b) ≤ distanceTo num den other ∧
    (distanceTo num den (nearerNeighbour num den b) = distanceTo num den other →
      other = nearerNeighbour num den b ∨ nearerNeighbour num den b % 2 = 0) := by
  obtain ⟨hlo, hhi⟩ := h
  have hbeyond : other = b ∨ other = b + 1 ∨ magnitudeOf other * den < magnitudeOf b * den ∨
      magnitudeOf (b + 1) * den < magnitudeOf other * den := by
    simp only [Nat.mul_lt_mul_right hden, magnitudeOf_strictMono.lt_iff_lt]
    omega
  unfold nearerNeighbour distanceTo
  rw [Nat.add_mul]
  split
  · rcases hbeyond with rfl | rfl | hbelow | habove <;> omega
  · rcases hbeyond with rfl | rfl | hbelow | habove <;> omega

/-- Overflow: the nearer neighbour is an infinity or lies beyond it exactly from half a step above the largest finite value on. -/
theorem infinityBits_le_nearerNeighbour_iff {num den b : Nat} (h : Brackets num den b) :
    infinityBits ≤ nearerNeighbour num den b ↔ (2 ^ 25 - 1) * 2 ^ 252 * den ≤ num := by
  obtain ⟨hlo, hhi⟩ := h
  have hlargest : magnitudeOf 0x7F7FFFFF = (2 ^ 24 - 1) * 2 ^ 253 := by decide
  have hinfinity : magnitudeOf 0x7F800000 = 2 ^ 254 * 2 ^ 23 := by decide
  rcases Nat.lt_trichotomy b 0x7F7FFFFF with hsmall | rfl | hlarge
  · have hmag : magnitudeOf (b + 1) * den ≤ magnitudeOf 0x7F7FFFFF * den :=
      Nat.mul_le_mul_right den (magnitudeOf_strictMono.monotone hsmall)
    rw [hlargest] at hmag
    have := nearerNeighbour_le num den b
    unfold infinityBits
    omega
  · unfold nearerNeighbour infinityBits
    rw [hlargest, hinfinity]
    split <;> omega
  · have hmag : magnitudeOf 0x7F800000 * den ≤ magnitudeOf b * den :=
      Nat.mul_le_mul_right den (magnitudeOf_strictMono.monotone hlarge)
    rw [hinfinity] at hmag
    have := le_nearerNeighbour num den b
    unfold infinityBits
    omega

/-- `roundBits` rounds to nearest even (R174). -/
theorem roundBits_nearestEven (num : Nat) {den : Nat} (hden : 0 < den) : NearestEven num den (roundBits num den) := by
  obtain ⟨b, hbracket, heq⟩ := roundBits_eq num hden
  have hoverflow := infinityBits_le_nearerNeighbour_iff hbracket
  rw [heq]
  refine ⟨min_le_right .., min_eq_right_iff.trans hoverflow, fun hfinite other _ => ?_⟩
  have hnoOverflow : nearerNeighbour num den b < infinityBits := (min_lt_iff.1 hfinite).resolve_right (lt_irrefl _)
  rw [min_eq_left hnoOverflow.le]
  exact nearerNeighbour_nearest hden hbracket other

theorem roundBits_le_infinityBits (num den : Nat) : roundBits num den ≤ infinityBits := min_le_right ..

/-- `Cell.f32` of an exact value has its sign and its rounding (R166, R174). -/
theorem roundedCell_roundedTo (neg : Bool) (num : Nat) {den : Nat} (hden : 0 < den) :
    RoundedTo neg num den (roundedCell neg num den) := by
  have hbits : roundBits num den < 2 ^ 31 := (roundBits_le_infinityBits num den).trans_lt (by decide)
  refine ⟨signedCell_msb neg hbits, ?_⟩
  rw [roundedCell, signedCell_toNat_mod neg hbits]
  exact roundBits_nearestEven num hden

/-- A value that a finite pattern stands for is its own rounding: it is the lower end of its bracket. -/
theorem roundBits_magnitudeOf {bits : Nat} (hfinite : bits < infinityBits) : roundBits (magnitudeOf bits) 1 = bits := by
  obtain ⟨b, ⟨hlo, hhi⟩, heq⟩ := roundBits_eq (magnitudeOf bits) Nat.one_pos
  rw [Nat.mul_one, magnitudeOf_strictMono.le_iff_le] at hlo
  rw [Nat.mul_one, magnitudeOf_strictMono.lt_iff_lt] at hhi
  obtain rfl : b = bits := by omega
  have hstep : magnitudeOf b < magnitudeOf (b + 1) := magnitudeOf_strictMono b.lt_succ_self
  have hexact : nearerNeighbour (magnitudeOf b) 1 b = b := if_neg (by omega)
  rw [heq, hexact, min_eq_left hfinite.le]

end Sys2Proof.Machine
end

section
/-! SUPPORT. The binary32 operations on each class of operands (40_cell_alu.md R174, R176, R182). -/

namespace Sys2Proof.Machine

/-- `FLOAT_NAN_RESULT` is a NaN encoding, whatever its free value (R176). -/
theorem isNaN_floatNanResult (op : Config.FloatOp) (l r : Cell) : isNaN (floatNanResult op l r) = true := by
  unfold floatNanResult
  split
  · assumption
  · decide

theorem signedMag_not (neg : Bool) (mag : Nat) : signedMag (!neg) mag = -signedMag neg mag := by
  cases neg
  · rfl
  · exact (Int.neg_neg _).symm

theorem FloatVal.negate_eq_nan_iff {x : FloatVal} : x.negate = .nan ↔ x = .nan := by cases x <;> simp [FloatVal.negate]

/-! ### A NaN operand -/

section
variable {nan : Cell} {x y : FloatVal}

/-- An operation that answers `nan` for a NaN on either side. -/
theorem eq_nan_of_nan_operand {op : FloatVal → FloatVal → Cell} (hleft : ∀ y, op .nan y = nan) (hright : ∀ x, op x .nan = nan)
    (h : x = .nan ∨ y = .nan) : op x y = nan := by
  rcases h with rfl | rfl
  · exact hleft y
  · exact hright x

theorem floatSum_of_nan : x = .nan ∨ y = .nan → floatSum nan x y = nan :=
  eq_nan_of_nan_operand (fun _ => rfl) (fun x => by cases x <;> rfl)

theorem floatProduct_of_nan : x = .nan ∨ y = .nan → floatProduct nan x y = nan :=
  eq_nan_of_nan_operand (fun _ => rfl) (fun x => by cases x <;> rfl)

theorem floatQuotient_of_nan : x = .nan ∨ y = .nan → floatQuotient nan x y = nan :=
  eq_nan_of_nan_operand (fun _ => rfl) (fun x => by cases x <;> rfl)

theorem floatRemOf_of_nan (l : Cell) : x = .nan ∨ y = .nan → floatRemOf nan l x y = nan :=
  eq_nan_of_nan_operand (fun _ => rfl) (fun x => by cases x <;> rfl)

end

/-! ### Infinite operands -/

theorem toF32_floatSum_infinite_self (nan : Cell) (a : Bool) :
    toF32 (floatSum nan (.infinite a) (.infinite a)) = .infinite a := by
  rw [floatSum, if_pos rfl, toF32_infinity]

theorem floatSum_infinite_of_ne (nan : Cell) {a b : Bool} (h : a ≠ b) : floatSum nan (.infinite a) (.infinite b) = nan := if_neg h

/-- An infinity times a zero has no value, times another finite value it is an infinity (R174). -/
theorem floatProduct_infinite_finite {nan : Cell} (hnan : isNaN nan = true) (a b : Bool) (n : Nat) :
    if n = 0 then isNaN (floatProduct nan (.infinite a) (.finite b n)) = true
    else toF32 (floatProduct nan (.infinite a) (.finite b n)) = .infinite (a ^^ b) := by
  unfold floatProduct
  dsimp only
  split
  · exact hnan
  · exact toF32_infinity _

theorem floatProduct_finite_infinite (nan : Cell) (a b : Bool) (m : Nat) :
    floatProduct nan (.finite a m) (.infinite b) = floatProduct nan (.infinite a) (.finite b m) := rfl

/-! ### The instructions in FLOAT mode -/

/-- Where the divisor is no zero, a FLOAT division has a value (R179, R182). -/
theorem divideRemainder_float {r : Cell} (l : Cell) (hpos : r ≠ 0#32) (hneg : r ≠ 0x80000000#32) :
    divideRemainder l r .float = .ok (floatRemainder l r, floatDivide l r) := by
  have hr : zeroDivisor r .float ≠ true := fun h => ((isFloatZero_iff r).1 h).elim hpos hneg
  rw [divideRemainder, if_neg hr]

section
variable {s : State} {c : CoreState} {r l : Cell} {rest : List Cell} (hc : s.current? = some c) (hd : c.data = r :: l :: rest)
  (hmode : c.opMode = .float)
include hc hd hmode

theorem transact_binaryOperation_float (hlen : c.data.length ≤ 31) (op : Cell → Cell → OpMode → Cell) :
    transact (binaryOperation op) s =
      .next (s.setCurrent { c with data := op l r .float :: rest, ip := c.ip + 1, opMode := .signed }) := by
  rw [transact_binaryOperation hc hd hlen, hmode]

theorem exec_ad_float (hlen : c.data.length ≤ 31) :
    exec .ad s = .next (s.setCurrent { c with data := floatAdd l r :: rest, ip := c.ip + 1, opMode := .signed }) :=
  transact_binaryOperation_float hc hd hmode hlen add

theorem exec_su_float (hlen : c.data.length ≤ 31) :
    exec .su s = .next (s.setCurrent { c with data := floatSubtract l r :: rest, ip := c.ip + 1, opMode := .signed }) :=
  transact_binaryOperation_float hc hd hmode hlen subtract

theorem exec_mu_float (hlen : c.data.length ≤ 31) :
    exec .mu s = .next (s.setCurrent { c with data := floatMultiply l r :: rest, ip := c.ip + 1, opMode := .signed }) :=
  transact_binaryOperation_float hc hd hmode hlen multiply

theorem exec_dm_float (hlen : c.data.length ≤ 30) (hpos : r ≠ 0#32) (hneg : r ≠ 0x80000000#32) :
    exec .dm s = .next (s.setCurrent
      { c with data := floatDivide l r :: floatRemainder l r :: rest, ip := c.ip + 1, opMode := .signed }) :=
  exec_dm_of_ok hc hd hlen (by rw [hmode, divideRemainder_float l hpos hneg])

end

/-! ### Finite operands -/

/-- The exact sum is rounded, or a zero with the sign that both addends share (R174). -/
theorem floatSum_finite (nan : Cell) (a b : Bool) (m n : Nat) :
    if signedMag a m + signedMag b n = 0 then
      floatSum nan (.finite a m) (.finite b n) = if a && b then 0x80000000#32 else 0#32
    else RoundedTo (decide (signedMag a m + signedMag b n < 0)) (signedMag a m + signedMag b n).natAbs 1
      (floatSum nan (.finite a m) (.finite b n)) := by
  unfold floatSum
  dsimp only
  split
  next => exact signedCell_zero _
  next => exact roundedCell_roundedTo _ _ Nat.one_pos

end Sys2Proof.Machine
end

section
/-! PROOF of O34, O35, O36 and O40: the FLOAT mode of 44_compare_arith.md, each instruction's value on each class of operands. -/

namespace Sys2Proof.Machine

/-- Settles O34: the three instructions push the rounding of the exact value, and a difference is the sum with the negated subtrahend. -/
theorem floatArithmeticIsCorrectlyRounded : Obligations.FloatArithmeticIsCorrectlyRounded := by
  intro s c r l rest a b m n hc hd hlen hmode hl hr
  refine ⟨_, _, _, exec_ad_float hc hd hmode hlen, exec_su_float hc hd hmode hlen, exec_mu_float hc hd hmode hlen, ?sum,
    ?difference, ?product⟩
  case sum =>
    rw [floatAdd, hl, hr]
    exact floatSum_finite _ a b m n
  case difference =>
    rw [floatSubtract, hl, hr, Int.sub_eq_add_neg, ← signedMag_not]
    exact floatSum_finite _ a (!b) m n
  case product =>
    rw [floatMultiply, hl, hr]
    exact roundedCell_roundedTo _ _ (Nat.two_pow_pos 149)

/-- Settles O35: a NaN operand, two infinities, and an infinity on either side of a finite operand, each with its branch of the operation. -/
theorem floatArithmeticOnNaNAndInfinity : Obligations.FloatArithmeticOnNaNAndInfinity := by
  intro s c r l rest hc hd hlen hmode
  refine ⟨_, _, _, exec_ad_float hc hd hmode hlen, exec_su_float hc hd hmode hlen, exec_mu_float hc hd hmode hlen, ?nan,
    fun a b hl hr => ?infinities, fun a b n hl hr => ?infiniteLeft, fun a m b hl hr => ?infiniteRight⟩
  case nan =>
    simp only [isNaN_iff l, isNaN_iff r]
    intro h
    rw [floatAdd, floatSubtract, floatMultiply, floatSum_of_nan h, floatSum_of_nan (h.imp_right FloatVal.negate_eq_nan_iff.2),
      floatProduct_of_nan h]
    exact ⟨isNaN_floatNanResult .., isNaN_floatNanResult .., isNaN_floatNanResult ..⟩
  case infinities =>
    rw [floatAdd, floatSubtract, floatMultiply, hl, hr]
    refine ⟨?_, toF32_infinity _⟩
    split
    next hsame =>
      subst hsame
      rw [FloatVal.negate, floatSum_infinite_of_ne _ (Bool.eq_not_self a).1]
      exact ⟨toF32_floatSum_infinite_self _ a, isNaN_floatNanResult ..⟩
    next hopposite =>
      rw [FloatVal.negate, floatSum_infinite_of_ne _ hopposite, ← Bool.eq_not.2 hopposite]
      exact ⟨isNaN_floatNanResult .., toF32_floatSum_infinite_self _ a⟩
  case infiniteLeft =>
    rw [floatAdd, floatSubtract, floatMultiply, hl, hr]
    exact ⟨toF32_infinity a, toF32_infinity a, floatProduct_infinite_finite (isNaN_floatNanResult ..) a b n⟩
  case infiniteRight =>
    rw [floatAdd, floatSubtract, floatMultiply, hl, hr, floatProduct_finite_infinite]
    exact ⟨toF32_infinity b, toF32_infinity _, floatProduct_infinite_finite (isNaN_floatNanResult ..) a b m⟩

/-- Settles O36: the value determines the bits 30:0, and the sign is kept. -/
theorem finitePatternsRoundToThemselves : Obligations.FinitePatternsRoundToThemselves := by
  intro x neg mag hx
  obtain ⟨hfinite, rfl, rfl⟩ := toF32_finite hx
  rw [roundedCell, roundBits_magnitudeOf hfinite, signedCell_self]

/-- Settles O40: the same classes of operands, for the quotient and the remainder. -/
theorem floatDivisionOnNaNAndInfinity : Obligations.FloatDivisionOnNaNAndInfinity := by
  intro s c r l rest hc hd hlen hmode hpos hneg
  refine ⟨_, _, exec_dm_float hc hd hmode hlen hpos hneg, ?nan, fun a b hl hr => ?infinities, fun a b n hl hr => ?infiniteDividend,
    fun a m b hl hr => ?infiniteDivisor⟩
  case nan =>
    simp only [isNaN_iff l, isNaN_iff r]
    intro h
    rw [floatDivide, floatRemainder, floatQuotient_of_nan h, floatRemOf_of_nan _ h]
    exact ⟨isNaN_floatNanResult .., isNaN_floatNanResult ..⟩
  all_goals rw [floatDivide, floatRemainder, hl, hr]
  case infinities => exact ⟨isNaN_floatNanResult .., isNaN_floatNanResult ..⟩
  case infiniteDividend => exact ⟨toF32_infinity _, isNaN_floatNanResult ..⟩
  case infiniteDivisor => exact ⟨toF32_zero _, rfl⟩

end Sys2Proof.Machine
end

section
/-! PROOF of O9 to O12: the scan of the scheduler, what a tick does with the bytes it fetches, and two active cores taking turns. -/

namespace Sys2Proof.Machine

/-! ### The scheduler -/

theorem isActive_iff {s : State} {id : Nat} : isActive s id = true ↔ s.coreActive id := by
  unfold isActive State.coreActive
  cases s.cores[id]? <;> simp

/-- The scan finds the first active core, `k + 1` places further on. -/
theorem nextCoreId_of_first_active {s : State} {k : Nat} (hk : k < s.cores.length)
    (hactive : s.coreActive ((s.curCoreId + k + 1) % s.cores.length))
    (hfirst : ∀ j, j < k → ¬ s.coreActive ((s.curCoreId + j + 1) % s.cores.length)) :
    nextCoreId s = (s.curCoreId + k + 1) % s.cores.length := by
  have hfind : (List.range s.cores.length).find? (fun j => isActive s ((s.curCoreId + j + 1) % s.cores.length)) = some k := by
    refine List.find?_range_eq_some.2 ⟨isActive_iff.2 hactive, List.mem_range.2 hk, fun j hj => ?_⟩
    simpa [← isActive_iff] using hfirst j hj
  rw [nextCoreId, scanOrder, List.find?_map, Function.comp_def, hfind]
  rfl

theorem nextCoreId_of_none_active {s : State} (hnone : ∀ id, ¬ s.coreActive id) : nextCoreId s = s.curCoreId := by
  have hfind : (scanOrder s).find? (isActive s) = none := List.find?_eq_none.2 fun id _ => by simpa [isActive_iff] using hnone id
  rw [nextCoreId, hfind]
  rfl

/-- Settles O9: the scan's place `k` is entry `k - 1` of the list that it goes through. -/
theorem schedulerTakesNextActiveCore : Obligations.SchedulerTakesNextActiveCore := by
  refine fun s _ => ⟨fun k hk hcount hactive hfirst => ?_, fun hnone => ?_⟩
  · obtain ⟨k, rfl⟩ := Nat.exists_eq_succ_of_ne_zero (Nat.ne_of_gt hk)
    exact congrArg s.select (nextCoreId_of_first_active hcount hactive fun j hj => hfirst (j + 1) (Nat.succ_pos j) (Nat.succ_lt_succ hj))
  · exact congrArg s.select (nextCoreId_of_none_active hnone)

/-! ### The tick -/

theorem tick_of_decode_ok {s : State} {c : CoreState} {i : Instr} {rest : List Byte} (hc : s.current? = some c)
    (hip : c.ip.toNat < 65535) (hi : decode (fetchBytes s.memory c.ip.toNat) = .ok (i, rest)) : tick s = exec i s := by
  simp only [tick, hc, fetchOpcode_of_lt hip, hi]

/-- A fetch at or above `MEMORY_SIZE` (20_memory.md R89). -/
theorem fetchOpcode_of_ge {m : Memory} {addr : Nat} (h : 65535 ≤ addr) : fetchOpcode m addr = .error .systemHalt := if_pos h

theorem tick_past_memory {s : State} {c : CoreState} (hc : s.current? = some c) (hip : 65535 ≤ c.ip.toNat) :
    tick s = .next (s.setStatus .systemHalt) := by
  simp only [tick, hc, fetchOpcode_of_ge hip, takeStatus_eq]

/-- Settles O10: a running step is the tick of the selected core, and the scheduler leaves the memory that it fetches from. -/
theorem stepRunsDecodedInstruction : Obligations.StepRunsDecodedInstruction := by
  intro s c i rest hrun hc hip hi
  rw [step_of_running hrun]
  exact tick_of_decode_ok hc hip hi

/-- Settles O11: the fetch answers SystemHalt, which the tick takes as its status. -/
theorem fetchPastMemoryHalts : Obligations.FetchPastMemoryHalts := by
  intro s c hrun hc hip
  rw [step_of_running hrun]
  exact tick_past_memory hc hip

/-! ### Two active cores -/

/-- NO advances IP and consumes a pending UU or FF (42_literal_memory.md R260). -/
theorem exec_no_of_core {s : State} {c : CoreState} (hc : s.current? = some c) :
    exec .no s = .next (s.setCurrent { c with ip := c.ip + 1, opMode := .signed }) :=
  transact_of_ok (h := finish .ordinary 1) (by rw [finish_apply, hc]; rfl)

theorem run_succ_of_step {s s' : State} (h : step s = .next s') (n : Nat) :
    Host.Core.run core (n + 1) s = Host.Core.run core n s' := by
  have hcore : core.step s = .next s' := h
  simp only [Host.Core.run, hcore]

/-- A run is in progress on two active cores over memory that holds NO everywhere; core `b`, in state `cb`, executed last, and core `a`,
in state `ca`, is the other one. -/
structure Alternating (s : State) (a b : Nat) (ca cb : CoreState) : Prop where
  running : s.status = .none
  coreCount : s.cores.length = 2
  ids : a + b = 1
  lastId : s.curCoreId = b
  core_a : s.cores[a]? = some ca
  core_b : s.cores[b]? = some cb
  active_a : ca.active = true
  active_b : cb.active = true
  zero : ∀ addr, s.memory.byteAt addr = 0#8

section
variable {s : State} {a b : Nat} {ca cb : CoreState}

theorem Alternating.selectNextCore_eq (h : Alternating s a b ca cb) : selectNextCore s = s.select a := by
  have hids := h.ids
  have hnext : (s.curCoreId + 1) % s.cores.length = a := by
    rw [h.lastId, h.coreCount]
    omega
  obtain ⟨htakes, -⟩ := schedulerTakesNextActiveCore s (by rw [h.lastId, h.coreCount]; omega)
  have hselect := htakes 1 le_rfl (by rw [h.coreCount]; omega)
  rw [hnext] at hselect
  exact hselect ⟨ca, h.core_a, h.active_a⟩ (fun j hj hj' => absurd hj (Nat.not_le.2 hj'))

/-- The next tick executes NO on the other core, and the two cores change places. -/
theorem Alternating.step (h : Alternating s a b ca cb) (hip : ca.ip.toNat < 65535) :
    ∃ s', step s = .next s' ∧ Alternating s' b a cb { ca with ip := ca.ip + 1, opMode := .signed } := by
  have hids := h.ids
  have hne : a ≠ b := by omega
  have hcore : (selectNextCore s).current? = some ca := by rw [h.selectNextCore_eq]; exact h.core_a
  have hno : decode (s.memory.readRange ca.ip.toNat 8) = .ok (.no, s.memory.readRange (ca.ip.toNat + 1) 7) := by
    rw [Memory.readRange, h.zero]
    exact decode_of_lookup rfl _
  refine ⟨_, (stepRunsDecodedInstruction s ca _ _ h.running hcore hip hno).trans (exec_no_of_core hcore), ?_⟩
  rw [h.selectNextCore_eq]
  exact {
    running := h.running
    coreCount := by simpa using h.coreCount
    ids := by omega
    lastId := rfl
    core_a := by simpa [hne] using h.core_b
    core_b := State.current_setCurrent_of_some (s := s.select a) h.core_a _
    active_a := h.active_b
    active_b := h.active_a
    zero := h.zero }

/-- Of `n` ticks the core that did not execute last takes the first, and with it the odd one. -/
theorem Alternating.run {n : Nat} (h : Alternating s a b ca cb) (ha : ca.ip.toNat + (n + 1) / 2 ≤ 65535)
    (hb : cb.ip.toNat + n / 2 ≤ 65535) :
    ∃ t da db, Host.Core.run core n s = .next t ∧ t.cores.length = 2 ∧ t.cores[a]? = some da ∧ t.cores[b]? = some db ∧
      da.ip.toNat = ca.ip.toNat + (n + 1) / 2 ∧ db.ip.toNat = cb.ip.toNat + n / 2 := by
  induction n generalizing s a b ca cb with
  | zero => exact ⟨s, ca, cb, rfl, h.coreCount, h.core_a, h.core_b, rfl, rfl⟩
  | succ n ih =>
    obtain ⟨s', hstep, h'⟩ := h.step (by omega)
    have hip : (ca.ip + 1).toNat = ca.ip.toNat + 1 := by bv_omega
    obtain ⟨t, db, da, hrun, hcount, hdb, hda, hipb, hipa⟩ := ih h' (by omega) (by simp only [hip]; omega)
    refine ⟨t, da, db, (run_succ_of_step hstep n).trans hrun, hcount, hda, hdb, ?_, hipb⟩
    simp only [hip] at hipa
    omega

end

/-- Settles O12: with `cur_core_id = 1`, core 1 executed last. -/
theorem twoActiveCoresAlternate : Obligations.TwoActiveCoresAlternate := by
  intro n s c0 c1 hrun hcores h0 h1 hid hzero hip0 hip1
  have halt : Alternating s 0 1 c0 c1 := ⟨hrun, by simp [hcores], rfl, hid, by simp [hcores], by simp [hcores], h0, h1, hzero⟩
  obtain ⟨t, d0, d1, hn, hcount, ht0, ht1, hipd0, hipd1⟩ := halt.run hip0 hip1
  refine ⟨t, d0, d1, hn, ?_, hipd0, hipd1⟩
  obtain ⟨x, y, hxy⟩ := List.length_eq_two.1 hcount
  rw [hxy] at ht0 ht1 ⊢
  cases ht0
  cases ht1
  rfl

end Sys2Proof.Machine
end

section
/-! SUPPORT. What a handler does to the status output and to the modes: it raises only statuses of a list, writes the output nowhere, and
leaves the executing core as its last statement does. Each named operation is looked at once. -/

namespace Sys2Proof.Machine

/-! ### Statuses -/

/-- The handler raises only statuses in `W`, and leaves the status output alone where it completes. -/
structure RaisesOnly {α : Type} (W : List Status) (x : Handler α) : Prop where
  output : ∀ s t a, x s = .ok (a, t) → t.status = s.status
  raised : ∀ s st, x s = .error (.raise st) → st ∈ W

section
variable {α β : Type} {W : List Status}

@[simp] theorem raisesOnly_pure (a : α) : RaisesOnly W (pure a) where
  output s t b h := by cases h; rfl
  raised := nofun

@[simp] theorem raisesOnly_raise {st : Status} (h : st ∈ W) : RaisesOnly W (raise st : Handler α) where
  output := nofun
  raised s st' h' := by cases h'; exact h

@[simp] theorem raisesOnly_undefinedStop (r : Refusal) : RaisesOnly W (undefinedStop r : Handler α) := ⟨nofun, nofun⟩

theorem raisesOnly_orRaise {x : Except Status α} (h : ∀ st, x = .error st → st ∈ W) : RaisesOnly W (orRaise x) := by
  cases x with
  | ok a => exact raisesOnly_pure a
  | error st => exact raisesOnly_raise (h st rfl)

theorem raisesOnly_update {f : State → State} (h : ∀ s, (f s).status = s.status) : RaisesOnly W (update f) where
  output s t a h' := by cases h'; exact h s
  raised := nofun

@[simp] theorem raisesOnly_setCurrentCore (c : CoreState) : RaisesOnly W (setCurrentCore c) := raisesOnly_update fun _ => rfl

@[simp] theorem raisesOnly_setCore (id : Nat) (c : CoreState) : RaisesOnly W (update fun s => s.setCore id c) :=
  raisesOnly_update fun _ => rfl

@[simp] theorem raisesOnly_setTable (f : State → Vector Cell Config.interruptTableSize) :
    RaisesOnly W (update fun s => s.setTable (f s)) := raisesOnly_update fun _ => rfl

@[simp] theorem raisesOnly_setIntEnabled (b : Bool) : RaisesOnly W (update fun s => s.setIntEnabled b) :=
  raisesOnly_update fun _ => rfl

@[simp] theorem raisesOnly_getCore : RaisesOnly W getCore where
  output s t a h := congrArg State.status (getCore_ok h).2
  raised s st h := by cases (getCore_error h).2

@[simp] theorem raisesOnly_coreAt (id : Nat) : RaisesOnly W (coreAt id) where
  output s t a h := congrArg State.status (coreAt_ok h).2
  raised s st h := by cases (coreAt_error h).2

/-- A statement that reads the state. -/
theorem raisesOnly_read (f : State → α) : RaisesOnly W (fun s => .ok (f s, s) : Handler α) where
  output s t a h := by cases h; rfl
  raised := nofun

@[simp] theorem raisesOnly_getIntEnabled : RaisesOnly W getIntEnabled := raisesOnly_read _

@[simp] theorem raisesOnly_interrupt (id : Nat) : RaisesOnly W (interrupt id) := raisesOnly_pure ()

@[simp] theorem raisesOnly_bind {x : Handler α} {f : α → Handler β} (hx : RaisesOnly W x) (hf : ∀ a, RaisesOnly W (f a)) :
    RaisesOnly W (x >>= f) where
  output s t b h := by
    obtain ⟨a, s', ha, hb⟩ := handler_bind_ok_iff.1 h
    rw [(hf a).output _ _ _ hb, hx.output _ _ _ ha]
  raised s st h := by
    rcases handler_bind_error_iff.1 h with hx' | ⟨a, s', -, hb⟩
    · exact hx.raised _ _ hx'
    · exact (hf a).raised _ _ hb

@[simp] theorem raisesOnly_ite {p : Prop} [Decidable p] {x y : Handler α} (hx : RaisesOnly W x) (hy : RaisesOnly W y) :
    RaisesOnly W (if p then x else y) := by
  split
  · exact hx
  · exact hy

@[simp] theorem raisesOnly_pop : RaisesOnly W pop := by
  refine raisesOnly_bind raisesOnly_getCore fun c => ?_
  split
  · exact raisesOnly_bind (raisesOnly_setCurrentCore _) fun _ => raisesOnly_pure _
  · exact raisesOnly_undefinedStop _

@[simp] theorem raisesOnly_push (v : Cell) : RaisesOnly W (push v) :=
  raisesOnly_bind raisesOnly_getCore fun _ => raisesOnly_ite (raisesOnly_setCurrentCore _) (raisesOnly_undefinedStop _)

@[simp] theorem raisesOnly_apop (h : .addressStackUnderflow ∈ W) : RaisesOnly W apop := by
  refine raisesOnly_bind raisesOnly_getCore fun c => ?_
  split
  · exact raisesOnly_bind (raisesOnly_setCurrentCore _) fun _ => raisesOnly_pure _
  · exact raisesOnly_raise h

@[simp] theorem raisesOnly_apush (h : .addressStackOverflow ∈ W) (v : Cell) : RaisesOnly W (apush v) :=
  raisesOnly_bind raisesOnly_getCore fun _ => raisesOnly_ite (raisesOnly_raise h) (raisesOnly_setCurrentCore _)

@[simp] theorem raisesOnly_checkRange (h : .illegalMemoryAddress ∈ W) (addr len : Nat) : RaisesOnly W (checkRange addr len) :=
  raisesOnly_ite (raisesOnly_pure _) (raisesOnly_raise h)

@[simp] theorem raisesOnly_immediate (h : .illegalMemoryAddress ∈ W) (offset len : Nat) (v : Cell) :
    RaisesOnly W (immediate offset len v) :=
  raisesOnly_bind raisesOnly_getCore fun _ => raisesOnly_bind (raisesOnly_checkRange h _ _) fun _ => raisesOnly_pure v

@[simp] theorem raisesOnly_memRead (h : .illegalMemoryAddress ∈ W) (addr : Nat) (w : Width) : RaisesOnly W (memRead addr w) :=
  raisesOnly_bind (raisesOnly_checkRange h _ _) fun _ => raisesOnly_read _

@[simp] theorem raisesOnly_memWrite (h : .illegalMemoryAddress ∈ W) (addr : Nat) (w : Width) (v : Cell) :
    RaisesOnly W (memWrite addr w v) :=
  raisesOnly_bind (raisesOnly_checkRange h _ _) fun _ => raisesOnly_update fun _ => rfl

@[simp] theorem raisesOnly_compareBlock (h : .illegalMemoryAddress ∈ W) (len dst orig : Nat) :
    RaisesOnly W (compareBlock len dst orig) :=
  raisesOnly_bind (raisesOnly_checkRange h _ _) fun _ => raisesOnly_bind (raisesOnly_checkRange h _ _) fun _ => raisesOnly_read _

@[simp] theorem raisesOnly_copyBlock (h : .illegalMemoryAddress ∈ W) (len dst orig : Nat) :
    RaisesOnly W (copyBlock len dst orig) :=
  raisesOnly_bind (raisesOnly_checkRange h _ _) fun _ => raisesOnly_bind (raisesOnly_checkRange h _ _) fun _ =>
    raisesOnly_update fun _ => rfl

@[simp] theorem raisesOnly_readRegister (h : .illegalRegisterId ∈ W) (id : Nat) : RaisesOnly W (readRegister id) := by
  refine raisesOnly_bind raisesOnly_getCore fun c => ?_
  split
  · exact raisesOnly_pure _
  · exact raisesOnly_raise h

@[simp] theorem raisesOnly_writeRegister (h : .illegalRegisterId ∈ W) (id : Nat) (v : Cell) :
    RaisesOnly W (writeRegister id v) :=
  raisesOnly_bind raisesOnly_getCore fun _ => raisesOnly_ite (raisesOnly_setCurrentCore _) (raisesOnly_raise h)

/-- A callback's host calls return their statuses to the callback and raise none (60_exceptions.md R490). -/
@[simp] theorem raisesOnly_callSlot (id : Nat) : RaisesOnly W (callSlot id) where
  output s t a h := by
    rcases callSlot_ok h with rfl | hcall
    · rfl
    · rw [invokeCallback_ok hcall]
      rfl
  raised s st h := by
    rcases callbackResult_error (callSlot_error h) with ⟨call, hcall⟩ | hcall <;> cases hcall

@[simp] theorem raisesOnly_finish (op : OpcodeClass) (len : Nat) : RaisesOnly W (finish op len) :=
  raisesOnly_bind raisesOnly_getCore fun _ => raisesOnly_setCurrentCore _

@[simp] theorem raisesOnly_finishJump (op : OpcodeClass) (target : Cell) : RaisesOnly W (finishJump op target) :=
  raisesOnly_bind raisesOnly_getCore fun _ => raisesOnly_setCurrentCore _

/-! The arithmetic unit (40_cell_alu.md R179, R186, R187). -/

@[simp] theorem raisesOnly_divideRemainder (h : .divisionByZero ∈ W) (l r : Cell) (m : OpMode) :
    RaisesOnly W (orRaise (divideRemainder l r m)) := by
  unfold divideRemainder
  split
  · exact raisesOnly_raise h
  · split <;> exact raisesOnly_pure _

@[simp] theorem raisesOnly_multiplyDivideRemainder (h : .divisionByZero ∈ W) (l mul r : Cell) (m : OpMode) :
    RaisesOnly W (orRaise (multiplyDivideRemainder l mul r m)) := raisesOnly_divideRemainder h _ _ _

@[simp] theorem raisesOnly_shiftLeft (h : .invalidFloatOperation ∈ W) (l r : Cell) (m : OpMode) :
    RaisesOnly W (orRaise (shiftLeft l r m)) := by
  cases m with
  | signed | unsigned => exact raisesOnly_pure _
  | float => exact raisesOnly_raise h

@[simp] theorem raisesOnly_shiftRight (h : .invalidFloatOperation ∈ W) (l r : Cell) (m : OpMode) :
    RaisesOnly W (orRaise (shiftRight l r m)) := by
  cases m with
  | signed | unsigned => exact raisesOnly_pure _
  | float => exact raisesOnly_raise h

end

/-! ### Modes -/

/-- Where the handler completes, it leaves the executing core with `P`. -/
def Leaves {α : Type} (P : CoreState → Prop) (x : Handler α) : Prop :=
  ∀ s t a, x s = .ok (a, t) → ∀ d, t.current? = some d → P d

section
variable {α β : Type} {P : CoreState → Prop}

@[simp] theorem leaves_raise (st : Status) : Leaves P (raise st : Handler α) := nofun

/-- The last statement decides. -/
@[simp] theorem leaves_bind {x : Handler α} {f : α → Handler β} (hf : ∀ a, Leaves P (f a)) : Leaves P (x >>= f) := by
  intro s t b h
  obtain ⟨a, s', -, hb⟩ := handler_bind_ok_iff.1 h
  exact hf a _ _ _ hb

@[simp] theorem leaves_ite {p : Prop} [Decidable p] {x y : Handler α} (hx : Leaves P x) (hy : Leaves P y) :
    Leaves P (if p then x else y) := by
  split
  · exact hx
  · exact hy

/-- The core that is written last is the executing core. -/
theorem leaves_setCurrentCore {c : CoreState} (h : P c) : Leaves P (setCurrentCore c) := by
  intro s t a ht d hd
  cases ht
  rw [State.setCurrent_current, Option.map_eq_some_iff] at hd
  obtain ⟨-, -, rfl⟩ := hd
  exact h

@[simp] theorem leaves_finish {op : OpcodeClass} (h : ∀ c, P (modeEpilogue op c)) (len : Nat) : Leaves P (finish op len) :=
  leaves_bind fun _ => leaves_setCurrentCore (h _)

@[simp] theorem leaves_finishJump {op : OpcodeClass} (h : ∀ c, P (modeEpilogue op c)) (target : Cell) :
    Leaves P (finishJump op target) := leaves_bind fun _ => leaves_setCurrentCore (h _)

theorem finish_ok {op : OpcodeClass} {len : Nat} {s t : State} {a : Unit} (h : finish op len s = .ok (a, t)) :
    ∃ c, s.current? = some c ∧ t = s.setCurrent (modeEpilogue op { c with ip := c.ip + BitVec.ofNat 32 len }) := by
  rw [finish_apply] at h
  split at h <;> cases h
  exact ⟨_, ‹_›, rfl⟩

/-- The end of UU and FF keeps the mode that they have set (41_engine.md R238). -/
theorem leaves_setMode {m : OpMode} (h : ∀ c : CoreState, c.opMode = m → P c) (len : Nat) :
    Leaves P (do
      let c ← getCore
      setCurrentCore { c with opMode := m }
      finish .modeSetter len) := by
  intro s t a ht d hd
  obtain ⟨c, s₁, -, hrest⟩ := handler_bind_ok_iff.1 ht
  obtain ⟨⟨⟩, s₂, hset, hfinish⟩ := handler_bind_ok_iff.1 hrest
  obtain ⟨e, he, rfl⟩ := finish_ok hfinish
  rw [State.current_setCurrent_of_some he] at hd
  cases hd
  exact h _ (leaves_setCurrentCore (P := fun d => d.opMode = m) rfl s₁ s₂ () hset e he)

end

end Sys2Proof.Machine
end

section
/-! PROOF of O13, O15 and O21. Every instruction is its guard and then a handler that raises only the instruction's own statuses and ends
with its epilogue, which leaves four ways in which it can answer a next state. -/

namespace Sys2Proof.Machine

/-! ### The shape of an instruction -/

/-- The modes that a completing instruction leaves on the executing core (41_engine.md R238). -/
def ModesAfter (i : Instr) (d : CoreState) : Prop :=
  (i ≠ .uu → i ≠ .ff → d.opMode = .signed) ∧ (i = .uu → d.opMode = .unsigned) ∧ (i = .ff → d.opMode = .float) ∧
  (i = .ca ∨ i = .cc ∨ i = .ju ∨ i = .cj → d.addrMode = .direct)

/-- What the handler of instruction `i` does once its guard has held. -/
structure GuardedBody (i : Instr) (h : Handler Unit) : Prop where
  statuses : RaisesOnly (ownStatuses i) h
  modes : Leaves (ModesAfter i) h

/-- A handler behind the guard with its counts; counts of 0 and 0 stand for no guard (41_engine.md R231). -/
def guarded (counts : Nat × Nat) (h : Handler Unit) : Handler Unit :=
  if counts = (0, 0) then h else guardStack counts.1 counts.2 >>= fun _ => h

/-- Each statement of a handler is met by the rules for its operation. -/
theorem exec_eq_guarded (i : Instr) : ∃ h, GuardedBody i h ∧ ∀ s, exec i s = transact (guarded (guardCounts i) h) s := by
  cases i
  case no => exact ⟨finish .ordinary 1, ⟨by simp, leaves_finish (fun _ => by simp [ModesAfter, modeEpilogue]) _⟩, fun _ => rfl⟩
  case hs => exact ⟨raise .systemHalt, ⟨by simp [ownStatuses], by simp⟩, fun _ => rfl⟩
  case uu | ff =>
    refine ⟨_, ⟨?statuses, ?modes⟩, fun _ => rfl⟩
    case statuses => exact raisesOnly_bind (by simp) fun _ => raisesOnly_bind (by simp) (by simp)
    case modes => exact leaves_setMode (fun _ hm => by simp [ModesAfter, hm]) _
  all_goals
    refine ⟨_, ⟨?statuses, ?modes⟩, fun _ => rfl⟩
    case statuses =>
      repeat' with_reducible first | refine raisesOnly_bind ?_ fun _ => ?_ | refine raisesOnly_ite ?_ ?_
      all_goals simp [ownStatuses]
    case modes =>
      repeat' with_reducible first
        | refine leaves_bind fun _ => ?_
        | refine leaves_ite ?_ ?_
        | refine leaves_finish (fun _ => ?_) _
        | refine leaves_finishJump (fun _ => ?_) _
      all_goals simp [ModesAfter, modeEpilogue]

theorem guarded_ok {counts : Nat × Nat} {h : Handler Unit} {s t : State} (ht : guarded counts h s = .ok ((), t)) :
    h s = .ok ((), t) := by
  unfold guarded at ht
  split at ht
  · exact ht
  · obtain ⟨⟨⟩, s', hg, hh⟩ := handler_bind_ok_iff.1 ht
    obtain ⟨-, rfl⟩ := guardStack_ok hg
    exact hh

/-- A guard raises one of its two statuses, each with its ground (41_engine.md R230). -/
theorem guardStack_raise {p q : Nat} {s : State} {st : Status} (h : guardStack p q s = .error (.raise st)) :
    ∃ c, s.current? = some c ∧
      ((st = .dataStackUnderflow ∧ c.data.length < p) ∨ (st = .dataStackOverflow ∧ 32 < c.data.length + q)) := by
  rw [guardStack_apply] at h
  split at h
  next c hc =>
    refine ⟨c, hc, ?_⟩
    split at h
    · cases h
      exact .inl ⟨rfl, ‹_›⟩
    · split at h <;> cases h
      exact .inr ⟨rfl, ‹_›⟩
  next => cases h

theorem guarded_raise {counts : Nat × Nat} {h : Handler Unit} {s : State} {st : Status}
    (ht : guarded counts h s = .error (.raise st)) :
    guardStack counts.1 counts.2 s = .error (.raise st) ∨ h s = .error (.raise st) := by
  unfold guarded at ht
  split at ht
  · exact .inr ht
  · rcases handler_bind_error_iff.1 ht with hg | ⟨⟨⟩, s', hg, hh⟩
    · exact .inl hg
    · obtain ⟨-, rfl⟩ := guardStack_ok hg
      exact .inr hh

/-- What an instruction that answers a next state did: it completed, leaving the status output alone and its modes behind, or it left the
state as it was, with one of its own statuses or a status of its guard on the output. -/
theorem exec_next_cases {i : Instr} {s t : State} (h : exec i s = .next t) :
    (t.status = s.status ∧ ∀ d, t.current? = some d → ModesAfter i d) ∨
    (∃ st ∈ ownStatuses i, t = s.setStatus st) ∨
    (∃ c, s.current? = some c ∧ c.data.length < (guardCounts i).1 ∧ t = s.setStatus .dataStackUnderflow) ∨
    (∃ c, s.current? = some c ∧ 32 < c.data.length + (guardCounts i).2 ∧ t = s.setStatus .dataStackOverflow) := by
  obtain ⟨body, hbody, hexec⟩ := exec_eq_guarded i
  rcases transact_next_iff.1 ((hexec s).symm.trans h) with hok | ⟨st, hraise, rfl⟩
  · have hrun := guarded_ok hok
    exact .inl ⟨hbody.statuses.output _ _ _ hrun, hbody.modes _ _ _ hrun⟩
  · rcases guarded_raise hraise with hguard | hown
    · obtain ⟨c, hc, ⟨rfl, hlt⟩ | ⟨rfl, hlt⟩⟩ := guardStack_raise hguard
      · exact .inr (.inr (.inl ⟨c, hc, hlt, rfl⟩))
      · exact .inr (.inr (.inr ⟨c, hc, hlt, rfl⟩))
    · exact .inr (.inl ⟨st, hbody.statuses.raised _ _ hown, rfl⟩)

/-! ### The statements -/

/-- None and the guard's statuses are nobody's own (60_exceptions.md R470). -/
theorem ne_of_mem_ownStatuses {i : Instr} {st : Status} (h : st ∈ ownStatuses i) :
    st ≠ .none ∧ st ≠ .dataStackUnderflow ∧ st ≠ .dataStackOverflow := by
  cases i <;> simp [ownStatuses] at h <;> simp [h]

/-- Settles O13: only a completing instruction leaves another state, and it leaves the status output at None. -/
theorem raisedStatusDiscardsEveryWrite : Obligations.RaisedStatusDiscardsEveryWrite := by
  intro i s t hrun h hst
  rcases exec_next_cases h with ⟨hsame, -⟩ | ⟨st, -, rfl⟩ | ⟨c, -, -, rfl⟩ | ⟨c, -, -, rfl⟩
  · exact absurd (hsame.trans hrun) hst
  · rfl
  · rfl
  · rfl

theorem trapsByGuard_guardCounts {i : Instr} {s : State} {c : CoreState} (hc : s.current? = some c)
    (hcounts : guardCounts i ≠ (0, 0)) :
    TrapsByGuard i (guardCounts i).1 (guardCounts i).2 s c := by
  obtain ⟨body, -, hexec⟩ := exec_eq_guarded i
  rw [TrapsByGuard, hexec, guarded, if_neg hcounts]
  exact transact_guardStack_traps hc

/-- Settles O15: the guard comes before everything else, and the rest of an instruction raises neither of its statuses. -/
theorem guardComesFirst : Obligations.GuardComesFirst := by
  refine fun i s c hc => ⟨trapsByGuard_guardCounts hc, fun hrun hp hq t h => ?_⟩
  rcases exec_next_cases h with ⟨hsame, -⟩ | ⟨st, hown, rfl⟩ | ⟨d, hd, hlt, -⟩ | ⟨d, hd, hlt, -⟩
  · simp [hsame, hrun]
  · exact (ne_of_mem_ownStatuses hown).2
  · cases hc.symm.trans hd
    omega
  · cases hc.symm.trans hd
    omega

/-- Settles O21: an instruction that leaves the status output at None has completed. -/
theorem modesDecay : Obligations.ModesDecay := by
  intro i s t d _ h hst hd
  rcases exec_next_cases h with ⟨-, hmodes⟩ | ⟨st, hown, rfl⟩ | ⟨c, -, -, rfl⟩ | ⟨c, -, -, rfl⟩
  · exact hmodes d hd
  · exact absurd hst (ne_of_mem_ownStatuses hown).1
  · cases hst
  · cases hst

end Sys2Proof.Machine
end

section
/-! SUPPORT. The shapes of 42_literal_memory.md: a literal, a load and a store with its width, each run to its next state on a core that meets
its guard. -/

namespace Sys2Proof.Machine

/-! ### The values -/

/-- The eight bytes that the decoder is handed, one by one. -/
theorem Memory.readRange_eight (m : Memory) (a : Nat) :
    m.readRange a 8 = [m.byteAt a, m.byteAt (a + 1), m.byteAt (a + 2), m.byteAt (a + 3), m.byteAt (a + 4), m.byteAt (a + 5),
      m.byteAt (a + 6), m.byteAt (a + 7)] := rfl

/-- A word is read little-endian (20_memory.md R86). -/
theorem Memory.readCell_word_toNat (m : Memory) (a : Nat) :
    (m.readCell a .word).toNat = (m.byteAt a).toNat + 2 ^ 8 * (m.byteAt (a + 1)).toNat + 2 ^ 16 * (m.byteAt (a + 2)).toNat +
      2 ^ 24 * (m.byteAt (a + 3)).toNat := ofBytes_toNat ..

theorem Memory.readCell_half_toNat (m : Memory) (a : Nat) :
    (m.readCell a .half).toNat = (m.byteAt a).toNat + 2 ^ 8 * (m.byteAt (a + 1)).toNat := ofBytes_toNat ..

theorem Memory.readCell_byte_toNat (m : Memory) (a : Nat) : (m.readCell a .byte).toNat = (m.byteAt a).toNat := ofBytes_toNat ..

/-! ### The instructions' shapes -/

/-- What LW, LH and LB do with the immediate `len` bytes long that stands `offset` bytes after their opcode (R261 to R263). -/
def pushLiteral (offset len : Nat) (v : Cell) : Handler Unit := do
  guardStack 0 1
  let v ← immediate offset len v
  push v
  finish .ordinary (offset + len)

/-- What FW, FH and FB do with their width (R264 to R266). -/
def loadCell (w : Width) : Handler Unit := do
  guardStack 1 1
  let a ← pop
  let v ← memRead (toU32 a) w
  push v
  finish .ordinary 1

/-- What SW, SH and SB do with their width (R267 to R269). -/
def storeCell (w : Width) : Handler Unit := do
  guardStack 2 0
  let a ← pop
  let v ← pop
  memWrite (toU32 a) w v
  finish .ordinary 1

theorem exec_lw (imm : BitVec 32) (s : State) : exec (.lw imm) s = transact (pushLiteral 4 4 imm) s := rfl
theorem exec_lh (imm : BitVec 16) (s : State) : exec (.lh imm) s = transact (pushLiteral 1 2 (imm.setWidth 32)) s := rfl
theorem exec_lb (imm : BitVec 8) (s : State) : exec (.lb imm) s = transact (pushLiteral 1 1 (imm.setWidth 32)) s := rfl
theorem exec_fw (s : State) : exec .fw s = transact (loadCell .word) s := rfl
theorem exec_fh (s : State) : exec .fh s = transact (loadCell .half) s := rfl
theorem exec_fb (s : State) : exec .fb s = transact (loadCell .byte) s := rfl
theorem exec_sw (s : State) : exec .sw s = transact (storeCell .word) s := rfl
theorem exec_sh (s : State) : exec .sh s = transact (storeCell .half) s := rfl
theorem exec_sb (s : State) : exec .sb s = transact (storeCell .byte) s := rfl

section
variable {β : Type} {s : State} {c : CoreState} {a v : Cell} {w : Width} {rest : List Cell}

/-! ### Statements that check a range -/

theorem immediate_bind (hc : s.current? = some c) {offset len : Nat} (hr : c.ip.toNat + (offset + len) ≤ 65535) (f : Cell → Handler β) :
    (immediate offset len v >>= f) s = f v s :=
  handler_bind_of_ok (by rw [immediate_apply, hc]; exact if_pos (by omega))

theorem immediate_bind_raises (hc : s.current? = some c) {offset len : Nat} (hr : ¬ c.ip.toNat + (offset + len) ≤ 65535)
    (f : Cell → Handler β) : (immediate offset len v >>= f) s = .error (.raise .illegalMemoryAddress) :=
  handler_bind_of_error (by rw [immediate_apply, hc]; exact if_neg (by omega))

theorem memRead_bind {addr : Nat} (hr : addr + w.bytes ≤ 65535) (f : Cell → Handler β) :
    (memRead addr w >>= f) s = f (s.memory.readCell addr w) s := handler_bind_of_ok ((memRead_apply ..).trans (if_pos hr))

theorem memRead_bind_raises {addr : Nat} (hr : ¬ addr + w.bytes ≤ 65535) (f : Cell → Handler β) :
    (memRead addr w >>= f) s = .error (.raise .illegalMemoryAddress) := handler_bind_of_error ((memRead_apply ..).trans (if_neg hr))

theorem memWrite_bind {addr : Nat} (hr : addr + w.bytes ≤ 65535) (f : Unit → Handler β) :
    (memWrite addr w v >>= f) s = f () (s.setMemory (s.memory.writeCell addr w v)) :=
  handler_bind_of_ok ((memWrite_apply ..).trans (if_pos hr))

theorem memWrite_bind_raises {addr : Nat} (hr : ¬ addr + w.bytes ≤ 65535) (f : Unit → Handler β) :
    (memWrite addr w v >>= f) s = .error (.raise .illegalMemoryAddress) := handler_bind_of_error ((memWrite_apply ..).trans (if_neg hr))

/-! ### The shapes on a core that meets the guard -/

theorem push_bind (hc : s.current? = some c) (hroom : c.data.length < 32) (f : Unit → Handler β) :
    (push v >>= f) s = f () (s.setCurrent { c with data := v :: c.data }) :=
  handler_bind_of_ok (by rw [push_apply, hc]; exact if_pos hroom)

/-- A literal is pushed where its bytes lie inside memory. -/
theorem transact_pushLiteral (hc : s.current? = some c) (hlen : c.data.length ≤ 31) (offset len : Nat) (v : Cell) :
    transact (pushLiteral offset len v) s = if c.ip.toNat + (offset + len) ≤ 65535 then
        .next (s.setCurrent { c with data := v :: c.data, ip := c.ip + BitVec.ofNat 32 (offset + len), opMode := .signed })
      else .next (s.setStatus .illegalMemoryAddress) := by
  rw [pushLiteral, transact_guardStack_of_le hc (Nat.zero_le _) (by omega)]
  split
  next hr =>
    apply transact_of_ok
    rw [immediate_bind hc hr, push_bind hc (by omega), finish_ordinary_withData hc]
  next hr => exact transact_of_raise (immediate_bind_raises hc hr _)

/-- A load replaces the address by the bytes there, where they lie inside memory. -/
theorem transact_loadCell (hc : s.current? = some c) (hd : c.data = a :: rest) (hlen : c.data.length ≤ 31) (w : Width) :
    transact (loadCell w) s = if a.toNat + w.bytes ≤ 65535 then
        .next (s.setCurrent { c with data := s.memory.readCell a.toNat w :: rest, ip := c.ip + 1, opMode := .signed })
      else .next (s.setStatus .illegalMemoryAddress) := by
  have hcount : c.data.length = rest.length + 1 := by rw [hd]; rfl
  rw [loadCell, transact_guardStack_of_le hc (by omega) (by omega)]
  split
  next hr =>
    apply transact_of_ok
    rw [pop_bind hc hd, memRead_bind hr, push_bind_withData hc (by omega), finish_ordinary_withData hc]
    rfl
  next hr => exact transact_of_raise ((pop_bind hc hd _).trans (memRead_bind_raises hr _))

/-- A store takes the address and the value off the stack and writes the low bytes, where they lie inside memory. -/
theorem transact_storeCell (hc : s.current? = some c) (hd : c.data = a :: v :: rest) (hlen : c.data.length ≤ 32) (w : Width) :
    transact (storeCell w) s = if a.toNat + w.bytes ≤ 65535 then
        .next ((s.setCurrent { c with data := rest, ip := c.ip + 1, opMode := .signed }).setMemory (s.memory.writeCell a.toNat w v))
      else .next (s.setStatus .illegalMemoryAddress) := by
  have hcount : c.data.length = rest.length + 2 := by rw [hd]; rfl
  rw [storeCell, transact_guardStack_of_le hc (by omega) (by omega)]
  split
  next hr =>
    have hwritten : (s.setMemory (s.memory.writeCell a.toNat w v)).current? = some c := hc
    apply transact_of_ok
    rw [pop_bind hc hd, pop_bind_withData hc, memWrite_bind hr, State.setCurrent_memory, ← State.setMemory_setCurrent,
      finish_ordinary_withData hwritten]
    rfl
  next hr =>
    apply transact_of_raise
    rw [pop_bind hc hd, pop_bind_withData hc, memWrite_bind_raises hr]

/-! ### The mode setters -/

/-- A handler that changes its core and then ends leaves the changed core with its IP advanced. -/
theorem transact_changeCore_finish (hc : s.current? = some c) (change : CoreState → CoreState) (op : OpcodeClass) (len : Nat) :
    transact (do
        let c ← getCore
        setCurrentCore (change c)
        finish op len) s =
      .next (s.setCurrent (modeEpilogue op { change c with ip := (change c).ip + BitVec.ofNat 32 len })) := by
  have hget : getCore s = .ok (c, s) := by rw [getCore_apply, hc]
  apply transact_of_ok
  rw [handler_bind_of_ok hget, handler_bind_of_ok (setCurrentCore_apply _ s), finish_apply, State.current_setCurrent_of_some hc]
  exact congrArg _ (congrArg _ (State.setCurrent_setCurrent ..))

end

end Sys2Proof.Machine
end

section
/-! PROOF of O23, O24, O25 and O59: each instruction of 42_literal_memory.md is its shape with its width, and the mode setters change one
field of their core. -/

namespace Sys2Proof.Machine

/-- Settles O23: the decoder takes the immediate from the eight bytes at IP, and the shape of a literal pushes it zero-extended. -/
theorem literalsPushTheirImmediate : Obligations.LiteralsPushTheirImmediate := by
  intro s c w h b hc
  rw [Memory.readRange_eight]
  refine ⟨fun hop => ?lwDecodes, fun hop => ?lhDecodes, fun hop => ?lbDecodes, trapsByGuard_guardCounts hc nofun,
    trapsByGuard_guardCounts hc nofun, trapsByGuard_guardCounts hc nofun, fun hlen => ⟨?lw, ?lh, ?lb⟩⟩
  case lwDecodes => rw [hop]; exact ⟨_, _, decode_lw .., ofBytes_toNat ..⟩
  case lhDecodes => rw [hop]; exact ⟨_, _, decode_lh .., append_toNat ..⟩
  case lbDecodes => rw [hop]; exact ⟨_, decode_lb ..⟩
  case lw => rw [exec_lw]; exact transact_pushLiteral hc hlen 4 4 w
  case lh => rw [exec_lh, BitVec.ofNat_toNat]; exact transact_pushLiteral hc hlen 1 2 _
  case lb => rw [exec_lb, BitVec.ofNat_toNat]; exact transact_pushLiteral hc hlen 1 1 _

/-- Settles O24: the bytes at the address, as a number, are the cell that the shape of a load pushes. -/
theorem loadsPushTheBytesAtTheAddress : Obligations.LoadsPushTheBytesAtTheAddress := by
  refine ⟨rfl, rfl, rfl, fun s c hc => ⟨trapsByGuard_guardCounts hc (by decide), trapsByGuard_guardCounts hc (by decide),
    trapsByGuard_guardCounts hc (by decide), fun a rest hd hlen => ⟨fun v hv => ?fw, fun v hv => ?fh, fun v hv => ?fb⟩⟩⟩
  case fw =>
    obtain rfl : v = s.memory.readCell a.toNat .word := BitVec.eq_of_toNat_eq (hv.trans (Memory.readCell_word_toNat ..).symm)
    exact (exec_fw s).trans (transact_loadCell hc hd hlen .word)
  case fh =>
    obtain rfl : v = s.memory.readCell a.toNat .half := BitVec.eq_of_toNat_eq (hv.trans (Memory.readCell_half_toNat ..).symm)
    exact (exec_fh s).trans (transact_loadCell hc hd hlen .half)
  case fb =>
    obtain rfl : v = s.memory.readCell a.toNat .byte := BitVec.eq_of_toNat_eq (hv.trans (Memory.readCell_byte_toNat ..).symm)
    exact (exec_fb s).trans (transact_loadCell hc hd hlen .byte)

/-- Settles O25: the shape of a store, whose memory is seen byte by byte. -/
theorem storesWriteTheLowBytes : Obligations.StoresWriteTheLowBytes := by
  refine ⟨rfl, rfl, rfl, fun s c hs hc => ⟨trapsByGuard_guardCounts hc (by decide), trapsByGuard_guardCounts hc (by decide),
    trapsByGuard_guardCounts hc (by decide), fun a v rest hd hlen i n hi => ?_⟩⟩
  obtain ⟨w, rfl, hexec⟩ : ∃ w : Width, n = w.bytes ∧ exec i s = transact (storeCell w) s := by
    rcases hi with ⟨rfl, rfl⟩ | ⟨rfl, rfl⟩ | ⟨rfl, rfl⟩
    · exact ⟨.word, rfl, exec_sw s⟩
    · exact ⟨.half, rfl, exec_sh s⟩
    · exact ⟨.byte, rfl, exec_sb s⟩
  rw [hexec, transact_storeCell hc hd hlen]
  exact ⟨fun hr => ⟨_, if_pos hr, Memory.byteAt_writeCell hs hr v⟩, fun hr => if_neg (Nat.not_le.2 hr)⟩

/-- Settles O59: NO only ends, and RL, UU and FF change one mode before they end, which the end of UU and FF keeps. -/
theorem noAndModeSetters : Obligations.NoAndModeSetters :=
  ⟨rfl, rfl, rfl, rfl, fun _ _ hc => ⟨exec_no_of_core hc,
    transact_changeCore_finish hc (fun c => { c with addrMode := .relative }) .ordinary 1,
    transact_changeCore_finish hc (fun c => { c with opMode := .unsigned }) .modeSetter 1,
    transact_changeCore_finish hc (fun c => { c with opMode := .float }) .modeSetter 1⟩⟩

end Sys2Proof.Machine
end

section
/-! SUPPORT. The address stack's operations and the end of an opcode on a core that meets their condition, and each instruction of
43_stack.md run to its outcome after its guard. -/

namespace Sys2Proof.Machine

section
variable {β : Type} {s : State} {c : CoreState} {v : Cell} {rest : List Cell}

/-! ### The address stack -/

theorem apush_bind (hc : s.current? = some c) (hroom : c.addrs.length < 128) (f : Unit → Handler β) :
    (apush v >>= f) s = f () (s.setCurrent { c with addrs := v :: c.addrs }) :=
  handler_bind_of_ok (by rw [apush_apply, hc]; exact if_pos hroom)

theorem apush_bind_raises (hc : s.current? = some c) (hfull : ¬ c.addrs.length < 128) (f : Unit → Handler β) :
    (apush v >>= f) s = .error (.raise .addressStackOverflow) :=
  handler_bind_of_error (by rw [apush_apply, hc]; exact if_neg hfull)

theorem apop_bind (hc : s.current? = some c) (ha : c.addrs = v :: rest) (f : Cell → Handler β) :
    (apop >>= f) s = f v (s.setCurrent { c with addrs := rest }) :=
  handler_bind_of_ok (by rw [apop_apply, hc]; simp only [ha])

theorem apop_bind_raises (hc : s.current? = some c) (hempty : c.addrs = []) (f : Cell → Handler β) :
    (apop >>= f) s = .error (.raise .addressStackUnderflow) :=
  handler_bind_of_error (by rw [apop_apply, hc]; simp only [hempty])

/-- The end of an opcode that sets no mode, on the core as the handler left it (41_engine.md R236, R238, R239). -/
theorem finish_ordinary_setCurrent (hc : s.current? = some c) (d : CoreState) (len : Nat) :
    finish .ordinary len (s.setCurrent d) =
      .ok ((), s.setCurrent { d with ip := d.ip + BitVec.ofNat 32 len, opMode := .signed }) := by
  rw [finish_apply, State.current_setCurrent_of_some hc]
  exact congrArg _ (congrArg _ (State.setCurrent_setCurrent ..))

/-! ### The instructions on a core that meets the guard -/

theorem exec_du (s : State) : exec .du s = execDu s := rfl
theorem exec_dr (s : State) : exec .dr s = execDr s := rfl
theorem exec_sp (s : State) : exec .sp s = execSp s := rfl
theorem exec_pu (s : State) : exec .pu s = execPu s := rfl
theorem exec_po (s : State) : exec .po s = execPo s := rfl

theorem exec_du_of_data (hc : s.current? = some c) (hd : c.data = v :: rest) (hlen : c.data.length ≤ 30) :
    exec .du s = .next (s.setCurrent { c with data := v :: v :: rest, ip := c.ip + 1, opMode := .signed }) := by
  have hcount : c.data.length = rest.length + 1 := by rw [hd]; rfl
  rw [exec_du, execDu, transact_guardStack_of_le hc (by omega) (by omega)]
  apply transact_of_ok
  rw [pop_bind hc hd, push_bind_withData hc (by omega), push_bind_withData (rest := v :: rest) hc (by simp; omega),
    finish_ordinary_withData hc]
  rfl

theorem exec_dr_of_data (hc : s.current? = some c) (hd : c.data = v :: rest) (hlen : c.data.length ≤ 32) :
    exec .dr s = .next (s.setCurrent { c with data := rest, ip := c.ip + 1, opMode := .signed }) := by
  have hcount : c.data.length = rest.length + 1 := by rw [hd]; rfl
  rw [exec_dr, execDr, transact_guardStack_of_le hc (by omega) hlen]
  apply transact_of_ok
  rw [pop_bind hc hd, finish_ordinary_withData hc]
  rfl

theorem exec_sp_of_data {x y : Cell} (hc : s.current? = some c) (hd : c.data = y :: x :: rest) (hlen : c.data.length ≤ 30) :
    exec .sp s = .next (s.setCurrent { c with data := x :: y :: rest, ip := c.ip + 1, opMode := .signed }) := by
  have hcount : c.data.length = rest.length + 2 := by rw [hd]; rfl
  rw [exec_sp, execSp, transact_guardStack_of_le hc (by omega) (by omega)]
  apply transact_of_ok
  rw [pop_bind hc hd, pop_bind_withData hc, push_bind_withData hc (by omega),
    push_bind_withData (rest := y :: rest) hc (by simp; omega), finish_ordinary_withData hc]
  rfl

/-- PU meets the full address stack after its pop, which the trap discards. -/
theorem exec_pu_of_data (hc : s.current? = some c) (hd : c.data = v :: rest) (hlen : c.data.length ≤ 32) :
    exec .pu s = if c.addrs.length < 128 then
        .next (s.setCurrent { c with data := rest, addrs := v :: c.addrs, ip := c.ip + 1, opMode := .signed })
      else .next (s.setStatus .addressStackOverflow) := by
  have hcount : c.data.length = rest.length + 1 := by rw [hd]; rfl
  have hpopped := State.current_setCurrent_of_some hc { c with data := rest }
  rw [exec_pu, execPu, transact_guardStack_of_le hc (by omega) hlen]
  split
  next hroom =>
    apply transact_of_ok
    rw [pop_bind hc hd, apush_bind hpopped hroom, State.setCurrent_setCurrent, finish_ordinary_setCurrent hc]
    rfl
  next hfull => exact transact_of_raise ((pop_bind hc hd _).trans (apush_bind_raises hpopped hfull _))

theorem exec_po_of_addrs (hc : s.current? = some c) (ha : c.addrs = v :: rest) (hlen : c.data.length ≤ 31) :
    exec .po s = .next (s.setCurrent { c with data := v :: c.data, addrs := rest, ip := c.ip + 1, opMode := .signed }) := by
  have hpopped := State.current_setCurrent_of_some hc { c with addrs := rest }
  rw [exec_po, execPo, transact_guardStack_of_le hc (Nat.zero_le _) (by omega)]
  apply transact_of_ok
  rw [apop_bind hc ha, push_bind hpopped (Nat.lt_succ_of_le hlen), State.setCurrent_setCurrent, finish_ordinary_setCurrent hc]
  rfl

theorem exec_po_of_addrs_nil (hc : s.current? = some c) (hempty : c.addrs = []) (hlen : c.data.length ≤ 31) :
    exec .po s = .next (s.setStatus .addressStackUnderflow) := by
  rw [exec_po, execPo, transact_guardStack_of_le hc (Nat.zero_le _) (by omega)]
  exact transact_of_raise (apop_bind_raises hc hempty _)

end

end Sys2Proof.Machine
end

section
/-! PROOF of O28 and O29: the guard of each instruction of 43_stack.md, and what the instruction does once its guard holds. -/

namespace Sys2Proof.Machine

/-- Settles O28: DU, DR and SP each pop what they rearrange and push it back, in the room that their guard has found. -/
theorem stackRearrangement : Obligations.StackRearrangement :=
  ⟨rfl, rfl, rfl, fun _ _ hc => ⟨trapsByGuard_guardCounts hc (by decide), trapsByGuard_guardCounts hc (by decide),
    trapsByGuard_guardCounts hc (by decide), fun _ _ hd hlen => exec_du_of_data hc hd hlen,
    fun _ _ hd hlen => exec_dr_of_data hc hd hlen, fun _ _ _ hd hlen => exec_sp_of_data hc hd hlen⟩⟩

/-- Settles O29: PU and PO find room and cells on the data stack by their guard, and a full or empty address stack after it. -/
theorem addressStackMoves : Obligations.AddressStackMoves :=
  ⟨rfl, rfl, fun _ _ hc => ⟨trapsByGuard_guardCounts hc (by decide), trapsByGuard_guardCounts hc (by decide),
    fun _ _ hd hlen => exec_pu_of_data hc hd hlen, fun _ _ ha hlen => exec_po_of_addrs hc ha hlen,
    fun hempty hlen => exec_po_of_addrs_nil hc hempty hlen⟩⟩

end Sys2Proof.Machine
end

section
/-! SUPPORT. EQ and NE, which do not read the mode, and the divisions that raise DivisionByZero (44_compare_arith.md R310, R311, R317,
R318). -/

namespace Sys2Proof.Machine

/-- What EQ and NE do with the function of the two cells that each of them names (R310, R311). -/
def modelessOperation (op : Cell → Cell → Cell) : Handler Unit := do
  guardStack 2 1
  let r ← pop
  let l ← pop
  push (op l r)
  finish .ordinary 1

theorem exec_eq (s : State) : exec .eq s = transact (modelessOperation equal) s := rfl
theorem exec_ne (s : State) : exec .ne s = transact (modelessOperation notEqual) s := rfl

/-- The divisor is zero in the mode exactly where the pattern is 0, or -0.0 in FLOAT mode (40_cell_alu.md R179). -/
theorem zeroDivisor_iff (r : Cell) (m : OpMode) : zeroDivisor r m = true ↔ r = 0#32 ∨ (m = .float ∧ r = 0x80000000#32) := by
  by_cases hm : m = .float
  · subst hm
    exact (isFloatZero_iff r).trans (by simp)
  · simp [zeroDivisor_integer r hm, hm]

theorem divideRemainder_of_zeroDivisor {r : Cell} {m : OpMode} (l : Cell) (hr : zeroDivisor r m = true) :
    divideRemainder l r m = .error .divisionByZero := if_pos hr

section
variable {s : State} {c : CoreState} {r l : Cell} {rest : List Cell}

/-- An operation on the raw bits replaces its operands by its result, whatever the mode. -/
theorem transact_modelessOperation (hc : s.current? = some c) (hd : c.data = r :: l :: rest) (hlen : c.data.length ≤ 31)
    (op : Cell → Cell → Cell) :
    transact (modelessOperation op) s =
      .next (s.setCurrent { c with data := op l r :: rest, ip := c.ip + 1, opMode := .signed }) := by
  have hcount : c.data.length = rest.length + 2 := by rw [hd]; rfl
  rw [modelessOperation, transact_guardStack_of_le hc (by omega) (by omega)]
  apply transact_of_ok
  rw [pop_bind hc hd, pop_bind_withData hc, push_bind_withData hc (by omega), finish_ordinary_withData hc]
  rfl

/-- A division without a value raises its status. -/
theorem pushDivision_raises {division : OpMode → Except Status (Cell × Cell)} {st : Status} (hc : s.current? = some c)
    (hdiv : division c.opMode = .error st) :
    pushDivision division (s.setCurrent { c with data := rest }) = .error (.raise st) := by
  rw [pushDivision, getCore_bind_withData hc]
  exact handler_bind_of_error (by rw [orRaise_apply, hdiv])

theorem exec_dm_of_error {st : Status} (hc : s.current? = some c) (hd : c.data = r :: l :: rest) (hlen : c.data.length ≤ 30)
    (hdiv : divideRemainder l r c.opMode = .error st) : exec .dm s = .next (s.setStatus st) := by
  have hcount : c.data.length = rest.length + 2 := by rw [hd]; rfl
  rw [exec_dm, transact_guardStack_of_le hc (by omega) (by omega)]
  apply transact_of_raise
  rw [pop_bind hc hd, pop_bind_withData hc, pushDivision_raises hc hdiv]

theorem exec_md_of_error {m : Cell} {st : Status} (hc : s.current? = some c) (hd : c.data = r :: m :: l :: rest)
    (hlen : c.data.length ≤ 30) (hdiv : multiplyDivideRemainder l m r c.opMode = .error st) :
    exec .md s = .next (s.setStatus st) := by
  have hcount : c.data.length = rest.length + 3 := by rw [hd]; rfl
  rw [exec_md, transact_guardStack_of_le hc (by omega) (by omega)]
  apply transact_of_raise
  rw [pop_bind hc hd, pop_bind_withData hc, pop_bind_withData hc, pushDivision_raises hc hdiv]

end

end Sys2Proof.Machine
end

section
/-! SUPPORT. The order of FLOAT mode (40_cell_alu.md R177): values are in the order of their patterns, an infinity with its own bits. -/

namespace Sys2Proof.Machine

/-- What the pattern of an infinity is made of. -/
theorem toF32_infinite {c : Cell} {neg : Bool} (h : toF32 c = .infinite neg) : c.toNat % 2 ^ 31 = infinityBits ∧ neg = c.msb := by
  rw [toF32_eq] at h
  split at h
  next => cases h
  next =>
    split at h
    next hbits =>
      cases h
      exact ⟨hbits, rfl⟩
    next => cases h

theorem isNaN_of_toF32_infinite {c : Cell} {neg : Bool} (h : toF32 c = .infinite neg) : isNaN c = false := by simp [isNaN, h]

theorem isNaN_of_toF32_finite {c : Cell} {neg : Bool} {mag : Nat} (h : toF32 c = .finite neg mag) : isNaN c = false := by
  simp [isNaN, h]

theorem patternOrder_eq_signedMag (c : Cell) : patternOrder c = signedMag c.msb (c.toNat % 2 ^ 31) := rfl

/-- Signed magnitudes are in the order of their signed patterns. -/
theorem signedMag_magnitudeOf_lt_iff (a b : Bool) (x y : Nat) :
    signedMag a (magnitudeOf x) < signedMag b (magnitudeOf y) ↔ signedMag a x < signedMag b y := by
  have hxy : magnitudeOf x < magnitudeOf y ↔ x < y := magnitudeOf_strictMono.lt_iff_lt
  have hyx : magnitudeOf y < magnitudeOf x ↔ y < x := magnitudeOf_strictMono.lt_iff_lt
  have hx : 0 < magnitudeOf x ↔ 0 < x := magnitudeOf_strictMono.lt_iff_lt (a := 0)
  have hy : 0 < magnitudeOf y ↔ 0 < y := magnitudeOf_strictMono.lt_iff_lt (a := 0)
  cases a <;> cases b <;> simp only [signedMag, if_true, Bool.false_eq_true, if_false] <;> omega

/-- Of two unequal magnitudes the sign of the greater decides the order. -/
theorem signedMag_lt_iff_of_lt {m n : Nat} (a b : Bool) (h : m < n) : signedMag a m < signedMag b n ↔ b = false := by
  cases a <;> cases b <;> simp [signedMag] <;> omega

theorem signedMag_lt_iff_of_gt {m n : Nat} (a b : Bool) (h : n < m) : signedMag a m < signedMag b n ↔ a = true := by
  cases a <;> cases b <;> simp [signedMag] <;> omega

/-- Equal magnitudes that are not 0 are ordered by their signs. -/
theorem signedMag_lt_iff_of_pos {m : Nat} (a b : Bool) (h : 0 < m) : signedMag a m < signedMag b m ↔ a = true ∧ b = false := by
  cases a <;> cases b <;> simp [signedMag, h]

/-- The order of the values is the order of the patterns by sign and magnitude (R177). -/
theorem floatLess_toF32_iff (l r : Cell) :
    floatLess (toF32 l) (toF32 r) = true ↔ isNaN l = false ∧ isNaN r = false ∧ patternOrder l < patternOrder r := by
  rw [patternOrder_eq_signedMag, patternOrder_eq_signedMag]
  cases hl : toF32 l with
  | nan => simp [floatLess, isNaN, hl]
  | infinite a =>
    obtain ⟨hlbits, rfl⟩ := toF32_infinite hl
    cases hr : toF32 r with
    | nan => simp [floatLess, isNaN, hr]
    | infinite b =>
      obtain ⟨hrbits, rfl⟩ := toF32_infinite hr
      rw [hlbits, hrbits, signedMag_lt_iff_of_pos _ _ (by decide)]
      simp [floatLess, isNaN_of_toF32_infinite hl, isNaN_of_toF32_infinite hr]
    | finite b n =>
      obtain ⟨hrbits, rfl, -⟩ := toF32_finite hr
      rw [hlbits, signedMag_lt_iff_of_gt _ _ hrbits]
      simp [floatLess, isNaN_of_toF32_infinite hl, isNaN_of_toF32_finite hr]
  | finite a m =>
    obtain ⟨hlbits, rfl, rfl⟩ := toF32_finite hl
    cases hr : toF32 r with
    | nan => simp [floatLess, isNaN, hr]
    | infinite b =>
      obtain ⟨hrbits, rfl⟩ := toF32_infinite hr
      rw [hrbits, signedMag_lt_iff_of_lt _ _ hlbits]
      simp [floatLess, isNaN_of_toF32_finite hl, isNaN_of_toF32_infinite hr]
    | finite b n =>
      obtain ⟨-, rfl, rfl⟩ := toF32_finite hr
      rw [← signedMag_magnitudeOf_lt_iff]
      simp [floatLess, isNaN_of_toF32_finite hl, isNaN_of_toF32_finite hr]

theorem cellBool_of_iff {x : Bool} {p : Prop} [Decidable p] (h : x = true ↔ p) : cellBool x = if p then 0xFFFFFFFF#32 else 0#32 := by
  rw [← cellBool_decide, Bool.eq_iff_iff.2 (h.trans decide_eq_true_iff.symm)]

theorem lessThan_float (l r : Cell) : lessThan l r .float =
    if isNaN l = false ∧ isNaN r = false ∧ patternOrder l < patternOrder r then 0xFFFFFFFF#32 else 0#32 :=
  cellBool_of_iff (floatLess_toF32_iff l r)

/-- `l > r` is `r < l` (R177). -/
theorem greaterThan_float (l r : Cell) : greaterThan l r .float =
    if isNaN l = false ∧ isNaN r = false ∧ patternOrder l > patternOrder r then 0xFFFFFFFF#32 else 0#32 :=
  cellBool_of_iff ((floatLess_toF32_iff r l).trans and_left_comm)

end Sys2Proof.Machine
end

section
/-! SUPPORT. The remainder of FLOAT mode is exact (40_cell_alu.md R182): its magnitude is a multiple of the finer unit of the two
operands and no greater than either of them, so it fits a significand of 24 bits. -/

namespace Sys2Proof.Machine

/-! ### The magnitudes that a pattern stands for -/

/-- Every pattern stands for a significand of at most 24 bits times its unit. -/
theorem exists_significand (bits : Nat) : ∃ k q, q < 2 ^ 24 ∧ magnitudeOf bits = q * 2 ^ k := by
  obtain ⟨k, q, rfl, hnormal, hq⟩ : ∃ k q, bits = k * 2 ^ 23 + q ∧ (k = 0 ∨ 2 ^ 23 ≤ q) ∧ q < 2 ^ 24 :=
    ⟨bits / 2 ^ 23 - 1, bits - (bits / 2 ^ 23 - 1) * 2 ^ 23, by omega, by omega, by omega⟩
  exact ⟨k, q, hq, magnitudeOf_significand hnormal hq.le⟩

/-- A significand of at most 24 bits times a unit has a pattern: while it is short and its unit not the smallest, it is shifted left. -/
theorem exists_magnitudeOf_eq {q : Nat} (k : Nat) (hq : q < 2 ^ 24) : ∃ bits, magnitudeOf bits = q * 2 ^ k := by
  induction k generalizing q with
  | zero => exact ⟨0 * 2 ^ 23 + q, magnitudeOf_significand (.inl rfl) hq.le⟩
  | succ k ih =>
    by_cases hshort : q < 2 ^ 23
    · obtain ⟨bits, hbits⟩ := ih (q := q * 2) (by omega)
      exact ⟨bits, by rw [hbits, pow_succ']; ring⟩
    · exact ⟨_, magnitudeOf_significand (.inr (Nat.not_lt.1 hshort)) hq.le⟩

/-- A magnitude that is no greater than those of two patterns and that each common divisor of the two divides has a pattern. -/
theorem exists_magnitudeOf_eq_of_dvd {x y mag : Nat} (hx : mag ≤ magnitudeOf x) (hy : mag ≤ magnitudeOf y)
    (hdvd : ∀ d, d ∣ magnitudeOf x → d ∣ magnitudeOf y → d ∣ mag) : ∃ bits, magnitudeOf bits = mag := by
  obtain ⟨i, p, hp, hxe⟩ := exists_significand x
  obtain ⟨j, q, hq, hye⟩ := exists_significand y
  have hunit : 2 ^ min i j ∣ mag := by
    refine hdvd _ ?_ ?_
    · rw [hxe]; exact Dvd.dvd.mul_left (pow_dvd_pow 2 (min_le_left i j)) p
    · rw [hye]; exact Dvd.dvd.mul_left (pow_dvd_pow 2 (min_le_right i j)) q
  obtain ⟨t, rfl⟩ := hunit
  have hshort : t < 2 ^ 24 := by
    refine Nat.lt_of_mul_lt_mul_left (a := 2 ^ min i j) ?_
    rcases min_choice i j with h | h <;> rw [h] at hx hy ⊢
    · calc 2 ^ i * t ≤ p * 2 ^ i := hx.trans_eq hxe
        _ < 2 ^ i * 2 ^ 24 := by rw [Nat.mul_comm]; exact Nat.mul_lt_mul_of_pos_left hp (Nat.two_pow_pos i)
    · calc 2 ^ j * t ≤ q * 2 ^ j := hy.trans_eq hye
        _ < 2 ^ j * 2 ^ 24 := by rw [Nat.mul_comm]; exact Nat.mul_lt_mul_of_pos_left hq (Nat.two_pow_pos j)
  obtain ⟨bits, hbits⟩ := exists_magnitudeOf_eq (min i j) hshort
  exact ⟨bits, by rw [hbits, Nat.mul_comm]⟩

theorem toF32_signedCell (neg : Bool) {bits : Nat} (hfinite : bits < infinityBits) :
    toF32 (signedCell neg bits) = .finite neg (magnitudeOf bits) := by
  have hbits : bits < 2 ^ 31 := hfinite.trans (by decide)
  rw [toF32_eq, signedCell_toNat_mod neg hbits, signedCell_msb neg hbits, if_pos hfinite]

/-- A magnitude that a finite pattern stands for is rounded to itself. -/
theorem toF32_roundedCell_magnitudeOf (neg : Bool) {bits : Nat} (hfinite : bits < infinityBits) :
    toF32 (roundedCell neg (magnitudeOf bits) 1) = .finite neg (magnitudeOf bits) := by
  rw [roundedCell, roundBits_magnitudeOf hfinite, toF32_signedCell neg hfinite]

/-! ### The exact remainder -/

/-- The magnitude of the IEEE remainder of `m` by `n` units. -/
def remainderMag (m n : Nat) : Nat := ((m : Int) - (nearestQuotient m n * n : Nat)).natAbs

/-- The quotient is the floor with the remainder of the floor, or the next whole number with the rest up to `n`. -/
theorem nearestQuotient_cases (m : Nat) {n : Nat} (hn : n ≠ 0) :
    (nearestQuotient m n = m / n ∧ remainderMag m n = m % n ∧ (2 * (m % n) < n ∨ 2 * (m % n) = n ∧ m / n % 2 = 0)) ∨
    (nearestQuotient m n = m / n + 1 ∧ remainderMag m n = n - m % n ∧ (n < 2 * (m % n) ∨ 2 * (m % n) = n ∧ m / n % 2 = 1)) := by
  have hsplit : m / n * n + m % n = m := Nat.div_add_mod' m n
  have hmod : m % n < n := Nat.mod_lt m (Nat.pos_of_ne_zero hn)
  by_cases hup : 2 * (m % n) > n ∨ (2 * (m % n) = n ∧ m / n % 2 = 1)
  · have hk : nearestQuotient m n = m / n + 1 := if_pos hup
    refine .inr ⟨hk, ?_, hup⟩
    rw [remainderMag, hk, Nat.succ_mul]
    omega
  · have hk : nearestQuotient m n = m / n := if_neg hup
    refine .inl ⟨hk, ?_, by omega⟩
    rw [remainderMag, hk]
    omega

/-- No whole number is nearer than the quotient, and of two it is the even one. -/
theorem two_mul_remainderMag (m : Nat) {n : Nat} (hn : n ≠ 0) :
    2 * remainderMag m n ≤ n ∧ (2 * remainderMag m n = n → nearestQuotient m n % 2 = 0) := by
  have hmod : m % n < n := Nat.mod_lt m (Nat.pos_of_ne_zero hn)
  rcases nearestQuotient_cases m hn with ⟨hk, hmag, hnear⟩ | ⟨hk, hmag, hnear⟩ <;> omega

/-- The dividend itself is what the quotient 0 would leave. -/
theorem remainderMag_le_dividend (m : Nat) {n : Nat} (hn : n ≠ 0) : remainderMag m n ≤ m := by
  have hmod : m % n ≤ m := Nat.mod_le m n
  rcases nearestQuotient_cases m hn with ⟨hk, hmag, hnear⟩ | ⟨hk, hmag, hnear⟩ <;> omega

theorem dvd_remainderMag {d m n : Nat} (hm : d ∣ m) (hn : d ∣ n) : d ∣ remainderMag m n :=
  Int.natCast_dvd.1 (dvd_sub (Int.natCast_dvd_natCast.2 hm) (Int.natCast_dvd_natCast.2 (hn.mul_left _)))

/-- The remainder of two finite patterns has a finite pattern. -/
theorem exists_bits_remainderMag {x y : Nat} (hfinite : x < infinityBits) (hy : magnitudeOf y ≠ 0) :
    ∃ bits < infinityBits, magnitudeOf bits = remainderMag (magnitudeOf x) (magnitudeOf y) := by
  have hle : remainderMag (magnitudeOf x) (magnitudeOf y) ≤ magnitudeOf x := remainderMag_le_dividend _ hy
  have hhalf : 2 * remainderMag (magnitudeOf x) (magnitudeOf y) ≤ magnitudeOf y := (two_mul_remainderMag _ hy).1
  obtain ⟨bits, hbits⟩ := exists_magnitudeOf_eq_of_dvd hle (by omega) (fun d => dvd_remainderMag)
  refine ⟨bits, ?_, hbits⟩
  rw [← hbits, magnitudeOf_strictMono.le_iff_le] at hle
  exact hle.trans_lt hfinite

theorem floatRemOf_finite (nan l : Cell) (a b : Bool) (m : Nat) {n : Nat} (hn : n ≠ 0) :
    floatRemOf nan l (.finite a m) (.finite b n) =
      roundedCell (if nearestQuotient m n * n ≤ m then a else !a) (remainderMag m n) 1 := by
  have hsign : 0 ≤ (m : Int) - (nearestQuotient m n * n : Nat) ↔ nearestQuotient m n * n ≤ m := by omega
  rw [floatRemOf, if_neg hn]
  dsimp only
  rw [if_congr hsign rfl rfl, apply_ite (roundedCell · (remainderMag m n) 1)]
  rfl

/-- The remainder of finite operands is exact: rounding changes nothing (R182). -/
theorem toF32_floatRemainder_finite {l r : Cell} {a b : Bool} {m n : Nat} (hl : toF32 l = .finite a m) (hr : toF32 r = .finite b n)
    (hn : n ≠ 0) : toF32 (floatRemainder l r) =
      .finite (if nearestQuotient m n * n ≤ m then a else !a) (remainderMag m n) := by
  rw [floatRemainder, hl, hr, floatRemOf_finite _ _ _ _ _ hn]
  obtain ⟨hfinite, -, rfl⟩ := toF32_finite hl
  obtain ⟨-, -, rfl⟩ := toF32_finite hr
  obtain ⟨bits, hbits, hmag⟩ := exists_bits_remainderMag hfinite hn
  rw [← hmag]
  exact toF32_roundedCell_magnitudeOf _ hbits

/-- The quotient of finite operands is the rounding of the exact one (R182). -/
theorem floatDivide_finite {l r : Cell} {a b : Bool} {m n : Nat} (hl : toF32 l = .finite a m) (hr : toF32 r = .finite b n)
    (hn : n ≠ 0) : RoundedTo (a ^^ b) (m * 2 ^ 149) n (floatDivide l r) := by
  rw [floatDivide, hl, hr, floatQuotient, if_neg hn]
  exact roundedCell_roundedTo _ _ (Nat.pos_of_ne_zero hn)

/-- A cell that stands for a value other than zero is neither of the two zeros. -/
theorem ne_zeros_of_toF32_finite {r : Cell} {b : Bool} {n : Nat} (hr : toF32 r = .finite b n) (hn : n ≠ 0) :
    r ≠ 0#32 ∧ r ≠ 0x80000000#32 := by
  rw [← not_or, ← isFloatZero_iff]
  simp [isFloatZero, hr, hn]

end Sys2Proof.Machine
end

section
/-! PROOF of O30, O32, O37, O39 and O41: the comparisons of 44_compare_arith.md on raw bits and in FLOAT mode, and its divisions by zero and
in FLOAT mode. -/

namespace Sys2Proof.Machine

/-- Settles O30: the two functions compare the cells, and neither instruction reads the mode. -/
theorem equalityComparesBits : Obligations.EqualityComparesBits := by
  refine ⟨rfl, rfl, fun s c hc => ⟨trapsByGuard_guardCounts hc (by decide), trapsByGuard_guardCounts hc (by decide),
    fun r l rest hd hlen => ?_⟩⟩
  rw [exec_eq, exec_ne, ← equal_eq, ← notEqual_eq]
  exact ⟨transact_modelessOperation hc hd hlen _, transact_modelessOperation hc hd hlen _⟩

/-- Settles O32: LT and GT are binary operations, and in FLOAT mode their functions follow the order of the patterns. -/
theorem floatOrderComparisons : Obligations.FloatOrderComparisons := by
  intro s c r l rest hc hd hlen hmode
  rw [exec_lt, exec_gt, ← lessThan_float, ← greaterThan_float]
  exact ⟨transact_binaryOperation_float hc hd hmode hlen _, transact_binaryOperation_float hc hd hmode hlen _⟩

/-- Settles O37: the division has no value, whatever the dividend, so MD raises as DM does. -/
theorem zeroDivisorRaises : Obligations.ZeroDivisorRaises := by
  intro s c r x rest hc hd hlen hr
  have hzero : ∀ l, divideRemainder l r c.opMode = .error .divisionByZero :=
    fun l => divideRemainder_of_zeroDivisor l ((zeroDivisor_iff r c.opMode).2 hr)
  refine ⟨exec_dm_of_error hc hd hlen (hzero x), fun hrest => ?_⟩
  obtain ⟨l, rest, rfl⟩ := List.exists_cons_of_ne_nil hrest
  exact exec_md_of_error hc hd hlen (hzero _)

/-- Settles O39: the quotient is the rounding of the exact one, and the remainder by the nearest whole number has a pattern of its own. -/
theorem floatDivisionRoundsAndRemainderIsExact : Obligations.FloatDivisionRoundsAndRemainderIsExact := by
  intro s c r l rest a b m n hc hd hlen hmode hl hr hn
  obtain ⟨hpos, hneg⟩ := ne_zeros_of_toF32_finite hr hn
  obtain ⟨hhalf, htie⟩ := two_mul_remainderMag m hn
  exact ⟨_, _, nearestQuotient m n, _, remainderMag m n, exec_dm_float hc hd hmode hlen hpos hneg, floatDivide_finite hl hr hn,
    toF32_floatRemainder_finite hl hr hn, rfl, hhalf, htie, rfl⟩

/-- Settles O41: the dividend of MD is the cell that MU pushes, and DM divides it where MD does. -/
theorem floatMultiplyDivide : Obligations.FloatMultiplyDivide := by
  intro s c r m l rest hc hd hlen hmode hpos hneg
  have hcount : c.data.length = rest.length + 3 := by rw [hd]; rfl
  have hmu := exec_mu_float (State.current_setCurrent_of_some hc { c with data := m :: l :: rest }) rfl hmode (by simp; omega)
  have hdm := exec_dm_float (State.current_setCurrent_of_some hc { c with data := r :: floatMultiply l m :: rest }) rfl hmode
    (by simp; omega) hpos hneg
  rw [State.setCurrent_setCurrent] at hmu hdm
  refine ⟨_, _, _, hmu, hdm, exec_md_of_ok hc hd hlen ?_⟩
  rw [hmode, multiplyDivideRemainder]
  exact divideRemainder_float _ hpos hneg

end Sys2Proof.Machine
end

section
/-! SUPPORT. The shapes of 45_bitwise_pack.md: SL and SR with the shift that each of them names, NT, PA and UN, each run to its outcome on a
core that meets its guard. AN, OR and XO have the shape of EQ and NE. -/

namespace Sys2Proof.Machine

/-! ### The values -/

/-- A shift has no value in FLOAT mode (40_cell_alu.md R186, R187). -/
theorem shiftLeft_float (l r : Cell) : shiftLeft l r .float = .error .invalidFloatOperation := rfl
theorem shiftRight_float (l r : Cell) : shiftRight l r .float = .error .invalidFloatOperation := rfl

theorem unpackByte_eq_ofNat (v : Cell) (i : Nat) : unpackByte v i = BitVec.ofNat 32 (v.toNat / 2 ^ (8 * i) % 256) := by
  rw [← unpackByte_toNat, BitVec.ofNat_toNat, BitVec.setWidth_eq]

theorem unpackByte_zero (v : Cell) : unpackByte v 0 = BitVec.ofNat 32 (v.toNat % 256) := by
  rw [unpackByte_eq_ofNat, Nat.mul_zero, Nat.pow_zero, Nat.div_one]

/-- Nothing of a cell lies above its byte 3. -/
theorem unpackByte_three (v : Cell) : unpackByte v 3 = BitVec.ofNat 32 (v.toNat / 2 ^ 24) := by
  have hv : v.toNat / 2 ^ 24 < 256 := Nat.div_lt_of_lt_mul v.isLt
  rw [unpackByte_eq_ofNat, Nat.mod_eq_of_lt hv]

/-! ### The instructions' shapes -/

/-- What SL and SR do with the shift of the arithmetic unit that each of them names (R344, R345). -/
def shiftOperation (shift : Cell → Cell → OpMode → Except Status Cell) : Handler Unit := do
  guardStack 2 1
  let r ← pop
  let l ← pop
  let c ← getCore
  let v ← orRaise (shift l r c.opMode)
  push v
  finish .ordinary 1

theorem exec_an (s : State) : exec .an s = transact (modelessOperation bitwiseAnd) s := rfl
theorem exec_or (s : State) : exec .or s = transact (modelessOperation bitwiseOr) s := rfl
theorem exec_xo (s : State) : exec .xo s = transact (modelessOperation bitwiseXor) s := rfl
theorem exec_nt (s : State) : exec .nt s = execNt s := rfl
theorem exec_sl (s : State) : exec .sl s = transact (shiftOperation shiftLeft) s := rfl
theorem exec_sr (s : State) : exec .sr s = transact (shiftOperation shiftRight) s := rfl
theorem exec_pa (s : State) : exec .pa s = execPa s := rfl
theorem exec_un (s : State) : exec .un s = execUn s := rfl

section
variable {s : State} {c : CoreState} {rest : List Cell}

/-! ### The shapes on a core that meets the guard -/

/-- A shift that has a value in the mode replaces its operands by it. -/
theorem transact_shiftOperation_of_ok {r l v : Cell} {shift : Cell → Cell → OpMode → Except Status Cell} (hc : s.current? = some c)
    (hd : c.data = r :: l :: rest) (hlen : c.data.length ≤ 31) (hshift : shift l r c.opMode = .ok v) :
    transact (shiftOperation shift) s = .next (s.setCurrent { c with data := v :: rest, ip := c.ip + 1, opMode := .signed }) := by
  have hcount : c.data.length = rest.length + 2 := by rw [hd]; rfl
  rw [shiftOperation, transact_guardStack_of_le hc (by omega) (by omega)]
  apply transact_of_ok
  rw [pop_bind hc hd, pop_bind_withData hc, getCore_bind_withData hc, orRaise_bind hshift, push_bind_withData hc (by omega),
    finish_ordinary_withData hc]
  rfl

/-- A shift without a value in the mode raises its status after both pops, which the trap discards. -/
theorem transact_shiftOperation_of_error {r l : Cell} {st : Status} {shift : Cell → Cell → OpMode → Except Status Cell}
    (hc : s.current? = some c) (hd : c.data = r :: l :: rest) (hlen : c.data.length ≤ 31) (hshift : shift l r c.opMode = .error st) :
    transact (shiftOperation shift) s = .next (s.setStatus st) := by
  have hcount : c.data.length = rest.length + 2 := by rw [hd]; rfl
  rw [shiftOperation, transact_guardStack_of_le hc (by omega) (by omega)]
  apply transact_of_raise
  rw [pop_bind hc hd, pop_bind_withData hc, getCore_bind_withData hc]
  exact handler_bind_of_error (by rw [orRaise_apply, hshift])

theorem exec_nt_of_data {v : Cell} (hc : s.current? = some c) (hd : c.data = v :: rest) (hlen : c.data.length ≤ 31) :
    exec .nt s = .next (s.setCurrent { c with data := bitwiseNot v :: rest, ip := c.ip + 1, opMode := .signed }) := by
  have hcount : c.data.length = rest.length + 1 := by rw [hd]; rfl
  rw [exec_nt, execNt, transact_guardStack_of_le hc (by omega) (by omega)]
  apply transact_of_ok
  rw [pop_bind hc hd, push_bind_withData hc (by omega), finish_ordinary_withData hc]
  rfl

theorem exec_pa_of_data {x4 x3 x2 x1 : Cell} (hc : s.current? = some c) (hd : c.data = x4 :: x3 :: x2 :: x1 :: rest)
    (hlen : c.data.length ≤ 31) :
    exec .pa s = .next (s.setCurrent { c with data := pack x1 x2 x3 x4 :: rest, ip := c.ip + 1, opMode := .signed }) := by
  have hcount : c.data.length = rest.length + 4 := by rw [hd]; rfl
  rw [exec_pa, execPa, transact_guardStack_of_le hc (by omega) (by omega)]
  apply transact_of_ok
  rw [pop_bind hc hd, pop_bind_withData hc, pop_bind_withData hc, pop_bind_withData hc, push_bind_withData hc (by omega),
    finish_ordinary_withData hc]
  rfl

/-- UN pushes byte 3 first, each push into the room that its guard has found. -/
theorem exec_un_of_data {v : Cell} (hc : s.current? = some c) (hd : c.data = v :: rest) (hlen : c.data.length ≤ 28) :
    exec .un s = .next (s.setCurrent
      { c with data := unpackByte v 0 :: unpackByte v 1 :: unpackByte v 2 :: unpackByte v 3 :: rest,
               ip := c.ip + 1, opMode := .signed }) := by
  have hcount : c.data.length = rest.length + 1 := by rw [hd]; rfl
  rw [exec_un, execUn, transact_guardStack_of_le hc (by omega) (by omega)]
  apply transact_of_ok
  rw [pop_bind hc hd, push_bind_withData hc, push_bind_withData hc, push_bind_withData hc, push_bind_withData hc,
    finish_ordinary_withData hc]
  · rfl
  all_goals grind

end

end Sys2Proof.Machine
end

section
/-! PROOF of O42, O43 and O44: each instruction of 45_bitwise_pack.md is its shape with its function of the arithmetic unit. -/

namespace Sys2Proof.Machine

/-- Settles O42: the functions are those of bit vectors, and none of the four instructions reads the mode. -/
theorem bitwiseActOnRawBits : Obligations.BitwiseActOnRawBits := by
  refine ⟨rfl, rfl, rfl, rfl, fun s c hc => ⟨trapsByGuard_guardCounts hc (by decide), trapsByGuard_guardCounts hc (by decide),
    trapsByGuard_guardCounts hc (by decide), trapsByGuard_guardCounts hc (by decide), fun r l rest hd hlen => ?binary,
    fun v rest hd hlen => ?complement⟩⟩
  case binary =>
    rw [exec_an, exec_or, exec_xo]
    exact ⟨transact_modelessOperation hc hd hlen bitwiseAnd, transact_modelessOperation hc hd hlen bitwiseOr,
      transact_modelessOperation hc hd hlen bitwiseXor⟩
  case complement => rw [exec_nt_of_data hc hd hlen, bitwiseNot_eq]

/-- Settles O43: both shifts have their bit-vector value in each integer mode, and none in FLOAT mode. -/
theorem shiftsByTheLowFiveBits : Obligations.ShiftsByTheLowFiveBits := by
  refine ⟨rfl, rfl, fun s c hc => ⟨trapsByGuard_guardCounts hc (by decide), trapsByGuard_guardCounts hc (by decide),
    fun r l rest hd hlen => ?_⟩⟩
  rw [exec_sl, exec_sr]
  refine ⟨fun hmode => ⟨?slSigned, ?srSigned⟩, fun hmode => ⟨?slUnsigned, ?srUnsigned⟩, fun hmode => ⟨?slFloat, ?srFloat⟩⟩
  case slSigned | slUnsigned =>
    exact transact_shiftOperation_of_ok hc hd hlen (by rw [hmode, shiftLeft_integer l r (by decide)])
  case srSigned => exact transact_shiftOperation_of_ok hc hd hlen (by rw [hmode, shiftRight_signed])
  case srUnsigned => exact transact_shiftOperation_of_ok hc hd hlen (by rw [hmode, shiftRight_unsigned])
  case slFloat => exact transact_shiftOperation_of_error hc hd hlen (by rw [hmode, shiftLeft_float])
  case srFloat => exact transact_shiftOperation_of_error hc hd hlen (by rw [hmode, shiftRight_float])

/-- Settles O44: the packed cell is the one with the number of its four bytes, and each unpacked cell is a byte of the popped one. -/
theorem packAndUnpackBytes : Obligations.PackAndUnpackBytes := by
  refine ⟨rfl, rfl, fun s c hc => ⟨trapsByGuard_guardCounts hc (by decide), trapsByGuard_guardCounts hc (by decide),
    fun x4 x3 x2 x1 rest hd hlen v hv => ?packed, fun v rest hd hlen => ?unpacked⟩⟩
  case packed =>
    obtain rfl : v = pack x1 x2 x3 x4 := BitVec.eq_of_toNat_eq (hv.trans (pack_toNat x1 x2 x3 x4).symm)
    exact exec_pa_of_data hc hd hlen
  case unpacked =>
    rw [exec_un_of_data hc hd hlen, unpackByte_zero, unpackByte_eq_ofNat v 1, unpackByte_eq_ofNat v 2, unpackByte_three]

end Sys2Proof.Machine
end

section
/-! SUPPORT. The shapes of 46_control.md: CA and JU make a transfer, CC and CJ make the same transfer on a condition, and RE and CR return.
Each is run to its outcome on a core that meets its guard. -/

namespace Sys2Proof.Machine

/-! ### The instructions' shapes -/

/-- What CA, and CC on a true condition, do with the popped target, on the core as the pops left it (R371, R372). -/
def callTo (t : Cell) (c : CoreState) : Handler Unit := do
  apush (returnAddress c)
  finishJump .addressed (jumpTarget c t)

/-- What JU, and CJ on a true condition, do with the popped target (R373, R374). -/
def jumpTo (t : Cell) (c : CoreState) : Handler Unit := finishJump .addressed (jumpTarget c t)

/-- CA and JU with the transfer that each of them makes. -/
def transferAlways (transfer : Cell → CoreState → Handler Unit) : Handler Unit := do
  guardStack 1 0
  let t ← pop
  let c ← getCore
  transfer t c

/-- CC and CJ with the transfer that each of them makes, and how far each advances without it. -/
def transferIfTrue (transfer : Cell → CoreState → Handler Unit) (len : Nat) : Handler Unit := do
  guardStack 2 0
  let t ← pop
  let cond ← pop
  let c ← getCore
  if cellToBool cond then transfer t c else finish .addressed len

/-- What RE, and CR on a true condition, do (R375, R376). -/
def returnToTop : Handler Unit := do
  let v ← apop
  finishJump .ordinary v

/-- What CR does (R376). -/
def returnIfTrue : Handler Unit := do
  guardStack 1 0
  let cond ← pop
  if cellToBool cond then returnToTop else finish .ordinary 4

theorem exec_ca (s : State) : exec .ca s = transact (transferAlways callTo) s := rfl
theorem exec_cc (s : State) : exec .cc s = transact (transferIfTrue callTo 1) s := rfl
theorem exec_ju (s : State) : exec .ju s = transact (transferAlways jumpTo) s := rfl
theorem exec_cj (s : State) : exec .cj s = transact (transferIfTrue jumpTo 4) s := rfl
theorem exec_re (s : State) : exec .re s = transact returnToTop s := rfl

theorem exec_cr (s : State) : exec .cr s = transact returnIfTrue s := rfl

/-- Only the cell of all ones is true (40_cell_alu.md R164). -/
theorem cellToBool_iff (cond : Cell) : cellToBool cond = true ↔ cond = 0xFFFFFFFF#32 := decide_eq_true_iff

section
variable {s : State} {c : CoreState} {t v cond : Cell} {rest : List Cell} {transfer : Cell → CoreState → Handler Unit} {h : Handler Unit}

/-! ### The ends of a handler -/

/-- A jump ends a handler with the epilogue of its opcode on the core that the handler left (41_engine.md R237 to R239). -/
theorem finishJump_setCurrent (hc : s.current? = some c) (d : CoreState) (op : OpcodeClass) (target : Cell) :
    finishJump op target (s.setCurrent d) = .ok ((), s.setCurrent (modeEpilogue op { d with ip := target })) := by
  rw [finishJump_apply, State.current_setCurrent_of_some hc]
  exact congrArg _ (congrArg _ (State.setCurrent_setCurrent ..))

/-- The end of CC and CJ without their transfer (41_engine.md R236, R238). -/
theorem finish_addressed_setCurrent (hc : s.current? = some c) (d : CoreState) (len : Nat) :
    finish .addressed len (s.setCurrent d) =
      .ok ((), s.setCurrent { d with ip := d.ip + BitVec.ofNat 32 len, opMode := .signed, addrMode := .direct }) := by
  rw [finish_apply, State.current_setCurrent_of_some hc]
  exact congrArg _ (congrArg _ (State.setCurrent_setCurrent ..))

/-! ### What the operands decide -/

theorem transferAlways_of_data (hc : s.current? = some c) (hd : c.data = t :: rest) (hlen : c.data.length ≤ 32) :
    transferAlways transfer s = transfer t { c with data := rest } (s.setCurrent { c with data := rest }) := by
  have hcount : c.data.length = rest.length + 1 := by rw [hd]; rfl
  rw [transferAlways, guardStack_bind hc (by omega) hlen, pop_bind hc hd, getCore_bind_withData hc]

theorem transferIfTrue_of_data (hc : s.current? = some c) (hd : c.data = t :: cond :: rest) (hlen : c.data.length ≤ 32) (len : Nat) :
    transferIfTrue transfer len s =
      (if cellToBool cond then transfer t { c with data := rest } else finish .addressed len) (s.setCurrent { c with data := rest }) := by
  have hcount : c.data.length = rest.length + 2 := by rw [hd]; rfl
  rw [transferIfTrue, guardStack_bind hc (by omega) hlen, pop_bind hc hd, pop_bind_withData hc, getCore_bind_withData hc]

/-- On a true condition the conditional form does with the cells below it what the unconditional one does. -/
theorem transferIfTrue_of_true (hc : s.current? = some c) (hd : c.data = t :: 0xFFFFFFFF#32 :: rest) (hlen : c.data.length ≤ 32)
    (len : Nat) :
    transferIfTrue transfer len s = transfer t { c with data := rest } (s.setCurrent { c with data := rest }) := by
  rw [transferIfTrue_of_data hc hd hlen, if_pos ((cellToBool_iff _).2 rfl)]

/-- On any other condition nothing happens but the advance, which resets the address mode. -/
theorem transact_transferIfTrue_of_ne (hc : s.current? = some c) (hd : c.data = t :: cond :: rest) (hlen : c.data.length ≤ 32)
    (hcond : cond ≠ 0xFFFFFFFF#32) (len : Nat) :
    transact (transferIfTrue transfer len) s = .next (s.setCurrent
      { c with data := rest, ip := c.ip + BitVec.ofNat 32 len, opMode := .signed, addrMode := .direct }) := by
  apply transact_of_ok
  rw [transferIfTrue_of_data hc hd hlen, if_neg (mt (cellToBool_iff _).1 hcond), finish_addressed_setCurrent hc]

/-! ### The transfers, on the core as the pops left it -/

/-- A handler that comes to a call meets the full address stack after its pops, which the trap discards. -/
theorem transact_of_eq_callTo (hc : s.current? = some c)
    (hcall : h s = callTo t { c with data := rest } (s.setCurrent { c with data := rest })) :
    transact h s = if c.addrs.length < 128 then
        .next (s.setCurrent { c with data := rest, addrs := (c.ip + 4) :: c.addrs,
                                     ip := (if c.addrMode = .direct then t else t + c.ip), opMode := .signed, addrMode := .direct })
      else .next (s.setStatus .addressStackOverflow) := by
  have hpopped := State.current_setCurrent_of_some hc { c with data := rest }
  rw [callTo, returnAddress_eq, jumpTarget_eq] at hcall
  split
  next hroom =>
    apply transact_of_ok
    rw [hcall, apush_bind hpopped hroom, State.setCurrent_setCurrent, finishJump_setCurrent hc]
    rfl
  next hfull => exact transact_of_raise (hcall.trans (apush_bind_raises hpopped hfull _))

theorem transact_of_eq_jumpTo (hc : s.current? = some c)
    (hjump : h s = jumpTo t { c with data := rest } (s.setCurrent { c with data := rest })) :
    transact h s = .next (s.setCurrent
      { c with data := rest, ip := (if c.addrMode = .direct then t else t + c.ip), opMode := .signed, addrMode := .direct }) := by
  rw [jumpTo, jumpTarget_eq, finishJump_setCurrent hc] at hjump
  exact transact_of_ok hjump

/-! ### The returns -/

theorem returnToTop_of_addrs (hc : s.current? = some c) (ha : c.addrs = v :: rest) :
    returnToTop s = .ok ((), s.setCurrent { c with addrs := rest, ip := v, opMode := .signed }) := by
  rw [returnToTop, apop_bind hc ha, finishJump_setCurrent hc]
  rfl

theorem returnToTop_of_addrs_nil (hc : s.current? = some c) (hempty : c.addrs = []) :
    returnToTop s = .error (.raise .addressStackUnderflow) := apop_bind_raises hc hempty _

theorem exec_re_of_addrs (hc : s.current? = some c) (ha : c.addrs = v :: rest) :
    exec .re s = .next (s.setCurrent { c with addrs := rest, ip := v, opMode := .signed }) := by
  rw [exec_re, transact_of_ok (returnToTop_of_addrs hc ha)]

theorem exec_re_of_addrs_nil (hc : s.current? = some c) (hempty : c.addrs = []) :
    exec .re s = .next (s.setStatus .addressStackUnderflow) := by
  rw [exec_re, transact_of_raise (returnToTop_of_addrs_nil hc hempty), takeStatus_eq]

theorem returnIfTrue_of_data (hc : s.current? = some c) (hd : c.data = cond :: rest) (hlen : c.data.length ≤ 32) :
    returnIfTrue s = (if cellToBool cond then returnToTop else finish .ordinary 4) (s.setCurrent { c with data := rest }) := by
  have hcount : c.data.length = rest.length + 1 := by rw [hd]; rfl
  rw [returnIfTrue, guardStack_bind hc (by omega) hlen, pop_bind hc hd]

/-- On a true condition CR returns with the data stack that its pop has left. -/
theorem returnIfTrue_of_true (hc : s.current? = some c) (hd : c.data = 0xFFFFFFFF#32 :: rest) (hlen : c.data.length ≤ 32) :
    returnIfTrue s = returnToTop (s.setCurrent { c with data := rest }) := by
  rw [returnIfTrue_of_data hc hd hlen, if_pos ((cellToBool_iff _).2 rfl)]

theorem exec_cr_of_addrs {arest : List Cell} (hc : s.current? = some c) (hd : c.data = 0xFFFFFFFF#32 :: rest)
    (hlen : c.data.length ≤ 32) (ha : c.addrs = v :: arest) :
    exec .cr s = .next (s.setCurrent { c with data := rest, addrs := arest, ip := v, opMode := .signed }) := by
  have hpopped := State.current_setCurrent_of_some hc { c with data := rest }
  rw [exec_cr]
  apply transact_of_ok
  rw [returnIfTrue_of_true hc hd hlen, returnToTop_of_addrs hpopped ha, State.setCurrent_setCurrent]

/-- CR meets the empty address stack after its pop, which the trap discards. -/
theorem exec_cr_of_addrs_nil (hc : s.current? = some c) (hd : c.data = 0xFFFFFFFF#32 :: rest) (hlen : c.data.length ≤ 32)
    (hempty : c.addrs = []) : exec .cr s = .next (s.setStatus .addressStackUnderflow) := by
  have hpopped := State.current_setCurrent_of_some hc { c with data := rest }
  rw [exec_cr]
  exact transact_of_raise ((returnIfTrue_of_true hc hd hlen).trans (returnToTop_of_addrs_nil hpopped hempty))

theorem exec_cr_of_ne (hc : s.current? = some c) (hd : c.data = cond :: rest) (hlen : c.data.length ≤ 32)
    (hcond : cond ≠ 0xFFFFFFFF#32) :
    exec .cr s = .next (s.setCurrent { c with data := rest, ip := c.ip + 4, opMode := .signed }) := by
  rw [exec_cr]
  apply transact_of_ok
  rw [returnIfTrue_of_data hc hd hlen, if_neg (mt (cellToBool_iff _).1 hcond), finish_ordinary_withData hc]
  rfl

end

end Sys2Proof.Machine
end

section
/-! PROOF of O45, O46 and O47: the guard of each instruction of 46_control.md, and what its condition and the address stack
decide after it. -/

namespace Sys2Proof.Machine

/-- Settles O45: CC on a true condition makes the call that CA makes. -/
theorem callsPushTheReturnAddress : Obligations.CallsPushTheReturnAddress := by
  refine ⟨rfl, rfl, fun s c hc => ⟨trapsByGuard_guardCounts hc (by decide), trapsByGuard_guardCounts hc (by decide),
    fun t rest hd hlen => ?always, fun t rest hd hlen => ?onTrue, fun t cond rest hd hlen hcond => ?otherwise⟩⟩
  case always => exact (exec_ca s).trans <| transact_of_eq_callTo hc (transferAlways_of_data hc hd hlen)
  case onTrue => exact (exec_cc s).trans <| transact_of_eq_callTo hc (transferIfTrue_of_true hc hd hlen 1)
  case otherwise => exact (exec_cc s).trans <| transact_transferIfTrue_of_ne hc hd hlen hcond 1

/-- Settles O46: CJ on a true condition makes the jump that JU makes. -/
theorem jumpsGoToTheTarget : Obligations.JumpsGoToTheTarget := by
  refine ⟨rfl, rfl, fun s c hc => ⟨trapsByGuard_guardCounts hc (by decide), trapsByGuard_guardCounts hc (by decide),
    fun t rest hd hlen => ?always, fun t rest hd hlen => ?onTrue, fun t cond rest hd hlen hcond => ?otherwise⟩⟩
  case always => exact (exec_ju s).trans <| transact_of_eq_jumpTo hc (transferAlways_of_data hc hd hlen)
  case onTrue => exact (exec_cj s).trans <| transact_of_eq_jumpTo hc (transferIfTrue_of_true hc hd hlen 4)
  case otherwise => exact (exec_cj s).trans <| transact_transferIfTrue_of_ne hc hd hlen hcond 4

/-- Settles O47: RE and CR end with the epilogue of an ordinary opcode, so neither reads nor resets the address mode. -/
theorem returnsPopTheAddressStack : Obligations.ReturnsPopTheAddressStack :=
  ⟨rfl, rfl, fun _ _ hc => ⟨trapsByGuard_guardCounts hc (by decide), fun _ _ ha => exec_re_of_addrs hc ha, exec_re_of_addrs_nil hc,
    fun _ hd hlen => ⟨fun _ _ ha => exec_cr_of_addrs hc hd hlen ha, exec_cr_of_addrs_nil hc hd hlen⟩,
    fun _ _ hd hlen hcond => exec_cr_of_ne hc hd hlen hcond⟩⟩

end Sys2Proof.Machine
end

section
/-! PROOF of O22. Two states that agree on the executing core and on the shared state are taken through each named operation side by
side, and go on agreeing. -/

namespace Sys2Proof.Machine

/-- The states have the same executing core and the same shared state; the other cores may hold anything, and so may what no instruction but
II reads: the I/O table, `cur_core_id` and the callback log. -/
structure Agree (s s' : State) : Prop where
  current : s'.current? = s.current?
  memory : s'.memory = s.memory
  interruptTable : s'.interruptTable = s.interruptTable
  intEnabled : s'.intEnabled = s.intEnabled
  status : s'.status = s.status

/-- From states that agree, the handler either completes with the same answer in states that agree, or stops alike. -/
structure ReadsAgreed {α : Type} (x : Handler α) : Prop where
  completes : ∀ {s s' t a}, Agree s s' → x s = .ok (a, t) → ∃ t', x s' = .ok (a, t') ∧ Agree t t'
  stops : ∀ {s s' e}, Agree s s' → x s = .error e → x s' = .error e

section
variable {α β : Type}

/-! ### What operations are made of -/

@[simp] theorem readsAgreed_pure (a : α) : ReadsAgreed (pure a) where
  completes hs h := by cases h; exact ⟨_, rfl, hs⟩
  stops := nofun

@[simp] theorem readsAgreed_raise (st : Status) : ReadsAgreed (raise st : Handler α) where
  completes := nofun
  stops _ h := h

@[simp] theorem readsAgreed_undefinedStop (r : Refusal) : ReadsAgreed (undefinedStop r : Handler α) where
  completes := nofun
  stops _ h := h

@[simp] theorem readsAgreed_orRaise (x : Except Status α) : ReadsAgreed (orRaise x) := by
  cases x with
  | ok a => exact readsAgreed_pure a
  | error st => exact readsAgreed_raise st

/-- A statement that reads what the states agree on. -/
theorem readsAgreed_read {f : State → α} (hf : ∀ s s', Agree s s' → f s' = f s) :
    ReadsAgreed (fun s => .ok (f s, s) : Handler α) where
  completes hs h := by cases h; exact ⟨_, by rw [hf _ _ hs], hs⟩
  stops := nofun

theorem readsAgreed_update {f : State → State} (hf : ∀ s s', Agree s s' → Agree (f s) (f s')) : ReadsAgreed (update f) where
  completes hs h := by cases h; exact ⟨_, rfl, hf _ _ hs⟩
  stops := nofun

@[simp] theorem readsAgreed_getCore : ReadsAgreed getCore where
  completes hs h := by
    obtain ⟨hc, rfl⟩ := getCore_ok h
    exact ⟨_, by rw [getCore_apply, hs.current, hc], hs⟩
  stops hs h := by
    obtain ⟨hc, rfl⟩ := getCore_error h
    rw [getCore_apply, hs.current, hc]

@[simp] theorem readsAgreed_bind {x : Handler α} {f : α → Handler β} (hx : ReadsAgreed x) (hf : ∀ a, ReadsAgreed (f a)) :
    ReadsAgreed (x >>= f) where
  completes hs h := by
    obtain ⟨a, u, ha, hb⟩ := handler_bind_ok_iff.1 h
    obtain ⟨u', ha', hu⟩ := hx.completes hs ha
    obtain ⟨t', hb', ht⟩ := (hf a).completes hu hb
    exact ⟨t', (handler_bind_of_ok ha').trans hb', ht⟩
  stops hs h := by
    rcases handler_bind_error_iff.1 h with hstop | ⟨a, u, ha, hb⟩
    · exact handler_bind_of_error (hx.stops hs hstop)
    · obtain ⟨u', ha', hu⟩ := hx.completes hs ha
      exact (handler_bind_of_ok ha').trans ((hf a).stops hu hb)

@[simp] theorem readsAgreed_ite {p : Prop} [Decidable p] {x y : Handler α} (hx : ReadsAgreed x) (hy : ReadsAgreed y) :
    ReadsAgreed (if p then x else y) := by
  split
  · exact hx
  · exact hy

/-! ### Updates of states that agree -/

theorem Agree.setCurrent {s s' : State} (hs : Agree s s') (c : CoreState) : Agree (s.setCurrent c) (s'.setCurrent c) :=
  { hs with current := by simp [hs.current] }

theorem Agree.setMemory {s s' : State} (hs : Agree s s') (f : Memory → Memory) :
    Agree (s.setMemory (f s.memory)) (s'.setMemory (f s'.memory)) :=
  { hs with memory := congrArg f hs.memory }

theorem Agree.setTable {s s' : State} (hs : Agree s s')
    (f : Vector Cell Config.interruptTableSize → Vector Cell Config.interruptTableSize) :
    Agree (s.setTable (f s.interruptTable)) (s'.setTable (f s'.interruptTable)) :=
  { hs with interruptTable := congrArg f hs.interruptTable }

theorem Agree.setIntEnabled {s s' : State} (hs : Agree s s') (b : Bool) : Agree (s.setIntEnabled b) (s'.setIntEnabled b) :=
  { hs with intEnabled := rfl }

theorem Agree.setStatus {s s' : State} (hs : Agree s s') (st : Status) : Agree (s.setStatus st) (s'.setStatus st) :=
  { hs with status := rfl }

/-! ### Operations -/

@[simp] theorem readsAgreed_setCurrentCore (c : CoreState) : ReadsAgreed (setCurrentCore c) :=
  readsAgreed_update fun _ _ hs => hs.setCurrent c

@[simp] theorem readsAgreed_setIntEnabled (b : Bool) : ReadsAgreed (update fun s => s.setIntEnabled b) :=
  readsAgreed_update fun _ _ hs => hs.setIntEnabled b

@[simp] theorem readsAgreed_storeHandler (id : Nat) (addr : Cell) :
    ReadsAgreed (update fun s => s.setTable (s.interruptTable.setIfInBounds id addr)) :=
  readsAgreed_update fun _ _ hs => hs.setTable (·.setIfInBounds id addr)

@[simp] theorem readsAgreed_getIntEnabled : ReadsAgreed getIntEnabled := readsAgreed_read fun _ _ hs => hs.intEnabled

@[simp] theorem readsAgreed_interrupt (id : Nat) : ReadsAgreed (interrupt id) := readsAgreed_pure ()

@[simp] theorem readsAgreed_guardStack (p q : Nat) : ReadsAgreed (guardStack p q) :=
  readsAgreed_bind readsAgreed_getCore fun _ =>
    readsAgreed_ite (readsAgreed_raise _) (readsAgreed_ite (readsAgreed_raise _) (readsAgreed_pure _))

@[simp] theorem readsAgreed_pop : ReadsAgreed pop := by
  refine readsAgreed_bind readsAgreed_getCore fun c => ?_
  split
  · exact readsAgreed_bind (readsAgreed_setCurrentCore _) fun _ => readsAgreed_pure _
  · exact readsAgreed_undefinedStop _

@[simp] theorem readsAgreed_push (v : Cell) : ReadsAgreed (push v) :=
  readsAgreed_bind readsAgreed_getCore fun _ => readsAgreed_ite (readsAgreed_setCurrentCore _) (readsAgreed_undefinedStop _)

@[simp] theorem readsAgreed_apop : ReadsAgreed apop := by
  refine readsAgreed_bind readsAgreed_getCore fun c => ?_
  split
  · exact readsAgreed_bind (readsAgreed_setCurrentCore _) fun _ => readsAgreed_pure _
  · exact readsAgreed_raise _

@[simp] theorem readsAgreed_apush (v : Cell) : ReadsAgreed (apush v) :=
  readsAgreed_bind readsAgreed_getCore fun _ => readsAgreed_ite (readsAgreed_raise _) (readsAgreed_setCurrentCore _)

@[simp] theorem readsAgreed_checkRange (addr len : Nat) : ReadsAgreed (checkRange addr len) :=
  readsAgreed_ite (readsAgreed_pure _) (readsAgreed_raise _)

@[simp] theorem readsAgreed_immediate (offset len : Nat) (v : Cell) : ReadsAgreed (immediate offset len v) :=
  readsAgreed_bind readsAgreed_getCore fun _ => readsAgreed_bind (readsAgreed_checkRange _ _) fun _ => readsAgreed_pure v

@[simp] theorem readsAgreed_memRead (addr : Nat) (w : Width) : ReadsAgreed (memRead addr w) :=
  readsAgreed_bind (readsAgreed_checkRange _ _) fun _ => readsAgreed_read fun _ _ hs => congrArg (Memory.readCell · addr w) hs.memory

@[simp] theorem readsAgreed_memWrite (addr : Nat) (w : Width) (v : Cell) : ReadsAgreed (memWrite addr w v) :=
  readsAgreed_bind (readsAgreed_checkRange _ _) fun _ => readsAgreed_update fun _ _ hs => hs.setMemory (·.writeCell addr w v)

@[simp] theorem readsAgreed_compareBlock (len dst orig : Nat) : ReadsAgreed (compareBlock len dst orig) :=
  readsAgreed_bind (readsAgreed_checkRange _ _) fun _ => readsAgreed_bind (readsAgreed_checkRange _ _) fun _ =>
    readsAgreed_read fun _ _ hs => congrArg (fun m : Memory => cellBool (m.equalBlocks len dst orig)) hs.memory

@[simp] theorem readsAgreed_copyBlock (len dst orig : Nat) : ReadsAgreed (copyBlock len dst orig) :=
  readsAgreed_bind (readsAgreed_checkRange _ _) fun _ => readsAgreed_bind (readsAgreed_checkRange _ _) fun _ =>
    readsAgreed_update fun _ _ hs => hs.setMemory (·.copyBlock len dst orig)

@[simp] theorem readsAgreed_readRegister (id : Nat) : ReadsAgreed (readRegister id) := by
  refine readsAgreed_bind readsAgreed_getCore fun c => ?_
  split
  · exact readsAgreed_pure _
  · exact readsAgreed_raise _

@[simp] theorem readsAgreed_writeRegister (id : Nat) (v : Cell) : ReadsAgreed (writeRegister id v) :=
  readsAgreed_bind readsAgreed_getCore fun _ => readsAgreed_ite (readsAgreed_setCurrentCore _) (readsAgreed_raise _)

@[simp] theorem readsAgreed_finish (op : OpcodeClass) (len : Nat) : ReadsAgreed (finish op len) :=
  readsAgreed_bind readsAgreed_getCore fun _ => readsAgreed_setCurrentCore _

@[simp] theorem readsAgreed_finishJump (op : OpcodeClass) (target : Cell) : ReadsAgreed (finishJump op target) :=
  readsAgreed_bind readsAgreed_getCore fun _ => readsAgreed_setCurrentCore _

end

/-! ### Instructions -/

/-- A status discards every write, so states that agreed before the instruction agree with the status on their outputs. -/
theorem transact_agree {h : Handler Unit} {s s' t : State} (hx : ReadsAgreed h) (hs : Agree s s') (ht : transact h s = .next t) :
    ∃ t', transact h s' = .next t' ∧ Agree t t' := by
  rcases transact_next_iff.1 ht with hok | ⟨st, hraise, rfl⟩
  · obtain ⟨t', hok', hagree⟩ := hx.completes hs hok
    exact ⟨t', transact_of_ok hok', hagree⟩
  · exact ⟨_, transact_of_raise (hx.stops hs hraise), hs.setStatus st⟩

/-- Only IC, AC and PC look at a core by its id, and only II at the I/O table and the callback log: every other statement is met by the rule
for its operation. -/
theorem exec_agree {i : Instr} {s s' t : State} (hic : i ≠ .ic) (hac : i ≠ .ac) (hpc : i ≠ .pc) (hii : i ≠ .ii) (hs : Agree s s')
    (h : exec i s = .next t) : ∃ t', exec i s' = .next t' ∧ Agree t t' := by
  cases i
  case ic => exact absurd rfl hic
  case ac => exact absurd rfl hac
  case pc => exact absurd rfl hpc
  case ii => exact absurd rfl hii
  case hs => exact transact_agree (h := raise .systemHalt) (by simp) hs h
  all_goals
    refine transact_agree ?_ hs h
    repeat' with_reducible first | refine readsAgreed_bind ?_ fun _ => ?_ | refine readsAgreed_ite ?_ ?_
    all_goals simp

/-- Settles O22: the two runs of the instruction answer states that agree. -/
theorem siblingsPrivateStateIsNotRead : Obligations.SiblingsPrivateStateIsNotRead := by
  intro i s s' t hic hac hpc hii hcurrent hmemory htable henabled hstatus h
  obtain ⟨t', ht', hagree⟩ := exec_agree hic hac hpc hii ⟨hcurrent, hmemory, htable, henabled, hstatus⟩ h
  exact ⟨t', ht', hagree.current, hagree.memory, hagree.interruptTable, hagree.intEnabled, hagree.status⟩

end Sys2Proof.Machine
end

section
/-! SUPPORT. The instructions of 47_interrupt_io.md, each run to its outcome on a core that meets its guard. -/

namespace Sys2Proof.Machine

/-! ### Entries of a table -/

/-- An entry of a vector after entry `i` was written. -/
theorem getElem?_setIfInBounds_of_lt {α : Type} {n i : Nat} (hi : i < n) (xs : Vector α n) (x : α) (k : Nat) :
    (xs.setIfInBounds i x)[k]? = if k = i then some x else xs[k]? := by
  rw [Vector.getElem?_setIfInBounds]
  by_cases h : k = i
  · rw [if_pos h.symm, if_pos h, if_pos hi]
  · rw [if_neg (Ne.symm h), if_neg h]

/-! ### The instructions' shapes -/

/-- What HI and SI do with the bit that each of them writes (R401, R402). -/
def writeIntEnabled (b : Bool) : Handler Unit := do
  update fun s => s.setIntEnabled b
  finish .ordinary 1

theorem exec_sv (s : State) : exec .sv s = execSv s := rfl
theorem exec_hi (s : State) : exec .hi s = transact (writeIntEnabled false) s := rfl
theorem exec_si (s : State) : exec .si s = transact (writeIntEnabled true) s := rfl
theorem exec_ti (s : State) : exec .ti s = execTi s := rfl
theorem exec_ii (s : State) : exec .ii s = execIi s := rfl

section
variable {β : Type} {s : State} {c : CoreState} {id addr : Cell} {rest : List Cell}

theorem update_bind (f : State → State) (k : Unit → Handler β) : (update f >>= k) s = k () (f s) :=
  handler_bind_of_ok (update_apply f s)

/-! ### SV, HI and SI -/

/-- SV looks at the id after both pops, which the trap discards. -/
theorem exec_sv_of_data (hc : s.current? = some c) (hd : c.data = id :: addr :: rest) (hlen : c.data.length ≤ 32) :
    exec .sv s = if id.toNat < 128 then
        .next ((s.setCurrent { c with data := rest, ip := c.ip + 1, opMode := .signed }).setTable
          (s.interruptTable.setIfInBounds id.toNat addr))
      else .next (s.setStatus .illegalInterruptId) := by
  have hcount : c.data.length = rest.length + 2 := by rw [hd]; rfl
  rw [exec_sv, execSv, transact_guardStack_of_le hc (by omega) hlen]
  split
  next hid =>
    have hstored : (s.setTable (s.interruptTable.setIfInBounds id.toNat addr)).current? = some c := hc
    apply transact_of_ok
    rw [pop_bind hc hd, pop_bind_withData hc, if_neg (Nat.not_le.2 hid), update_bind, State.setCurrent_interruptTable,
      ← State.setTable_setCurrent, finish_ordinary_withData hstored]
    rfl
  next hid =>
    apply transact_of_raise
    rw [pop_bind hc hd, pop_bind_withData hc, if_pos (Nat.not_lt.1 hid), raise_apply]

theorem transact_writeIntEnabled (hc : s.current? = some c) (b : Bool) :
    transact (writeIntEnabled b) s =
      .next ((s.setCurrent { c with ip := c.ip + 1, opMode := .signed }).setIntEnabled b) := by
  have hwritten : (s.setIntEnabled b).current? = some c := hc
  apply transact_of_ok
  rw [writeIntEnabled, update_bind, finish_apply, hwritten]
  rfl

/-! ### TI and II -/

/-- The interrupt that TI would trigger is a placeholder, so the bit decides nothing (60_exceptions.md R480). -/
theorem exec_ti_of_data (hc : s.current? = some c) (hd : c.data = id :: rest) (hlen : c.data.length ≤ 32) :
    exec .ti s = .next (s.setCurrent { c with data := rest, ip := c.ip + 1, opMode := .signed }) := by
  have hcount : c.data.length = rest.length + 1 := by rw [hd]; rfl
  rw [exec_ti, execTi, transact_guardStack_of_le hc (by omega) hlen]
  apply transact_of_ok
  rw [pop_bind hc hd, handler_bind_of_ok (getIntEnabled_apply _)]
  cases (s.setCurrent { c with data := rest }).intEnabled <;> exact finish_ordinary_withData hc 1

/-- Once its id is popped, II ends as an opcode that sets no mode does, on the state that the call of the slot leaves. -/
theorem exec_ii_of_callSlot_ok {t : State} (hc : s.current? = some c) (hd : c.data = id :: rest) (hlen : c.data.length ≤ 32)
    (hcall : callSlot id.toNat (s.setCurrent { c with data := rest }) = .ok ((), t)) (ht : t.current? = some { c with data := rest }) :
    exec .ii s = .next (t.setCurrent { c with data := rest, ip := c.ip + 1, opMode := .signed }) := by
  have hcount : c.data.length = rest.length + 1 := by rw [hd]; rfl
  rw [exec_ii, execIi, transact_guardStack_of_le hc (by omega) hlen]
  apply transact_of_ok
  rw [pop_bind hc hd, handler_bind_of_ok hcall, finish_apply, ht]
  rfl

/-- II stops where the call of its slot does. -/
theorem exec_ii_of_callSlot_error {e : Stop} (hc : s.current? = some c) (hd : c.data = id :: rest) (hlen : c.data.length ≤ 32)
    (hcall : callSlot id.toNat (s.setCurrent { c with data := rest }) = .error e) :
    exec .ii s = transact (fun _ => .error e) s := by
  have hcount : c.data.length = rest.length + 1 := by rw [hd]; rfl
  have hstop : (pop >>= fun id => callSlot (toU32 id) >>= fun _ => finish .ordinary 1) s = .error e :=
    (pop_bind hc hd _).trans (handler_bind_of_error hcall)
  rw [exec_ii, execIi, transact_guardStack_of_le hc (by omega) hlen, transact, hstop]
  rfl

/-- II on a slot that does not exist or is absent (R404). -/
theorem exec_ii_of_absent (hc : s.current? = some c) (hd : c.data = id :: rest) (hlen : c.data.length ≤ 32)
    (hslot : s.ioTable[id.toNat]? ≠ some true) :
    exec .ii s = .next (s.setCurrent { c with data := rest, ip := c.ip + 1, opMode := .signed }) := by
  rw [exec_ii_of_callSlot_ok hc hd hlen ((callSlot_apply ..).trans (if_neg hslot)) (State.current_setCurrent_of_some hc _),
    State.setCurrent_setCurrent]

theorem callSlot_of_present {id : Nat} (hslot : s.ioTable[id]? = some true) :
    callSlot id s = (invokeCallback id s).map fun t => ((), t) := by
  rw [callSlot_apply, if_pos hslot]
  cases invokeCallback id s <;> rfl

end

end Sys2Proof.Machine
end

section
/-! PROOF of O48, O49 and O50: the guard of each instruction of 47_interrupt_io.md, and what it does to the shared state once its guard
holds. -/

namespace Sys2Proof.Machine

/-- Settles O48: the table that SV leaves is the old one with one entry written. -/
theorem svStoresTheHandlerAddress : Obligations.SvStoresTheHandlerAddress := by
  refine ⟨rfl, fun s c hc => ⟨trapsByGuard_guardCounts hc (by decide), fun id addr rest hd hlen => ?_⟩⟩
  rw [exec_sv_of_data hc hd hlen]
  exact ⟨fun hid => ⟨_, if_pos hid, fun k _ => getElem?_setIfInBounds_of_lt hid s.interruptTable addr k⟩,
    fun hid => if_neg (Nat.not_lt.2 hid)⟩

/-- Settles O49: HI and SI write the bit, and TI's placeholder leaves nothing but the pop. -/
theorem interruptEnableAndTrigger : Obligations.InterruptEnableAndTrigger :=
  ⟨rfl, rfl, rfl, fun s _ hc => ⟨trapsByGuard_guardCounts hc (by decide),
    (exec_hi s).trans (transact_writeIntEnabled hc false), (exec_si s).trans (transact_writeIntEnabled hc true),
    fun _ _ hd hlen => exec_ti_of_data hc hd hlen⟩⟩

/-- Settles O50: the call of an absent slot leaves the popped state, and the one of a present slot what its callback leaves. -/
theorem iiInvokesAPresentSlot : Obligations.IiInvokesAPresentSlot := by
  refine ⟨rfl, fun s c hc => ⟨trapsByGuard_guardCounts hc (by decide), fun id rest hd hlen =>
    ⟨exec_ii_of_absent hc hd hlen, fun hid hslot => ?noSlot, fun hslot => ?present⟩⟩⟩
  case noSlot => simp [hid] at hslot
  case present =>
    intro popped
    have hcall : callSlot id.toNat popped = (invokeCallback id.toNat popped).map fun t => ((), t) := callSlot_of_present hslot
    have hinvoke : invokeCallback id.toNat popped =
        callbackResult (Config.hostCallback s.callbackLog id.toNat (snapshot popped)) (popped.logCallback id.toNat) := rfl
    rw [← hinvoke]
    cases hresult : invokeCallback id.toNat popped with
    | ok t =>
      have ht : t.current? = some { c with data := rest } := by
        rw [invokeCallback_ok hresult]
        exact State.current_setCurrent_of_some hc _
      exact exec_ii_of_callSlot_ok hc hd hlen (by rw [hcall, hresult]; rfl) ht
    | error e =>
      rw [exec_ii_of_callSlot_error hc hd hlen (hcall.trans (by rw [hresult]; rfl))]
      cases e <;> rfl

end Sys2Proof.Machine
end

section
/-! SUPPORT. The shapes of 48_core_control.md: IC, AC and PC change the core that they name, which is the executing core, another one or
none. -/

namespace Sys2Proof.Machine

/-! ### The instructions' shapes -/

/-- What IC, AC and PC do to the core that they name, once their operands are popped (R421 to R423). -/
def changeCoreAt (id : Nat) (change : CoreState → CoreState) : Handler Unit := do
  let d ← coreAt id
  update fun s => s.setCore id (change d)
  finish .ordinary 1

/-- AC and PC with the value that each of them gives the active bit. -/
def setActiveBit (b : Bool) : Handler Unit := do
  guardStack 1 0
  let id ← pop
  changeCoreAt (toU32 id) fun d => { d with active := b }

/-- What IC does. -/
def initialiseCore : Handler Unit := do
  guardStack 2 0
  let id ← pop
  let addr ← pop
  changeCoreAt (toU32 id) fun _ => CoreState.default addr

theorem exec_hs (s : State) : exec .hs s = transact (raise .systemHalt) s := rfl
theorem exec_ic (s : State) : exec .ic s = transact initialiseCore s := rfl
theorem exec_ac (s : State) : exec .ac s = transact (setActiveBit true) s := rfl
theorem exec_pc (s : State) : exec .pc s = transact (setActiveBit false) s := rfl

section
variable {s : State} {c d e : CoreState} {id addr : Cell} {rest : List Cell} {change : CoreState → CoreState} {h : Handler Unit}

/-! ### The named core, on the state as the pops left it -/

theorem initialiseCore_of_data (hc : s.current? = some c) (hd : c.data = id :: addr :: rest) (hlen : c.data.length ≤ 32) :
    initialiseCore s = changeCoreAt id.toNat (fun _ => CoreState.default addr) (s.setCurrent { c with data := rest }) := by
  have hcount : c.data.length = rest.length + 2 := by rw [hd]; rfl
  rw [initialiseCore, guardStack_bind hc (by omega) hlen, pop_bind hc hd, pop_bind_withData hc]

theorem setActiveBit_of_data (hc : s.current? = some c) (hd : c.data = id :: rest) (hlen : c.data.length ≤ 32) (b : Bool) :
    setActiveBit b s = changeCoreAt id.toNat (fun d => { d with active := b }) (s.setCurrent { c with data := rest }) := by
  have hcount : c.data.length = rest.length + 1 := by rw [hd]; rfl
  rw [setActiveBit, guardStack_bind hc (by omega) hlen, pop_bind hc hd]

/-- A handler that comes to an id of CORE_COUNT or more has no defined behaviour. -/
theorem transact_changeCoreAt_missing {id : Nat} (hid : s.cores.length ≤ id)
    (hrun : h s = changeCoreAt id change (s.setCurrent e)) : transact h s = .refused (.illegalCoreId id) := by
  have hnone : (s.setCurrent e).cores[id]? = none := List.getElem?_eq_none_iff.2 (by simpa using hid)
  have hmissing : coreAt id (s.setCurrent e) = .error (.undefined (.illegalCoreId id)) := by rw [coreAt_apply, hnone]
  exact transact_refused_iff.2 (hrun.trans (handler_bind_of_error hmissing))

/-- The executing core is changed as the pops left it, and then ends as any opcode does (41_engine.md R239). -/
theorem transact_changeCoreAt_own (hc : s.current? = some c) (hrun : h s = changeCoreAt s.curCoreId change (s.setCurrent e)) :
    transact h s = .next (s.setCurrent { change e with ip := (change e).ip + 1, opMode := .signed }) := by
  have hown : (s.setCurrent e).cores[s.curCoreId]? = some e := State.current_setCurrent_of_some hc e
  have hfound : coreAt s.curCoreId (s.setCurrent e) = .ok (e, s.setCurrent e) := by rw [coreAt_apply, hown]
  have hwritten : (s.setCurrent e).setCore s.curCoreId (change e) = s.setCurrent (change e) := State.setCurrent_setCurrent ..
  apply transact_of_ok
  rw [hrun, changeCoreAt, handler_bind_of_ok hfound, update_bind, hwritten, finish_ordinary_setCurrent hc]
  rfl

/-- Another core is changed as it stands, and the executing core goes on as the pops left it. -/
theorem transact_changeCoreAt_sibling {id : Nat} (hc : s.current? = some c) (hid : id ≠ s.curCoreId) (hd : s.cores[id]? = some d)
    (hrun : h s = changeCoreAt id change (s.setCurrent e)) :
    transact h s = .next ((s.setCore id (change d)).setCurrent { e with ip := e.ip + 1, opMode := .signed }) := by
  have hsame : (s.setCurrent e).cores[id]? = some d := by
    rw [State.setCurrent_cores, List.getElem?_set_ne (Ne.symm hid), hd]
  have hfound : coreAt id (s.setCurrent e) = .ok (d, s.setCurrent e) := by rw [coreAt_apply, hsame]
  have hcurrent : (s.setCore id (change d)).current? = some c := by rw [State.setCore_current, if_neg hid, hc]
  apply transact_of_ok
  rw [hrun, changeCoreAt, handler_bind_of_ok hfound, update_bind, State.setCore_setCurrent_comm s id _ _ hid,
    finish_ordinary_setCurrent hcurrent]
  rfl

end

end Sys2Proof.Machine
end

section
/-! PROOF of O53, O54 and O55: HS only raises its status, IC, AC and PC change the core that they name in each of its three cases, and SC
changes its own core before it ends. -/

namespace Sys2Proof.Machine

/-- Settles O53: the status is raised before anything is read. -/
theorem hsEndsTheRun : Obligations.HsEndsTheRun := ⟨rfl, fun s => (exec_hs s).trans (transact_of_raise (raise_apply _ _))⟩

/-- Settles O54: the change that IC makes forgets the core that it finds. -/
theorem icInitialisesACore : Obligations.IcInitialisesACore := by
  refine ⟨rfl, fun s c hc => ⟨trapsByGuard_guardCounts hc (by decide), fun id addr rest hd hlen => ?_⟩⟩
  have hrun := initialiseCore_of_data hc hd hlen
  rw [exec_ic]
  refine ⟨fun hid => ?missing, fun hid => ?own, fun hlt hid => ?sibling⟩
  case missing => exact transact_changeCoreAt_missing hid hrun
  case own => exact transact_changeCoreAt_own hc (hid ▸ hrun)
  case sibling => exact transact_changeCoreAt_sibling hc hid (List.getElem?_eq_getElem hlt) hrun

/-- Settles O55: AC and PC make the change of one field with each value of the bit, and SC makes it on the executing core. -/
theorem activationInstructions : Obligations.ActivationInstructions := by
  refine ⟨rfl, rfl, rfl, fun s c hc => ⟨trapsByGuard_guardCounts hc (by decide), trapsByGuard_guardCounts hc (by decide),
    transact_changeCore_finish hc (fun c => { c with active := false }) .ordinary 1, fun id rest hd hlen => ?_⟩⟩
  have hrun (b : Bool) := setActiveBit_of_data hc hd hlen b
  rw [exec_ac, exec_pc]
  refine ⟨fun hid => ?missing, fun hid => ?own, fun d hid hdcore => ?sibling⟩
  case missing => exact ⟨transact_changeCoreAt_missing hid (hrun true), transact_changeCoreAt_missing hid (hrun false)⟩
  case own => exact ⟨transact_changeCoreAt_own hc (hid ▸ hrun true), transact_changeCoreAt_own hc (hid ▸ hrun false)⟩
  case sibling =>
    exact ⟨transact_changeCoreAt_sibling hc hid hdcore (hrun true), transact_changeCoreAt_sibling hc hid hdcore (hrun false)⟩

end Sys2Proof.Machine
end

section
/-! SUPPORT. The instructions of 49_register_block_mode.md that move data, each run to its outcome on a core that meets its guard, and what
the block operations do to the bytes of memory. -/

namespace Sys2Proof.Machine

/-! ### Blocks of memory -/

/-- A copied block is seen at its destination as the bytes of before at its origin, and nowhere else (20_memory.md R92). -/
theorem Memory.byteAt_copyBlock {m : Memory} (h : m.wf = true) {len dst : Nat} (hr : dst + len ≤ Config.memorySize) (orig x : Nat) :
    (m.copyBlock len dst orig).byteAt x =
      if dst ≤ x ∧ x < dst + len then m.byteAt (orig + (x - dst)) else m.byteAt x := by
  rw [Memory.copyBlock, Memory.byteAt_writeRange h dst _ (by simpa using hr), Memory.readRange_length]
  split
  next hx => rw [List.getD_eq_getElem?_getD, Memory.readRange_getElem?, if_pos (by omega), Option.getD_some]
  next => rfl

/-- Equal blocks are equal byte by byte (20_memory.md R91). -/
theorem Memory.equalBlocks_iff {m : Memory} {len dst orig : Nat} :
    m.equalBlocks len dst orig = true ↔ ∀ k, k < len → m.byteAt (dst + k) = m.byteAt (orig + k) := by
  rw [Memory.equalBlocks, decide_eq_true_iff, List.ext_getElem?_iff]
  refine forall_congr' fun k => ?_
  rw [Memory.readRange_getElem?, Memory.readRange_getElem?]
  by_cases hk : k < len <;> simp [hk]

/-- Two ranges are not both inside memory when one of them leaves it. -/
theorem not_and_le_of_lt_or_lt {a b n : Nat} (h : n < a ∨ n < b) : ¬(a ≤ n ∧ b ≤ n) := by omega

/-! ### The instructions on a core that meets the guard -/

theorem exec_rr (s : State) : exec .rr s = execRr s := rfl
theorem exec_wr (s : State) : exec .wr s = execWr s := rfl
theorem exec_cp (s : State) : exec .cp s = execCp s := rfl
theorem exec_bc (s : State) : exec .bc s = execBc s := rfl

section
variable {s : State} {c : CoreState} {id v len dst orig : Cell} {rest : List Cell}

/-- RR looks at the register after its pop, which the trap discards. -/
theorem exec_rr_of_data (hc : s.current? = some c) (hd : c.data = id :: rest) (hlen : c.data.length ≤ 31) :
    exec .rr s = match c.regs[id.toNat]? with
      | some v => .next (s.setCurrent { c with data := v :: rest, ip := c.ip + 1, opMode := .signed })
      | none => .next (s.setStatus .illegalRegisterId) := by
  have hcount : c.data.length = rest.length + 1 := by rw [hd]; rfl
  have hpopped := State.current_setCurrent_of_some hc { c with data := rest }
  rw [exec_rr, execRr, transact_guardStack_of_le hc (by omega) (by omega)]
  cases hv : c.regs[id.toNat]? with
  | some v =>
    have hread : readRegister id.toNat (s.setCurrent { c with data := rest }) = .ok (v, s.setCurrent { c with data := rest }) := by
      rw [readRegister_apply, hpopped]
      simp only [hv]
    apply transact_of_ok
    rw [pop_bind hc hd, handler_bind_of_ok hread, push_bind_withData hc (by omega), finish_ordinary_withData hc]
    rfl
  | none =>
    have hread : readRegister id.toNat (s.setCurrent { c with data := rest }) = .error (.raise .illegalRegisterId) := by
      rw [readRegister_apply, hpopped]
      simp only [hv]
    exact transact_of_raise ((pop_bind hc hd _).trans (handler_bind_of_error hread))

/-- WR looks at the id after both pops, which the trap discards. -/
theorem exec_wr_of_data (hc : s.current? = some c) (hd : c.data = id :: v :: rest) (hlen : c.data.length ≤ 32) :
    exec .wr s = if id.toNat < 24 then
        .next (s.setCurrent { c with data := rest, regs := c.regs.setIfInBounds id.toNat v, ip := c.ip + 1, opMode := .signed })
      else .next (s.setStatus .illegalRegisterId) := by
  have hcount : c.data.length = rest.length + 2 := by rw [hd]; rfl
  have hpopped := State.current_setCurrent_of_some hc { c with data := rest }
  rw [exec_wr, execWr, transact_guardStack_of_le hc (by omega) hlen]
  split
  next hid =>
    have hwrite : writeRegister id.toNat v (s.setCurrent { c with data := rest }) =
        .ok ((), s.setCurrent { c with data := rest, regs := c.regs.setIfInBounds id.toNat v }) := by
      rw [writeRegister_apply, hpopped]
      exact (if_pos hid).trans (by rw [State.setCurrent_setCurrent])
    apply transact_of_ok
    rw [pop_bind hc hd, pop_bind_withData hc, handler_bind_of_ok hwrite, finish_ordinary_setCurrent hc]
    rfl
  next hid =>
    have hwrite : writeRegister id.toNat v (s.setCurrent { c with data := rest }) = .error (.raise .illegalRegisterId) := by
      rw [writeRegister_apply, hpopped]
      exact if_neg hid
    apply transact_of_raise
    rw [pop_bind hc hd, pop_bind_withData hc, handler_bind_of_error hwrite]

/-- CP looks at both ranges after its pops, which the trap discards. -/
theorem exec_cp_of_data (hc : s.current? = some c) (hd : c.data = len :: dst :: orig :: rest) (hlen : c.data.length ≤ 32) :
    exec .cp s = if dst.toNat + len.toNat ≤ 65535 ∧ orig.toNat + len.toNat ≤ 65535 then
        .next ((s.setCurrent { c with data := rest, ip := c.ip + 1, opMode := .signed }).setMemory
          (s.memory.copyBlock len.toNat dst.toNat orig.toNat))
      else .next (s.setStatus .illegalMemoryAddress) := by
  have hcount : c.data.length = rest.length + 3 := by rw [hd]; rfl
  rw [exec_cp, execCp, transact_guardStack_of_le hc (by omega) hlen]
  split
  next hr =>
    have hcopied : (s.setMemory (s.memory.copyBlock len.toNat dst.toNat orig.toNat)).current? = some c := hc
    apply transact_of_ok
    rw [pop_bind hc hd, pop_bind_withData hc, pop_bind_withData hc, handler_bind_of_ok ((copyBlock_apply ..).trans (if_pos hr)),
      State.setCurrent_memory, ← State.setMemory_setCurrent, finish_ordinary_withData hcopied]
    rfl
  next hr =>
    apply transact_of_raise
    rw [pop_bind hc hd, pop_bind_withData hc, pop_bind_withData hc,
      handler_bind_of_error ((copyBlock_apply ..).trans (if_neg hr))]

/-- BC looks at both ranges after its pops, which the trap discards. -/
theorem exec_bc_of_data (hc : s.current? = some c) (hd : c.data = len :: dst :: orig :: rest) (hlen : c.data.length ≤ 31) :
    exec .bc s = if dst.toNat + len.toNat ≤ 65535 ∧ orig.toNat + len.toNat ≤ 65535 then
        .next (s.setCurrent { c with data := cellBool (s.memory.equalBlocks len.toNat dst.toNat orig.toNat) :: rest, ip := c.ip + 1,
                                     opMode := .signed })
      else .next (s.setStatus .illegalMemoryAddress) := by
  have hcount : c.data.length = rest.length + 3 := by rw [hd]; rfl
  rw [exec_bc, execBc, transact_guardStack_of_le hc (by omega) (by omega)]
  split
  next hr =>
    apply transact_of_ok
    rw [pop_bind hc hd, pop_bind_withData hc, pop_bind_withData hc, handler_bind_of_ok ((compareBlock_apply ..).trans (if_pos hr)),
      push_bind_withData hc (by omega), finish_ordinary_withData hc]
    rfl
  next hr =>
    apply transact_of_raise
    rw [pop_bind hc hd, pop_bind_withData hc, pop_bind_withData hc,
      handler_bind_of_error ((compareBlock_apply ..).trans (if_neg hr))]

end

end Sys2Proof.Machine
end

section
/-! PROOF of O56, O57 and O58: the guard of each instruction, its outcome once the guard holds, and the register bank and the memory seen
entry by entry. -/

namespace Sys2Proof.Machine

/-- Settles O56: the bank has a register for each id below 24 and for no other. -/
theorem registerReadAndWrite : Obligations.RegisterReadAndWrite := by
  refine ⟨rfl, rfl, fun s c hc => ⟨trapsByGuard_guardCounts hc (by decide), trapsByGuard_guardCounts hc (by decide),
    fun id rest hd hlen => ?read, fun id v rest hd hlen => ?write⟩⟩
  case read =>
    rw [exec_rr_of_data hc hd hlen]
    refine ⟨fun v hv => by rw [hv], fun hid => ?_⟩
    have hnone : c.regs[id.toNat]? = none := Vector.getElem?_eq_none hid
    rw [hnone]
  case write =>
    rw [exec_wr_of_data hc hd hlen]
    exact ⟨fun hid => ⟨_, if_pos hid, fun k _ => getElem?_setIfInBounds_of_lt hid c.regs v k⟩,
      fun hid => if_neg (Nat.not_lt.2 hid)⟩

/-- Settles O57: the block is read from the memory of before the copy. -/
theorem cpCopiesTheBlock : Obligations.CpCopiesTheBlock := by
  refine ⟨rfl, fun s c hs hc => ⟨trapsByGuard_guardCounts hc (by decide), fun len dst orig rest hd hlen => ?_⟩⟩
  rw [exec_cp_of_data hc hd hlen]
  exact ⟨fun hdst horig => ⟨_, if_pos ⟨hdst, horig⟩, Memory.byteAt_copyBlock hs hdst orig.toNat⟩,
    fun hout => if_neg (not_and_le_of_lt_or_lt hout)⟩

/-- Settles O58: the pushed cell is the truth of the comparison byte by byte. -/
theorem bcComparesTheBlocks : Obligations.BcComparesTheBlocks := by
  refine ⟨rfl, fun s c hc => ⟨trapsByGuard_guardCounts hc (by decide), fun len dst orig rest hd hlen => ?_⟩⟩
  rw [exec_bc_of_data hc hd hlen]
  refine ⟨fun hdst horig => ⟨_, if_pos ⟨hdst, horig⟩, fun heq => ?equal, fun ⟨k, hk, hne⟩ => ?different⟩,
    fun hout => if_neg (not_and_le_of_lt_or_lt hout)⟩
  case equal => rw [Memory.equalBlocks_iff.2 heq]; rfl
  case different =>
    have hfalse : s.memory.equalBlocks len.toNat dst.toNat orig.toNat = false :=
      Bool.eq_false_iff.2 fun h => hne (Memory.equalBlocks_iff.1 h k hk)
    rw [hfalse]; rfl

end Sys2Proof.Machine
end

section
/-! PROOF of O51 and O52: what each host operation of a callback does, and what no sequence of them can do. -/

namespace Sys2Proof.Machine

/-- A byte of the I/O window that a callback writes is seen at its address and nowhere else (20_memory.md R97). -/
theorem byteAt_writeByte_of_window {m : Memory} (hm : m.wf = true) {a : Nat} (ha : a < 192) (b : Byte) (x : Nat) :
    (m.writeByte a b).byteAt x = if x = a then b else m.byteAt x :=
  Memory.byteAt_writeByte hm (Nat.lt_trans ha (by decide)) b x

/-- What a host operation that the callback may make does to memory: nothing, or one byte of the window is written. -/
theorem callbackStep_ok {call : HostCall} {s t : State} (h : callbackStep call s = .ok t) :
    t = s ∨ ∃ a b, a < 192 ∧ t = s.setMemory (s.memory.writeByte a b) := by
  cases call with
  | ioReadByte a => cases h; exact .inl rfl
  | ioWriteByte a b =>
    cases h
    by_cases ha : a < 192
    · exact .inr ⟨a, b, ha, by rw [ioWriteByte_of_lt ha]⟩
    · exact .inl (by rw [ioWriteByte_of_le (Nat.not_lt.1 ha)])
  | snapshot => cases h; exact .inl rfl
  | run => cases h
  | loadProgram bytes n => cases h
  | construct slots => cases h

/-- An operation that the callback may make hands its state to the rest. -/
theorem callbackResult_cons_of_ok {call : HostCall} {s t : State} (h : callbackStep call s = .ok t) (rest : List HostCall) :
    callbackResult (.returns (call :: rest)) s = callbackResult (.returns rest) t := by
  rw [callbackResult, callbackSteps, h, callbackResult]

theorem callbackResult_cons_of_error {call : HostCall} {s : State} {e : Stop} (h : callbackStep call s = .error e)
    (rest : List HostCall) : callbackResult (.returns (call :: rest)) s = .error e := by
  rw [callbackResult, callbackSteps, h]

/-- One operation after another leaves the bytes outside the window alone. -/
theorem callbackResult_byteAt_of_le {calls : List HostCall} {s t : State} (hs : s.memory.wf = true)
    (h : callbackResult (.returns calls) s = .ok t) {a : Nat} (ha : 192 ≤ a) : t.memory.byteAt a = s.memory.byteAt a := by
  induction calls generalizing s with
  | nil =>
    obtain rfl : s = t := Except.ok.inj h
    rfl
  | cons call rest ih =>
    cases hstep : callbackStep call s with
    | error e => cases (callbackResult_cons_of_error hstep rest).symm.trans h
    | ok u =>
      rw [callbackResult_cons_of_ok hstep] at h
      rcases callbackStep_ok hstep with rfl | ⟨x, b, hx, rfl⟩
      · exact ih hs h
      · rw [ih (Memory.writeByte_wf hs x b) h, State.setMemory_memory, byteAt_writeByte_of_window hs hx, if_neg (by omega)]

/-- Settles O51: a callback that returns has written memory only, operation by operation inside the window. -/
theorem callbacksChangeOnlyTheWindow : Obligations.CallbacksChangeOnlyTheWindow := by
  intro run s t hs h
  refine ⟨callbackResult_ok h, fun a ha => ?_⟩
  cases run with
  | returns calls => exact callbackResult_byteAt_of_le hs h ha
  | neverReturns => cases h

/-- Settles O52: the first operation hands its state to the rest, or stops the callback. -/
theorem callbackOperationsTakeEffect : Obligations.CallbackOperationsTakeEffect := by
  refine fun s rest hs => ⟨rfl, fun a => callbackResult_cons_of_ok rfl rest, callbackResult_cons_of_ok rfl rest, fun a b ha => ?inside,
    fun a b ha => ?outside, callbackResult_cons_of_error rfl rest, fun _ _ => callbackResult_cons_of_error rfl rest,
    fun _ => callbackResult_cons_of_error rfl rest, rfl⟩
  case inside =>
    have hstep : callbackStep (.ioWriteByte a b) s = .ok (s.setMemory (s.memory.writeByte a b)) :=
      congrArg (fun r : Status × State => Except.ok r.2) (ioWriteByte_of_lt ha b s)
    exact ⟨_, callbackResult_cons_of_ok hstep rest, Memory.writeByte_wf hs a b, byteAt_writeByte_of_window hs ha b⟩
  case outside =>
    have hstep : callbackStep (.ioWriteByte a b) s = .ok s :=
      congrArg (fun r : Status × State => Except.ok r.2) (ioWriteByte_of_le ha b s)
    exact callbackResult_cons_of_ok hstep rest

end Sys2Proof.Machine
end

section
/-! PROOF of O6, O7, O14 and O16: the state after `construct`, the run after a status, and the statuses that the table of
60_exceptions.md R470 lists. -/

namespace Sys2Proof.Machine

/-! ### Reset -/

/-- Core 0 is the default core made active, and every other core is the default core (70_reset_and_hazards.md R520). -/
theorem construct_core {count : Config.CoreCount} {slots : Vector Bool Config.ioTableSize} {id : Nat} {c : CoreState}
    (hc : (State.construct count slots).cores[id]? = some c) : c = { CoreState.default 0#32 with active := decide (id = 0) } := by
  cases id with
  | zero => cases hc; rfl
  | succ id =>
    obtain ⟨-, rfl⟩ := List.getElem?_eq_some_iff.1 hc
    simp [State.construct, CoreState.default]

theorem coreCount_toNat_pos (count : Config.CoreCount) : 0 < count.toNat := by cases count <;> decide

theorem construct_curCoreId (count : Config.CoreCount) (slots : Vector Bool Config.ioTableSize) :
    (State.construct count slots).curCoreId = count.toNat - 1 := rfl

theorem construct_coreCount (count : Config.CoreCount) (slots : Vector Bool Config.ioTableSize) :
    (State.construct count slots).cores.length = count.toNat := by
  cases count <;> rfl

/-- The first scan starts behind the last core, at core 0, which is active (41_engine.md R222). -/
theorem nextCoreId_construct (count : Config.CoreCount) (slots : Vector Bool Config.ioTableSize) :
    nextCoreId (State.construct count slots) = 0 := by
  have hfirst : ((State.construct count slots).curCoreId + 0 + 1) % (State.construct count slots).cores.length = 0 := by
    rw [construct_coreCount, construct_curCoreId, Nat.add_zero, Nat.sub_add_cancel (coreCount_toNat_pos count), Nat.mod_self]
  have hactive : (State.construct count slots).coreActive 0 := ⟨_, rfl, rfl⟩
  have hpos : 0 < (State.construct count slots).cores.length := by
    rw [construct_coreCount]
    exact coreCount_toNat_pos count
  rw [nextCoreId_of_first_active (k := 0) hpos (by rw [hfirst]; exact hactive) nofun, hfirst]

/-- Settles O6: the fields of the two kinds of core that `construct` makes, and the first scan. -/
theorem constructLeavesResetValues : Obligations.ConstructLeavesResetValues := by
  intro count slots
  have hselected : selectNextCore (State.construct count slots) = (State.construct count slots).select 0 :=
    congrArg _ (nextCoreId_construct count slots)
  refine ⟨fun _ => rfl, fun id hid => Vector.getElem?_replicate.trans (if_pos hid), rfl, rfl, rfl, construct_coreCount count slots,
    fun id c hc => ?core, nextCoreId_construct count slots, by rw [hselected]; exact ⟨_, rfl, rfl⟩⟩
  case core =>
    rw [construct_core hc]
    exact ⟨rfl, rfl, rfl, rfl, rfl, rfl, fun r hr => Vector.getElem?_replicate.trans (if_pos hr)⟩

/-- Settles O7: every core has empty stacks, and memory lists no byte. -/
theorem constructIsLegal : Obligations.ConstructIsLegal := by
  refine fun count slots => ⟨?coreCount, ?curCoreId, fun c hc => ?core, Memory.construct_wf count slots⟩
  case coreCount =>
    rw [construct_coreCount]
    cases count with
    | two => exact .inl rfl
    | eight => exact .inr rfl
  case curCoreId =>
    rw [construct_coreCount]
    exact Nat.sub_one_lt_of_lt (coreCount_toNat_pos count)
  case core =>
    obtain ⟨id, hid⟩ := List.mem_iff_getElem?.1 hc
    rw [construct_core hid]
    exact CoreState.Legal.default 0#32

/-! ### The end of a run -/

theorem step_of_ended {s : State} (h : s.status ≠ .none) : step s = .next s := by
  unfold step
  split
  next hrun => exact absurd hrun h
  next => rfl

/-- Settles O14: the entry of `run()` clears the status output, so the step from there is a tick. -/
theorem endedRunWaitsForTheHost : Obligations.EndedRunWaitsForTheHost :=
  fun s => ⟨step_of_ended, rfl, step_of_running (s := startRun s) rfl⟩

/-! ### The statuses of an instruction -/

/-- The statuses of R470 are the guard's underflow of an instruction that pops, its overflow of one that pushes, and its own. -/
theorem mem_raisable_iff {i : Instr} {st : Status} :
    st ∈ raisable i ↔ (1 ≤ (guardCounts i).1 ∧ st = .dataStackUnderflow) ∨
      (1 ≤ (guardCounts i).2 ∧ st = .dataStackOverflow) ∨ st ∈ ownStatuses i := by
  unfold raisable
  split <;> split <;> simp [*]

/-- Settles O16: too few cells are only too few for an instruction that pops, and too many, within the capacity, for one that pushes. -/
theorem onlyItsOwnStatuses : Obligations.OnlyItsOwnStatuses := by
  intro i s t hrun hcap h
  rcases exec_next_cases h with ⟨hsame, -⟩ | ⟨st, hown, rfl⟩ | ⟨c, -, hlt, rfl⟩ | ⟨c, hc, hlt, rfl⟩
  · exact .inl (hsame.trans hrun)
  · exact .inr (mem_raisable_iff.2 (.inr (.inr hown)))
  · exact .inr (mem_raisable_iff.2 (.inl ⟨by omega, rfl⟩))
  · have hroom := hcap c hc
    exact .inr (mem_raisable_iff.2 (.inr (.inl ⟨by omega, rfl⟩)))

end Sys2Proof.Machine
end
